-- ==== Sys2Proof/Word.lean ====
section
/-! DEFINITION. The word types of HUFF-CORE (00_scope.md R9, R10): bit vectors for what the spec treats as bits. -/

namespace Sys2Proof

/-- A byte of a stream or a symbol: `BYTE_W` = 8 bits, symbols are byte values 0..255 (00_scope.md R9). -/
abbrev Byte := BitVec 8

/-- A frequency-table entry, the DATA operand and a result: `FREQ_W` = `RES_W` = 32 bits (00_scope.md R9). -/
abbrev Word := BitVec 32

/-- A node weight: `WEIGHT_W` = 40 bits, unsigned (00_scope.md R9; 41_tree_build.md R147). -/
abbrev Weight := BitVec 40

/-- A command word: `CMD_W` = 64 bits (00_scope.md R9; 30_encoding.md R80). -/
abbrev CmdWord := BitVec 64

/-- A bit position 0..8 of a one-byte cache: `POS_RANGE` (00_scope.md R9; 10_state.md R24, R27). -/
abbrev Pos := Fin 9

/-- A node index 0..510: `NODE_MAX` = 511 arena entries (00_scope.md R9; 10_state.md R30). -/
abbrev NodeIx := Fin 511

end Sys2Proof
end

