-- ==== Sys2Proof/Syntax.lean ====
section
/-! DEFINITION. The commands of HUFF-CORE, one constructor per row of spec/opcode_table.json (30_encoding.md R83), and the
raw fields of a command word (R80). Operand types are those of R82: `sym` any byte, `data` any 32-bit word. -/

namespace Sys2Proof

/-- The thirteen commands of 30_encoding.md R83. -/
inductive Instr where
  /-- BR_READBIT, format N (40_bit_io.md R102). -/
  | brReadbit
  /-- BR_RESET, format N (R105). -/
  | brReset
  /-- BW_WRITEBIT data, format D (R111); all 32 bits of `data` are kept, only bit 0 is used (30_encoding.md R82). -/
  | bwWritebit (data : Word)
  /-- BW_FLUSH, format N (R113). -/
  | bwFlush
  /-- BW_RESET, format N (R116). -/
  | bwReset
  /-- FREQ_WR sym, data, format SD (41_tree_build.md R134). -/
  | freqWr (sym : Byte) (data : Word)
  /-- FREQ_RD sym, format S (R136). -/
  | freqRd (sym : Byte)
  /-- TREE_BUILD, format N (R140). -/
  | treeBuild
  /-- TREE_CLEAR, format N (R150). -/
  | treeClear
  /-- ENC_SYM sym, format S (42_encode.md R172). -/
  | encSym (sym : Byte)
  /-- DEC_SYM, format N (43_decode.md R191). -/
  | decSym
  /-- ST_RD, format N (44_status.md R210). -/
  | stRd
  /-- ST_CLR, format N (R212). -/
  | stClr
  deriving DecidableEq, Repr

/-- The four formats of 30_encoding.md R81: which of SYM and DATA are operands. -/
inductive Format where
  /-- No operand: SYM and DATA must be 0. -/
  | n
  /-- SYM is an operand, DATA must be 0. -/
  | s
  /-- DATA is an operand, SYM must be 0. -/
  | d
  /-- SYM and DATA are operands. -/
  | sd
  deriving DecidableEq, Repr

/-- The five fields of a command word (30_encoding.md R80). -/
structure Fields where
  opc  : Byte
  rsv1 : Byte
  sym  : Byte
  rsv2 : Byte
  data : Word
  deriving DecidableEq, Repr

/-- The operation a row of the opcode map names, apart from its operands (30_encoding.md R83). -/
inductive Op where
  | brReadbit | brReset | bwWritebit | bwFlush | bwReset | freqWr | freqRd | treeBuild | treeClear | encSym | decSym
  | stRd | stClr
  deriving DecidableEq, Repr

/-- The operation a command performs. -/
def Instr.op : Instr → Op
  | .brReadbit => .brReadbit
  | .brReset => .brReset
  | .bwWritebit _ => .bwWritebit
  | .bwFlush => .bwFlush
  | .bwReset => .bwReset
  | .freqWr _ _ => .freqWr
  | .freqRd _ => .freqRd
  | .treeBuild => .treeBuild
  | .treeClear => .treeClear
  | .encSym _ => .encSym
  | .decSym => .decSym
  | .stRd => .stRd
  | .stClr => .stClr

end Sys2Proof
end

