-- ==== Sys2Proof/WellFormed.lean ====
section
/-! DEFINITION. What makes the fields of a command word well-formed for a format (30_encoding.md R81, R85).

Every term of Instr is a legal command: its operands have exactly the types R82 gives them, so no check on Instr is
needed. The checks are on a raw word's fields: RSV1 and RSV2 must be zero in every format, SYM where it is no operand,
DATA where it is no operand. That the opcode is assigned is the decoder's check (Decode.lean). -/

namespace Sys2Proof

/-- Is SYM an operand in this format? (30_encoding.md R81) -/
def Format.hasSym : Format → Bool
  | .n => false
  | .s => true
  | .d => false
  | .sd => true

/-- Is DATA an operand in this format? (30_encoding.md R81) -/
def Format.hasData : Format → Bool
  | .n => false
  | .s => false
  | .d => true
  | .sd => true

/-- RSV1 is zero (30_encoding.md R80). -/
def Fields.rsv1Zero (f : Fields) : Bool := f.rsv1 == 0

/-- RSV2 is zero (30_encoding.md R80). -/
def Fields.rsv2Zero (f : Fields) : Bool := f.rsv2 == 0

/-- SYM is an operand or zero (30_encoding.md R81). -/
def Fields.symAllowed (fmt : Format) (f : Fields) : Bool := fmt.hasSym || f.sym == 0

/-- DATA is an operand or zero (30_encoding.md R81). -/
def Fields.dataAllowed (fmt : Format) (f : Fields) : Bool := fmt.hasData || f.data == 0

/-- No must-be-zero field of the format is nonzero (30_encoding.md R81, R85). -/
def Fields.wellFormed (fmt : Format) (f : Fields) : Bool :=
  f.rsv1Zero && f.rsv2Zero && f.symAllowed fmt && f.dataAllowed fmt

end Sys2Proof
end

