-- ==== Sys2Proof/Decode.lean ====
section
/-! DEFINITION. Decoding a 64-bit command word (30_encoding.md R83, R84, R87), total and rejecting by name, and then the
encoder, written from the same map. A command word has one length; there are no bytes to order (R80; 20_memory.md R56). -/

namespace Sys2Proof

/-- Why a word is illegal (30_encoding.md R85). Both reasons complete with ILLEGAL_CMD. -/
inductive Illegal where
  /-- The OPC value stands in no row of R83. -/
  | unassignedOpcode
  /-- The OPC value is assigned, and a reserved or must-be-zero field is nonzero. -/
  | nonzeroField
  deriving DecidableEq, Repr

/-- One row of the opcode map (30_encoding.md R83). -/
structure Row where
  opc    : Byte
  op     : Op
  format : Format
  deriving DecidableEq, Repr

/-- The opcode map of 30_encoding.md R83, in its order. -/
def opcodeMap : List Row :=
  [ ⟨0x01, .brReadbit, .n⟩,
    ⟨0x02, .brReset, .n⟩,
    ⟨0x08, .bwWritebit, .d⟩,
    ⟨0x09, .bwFlush, .n⟩,
    ⟨0x0A, .bwReset, .n⟩,
    ⟨0x10, .freqWr, .sd⟩,
    ⟨0x11, .freqRd, .s⟩,
    ⟨0x18, .treeBuild, .n⟩,
    ⟨0x19, .treeClear, .n⟩,
    ⟨0x20, .encSym, .s⟩,
    ⟨0x28, .decSym, .n⟩,
    ⟨0x30, .stRd, .n⟩,
    ⟨0x31, .stClr, .n⟩ ]

/-- The row with this OPC value, if there is one (30_encoding.md R87). -/
def rowOf (opc : Byte) : Option Row := opcodeMap.find? fun r => r.opc == opc

/-- The fields of a command word (30_encoding.md R80). -/
def fieldsOf (w : CmdWord) : Fields where
  opc  := w.extractLsb' 56 8
  rsv1 := w.extractLsb' 48 8
  sym  := w.extractLsb' 40 8
  rsv2 := w.extractLsb' 32 8
  data := w.extractLsb' 0 32

/-- The mask of a format (30_encoding.md R84). -/
def maskOf : Format → CmdWord
  | .n  => 0xFFFFFFFFFFFFFFFF
  | .s  => 0xFFFF00FFFFFFFFFF
  | .d  => 0xFFFFFFFF00000000
  | .sd => 0xFFFF00FF00000000

/-- The match word of a row, `OPC << 56` (30_encoding.md R84). -/
def matchOf (r : Row) : CmdWord := r.opc.setWidth 64 <<< 56

/-- A word selects a row (30_encoding.md R84). -/
def selects (w : CmdWord) (r : Row) : Bool := w &&& maskOf r.format == matchOf r

/-- The command an operation makes with its operands; a field that is no operand of its format is dropped, and
`selects` has found it zero (30_encoding.md R82). -/
def commandOf (op : Op) (sym : Byte) (data : Word) : Instr :=
  match op with
  | .brReadbit => .brReadbit
  | .brReset => .brReset
  | .bwWritebit => .bwWritebit data
  | .bwFlush => .bwFlush
  | .bwReset => .bwReset
  | .freqWr => .freqWr sym data
  | .freqRd => .freqRd sym
  | .treeBuild => .treeBuild
  | .treeClear => .treeClear
  | .encSym => .encSym sym
  | .decSym => .decSym
  | .stRd => .stRd
  | .stClr => .stClr

/-- The decode procedure of 30_encoding.md R87, total over all 2^64 words. -/
def decode (w : CmdWord) : Except Illegal Instr :=
  match rowOf (fieldsOf w).opc with
  | none => .error .unassignedOpcode
  | some r =>
    if selects w r then .ok (commandOf r.op (fieldsOf w).sym (fieldsOf w).data) else .error .nonzeroField

/-- A command word from its fields, the most significant first (30_encoding.md R80). -/
def wordOf (f : Fields) : CmdWord := f.opc ++ f.rsv1 ++ f.sym ++ f.rsv2 ++ f.data

/-- The fields a command is encoded with: the opcode of R83, its operands, and zero elsewhere (30_encoding.md R81). -/
def encodeFields : Instr → Fields
  | .brReadbit => ⟨0x01, 0, 0, 0, 0⟩
  | .brReset => ⟨0x02, 0, 0, 0, 0⟩
  | .bwWritebit data => ⟨0x08, 0, 0, 0, data⟩
  | .bwFlush => ⟨0x09, 0, 0, 0, 0⟩
  | .bwReset => ⟨0x0A, 0, 0, 0, 0⟩
  | .freqWr sym data => ⟨0x10, 0, sym, 0, data⟩
  | .freqRd sym => ⟨0x11, 0, sym, 0, 0⟩
  | .treeBuild => ⟨0x18, 0, 0, 0, 0⟩
  | .treeClear => ⟨0x19, 0, 0, 0, 0⟩
  | .encSym sym => ⟨0x20, 0, sym, 0, 0⟩
  | .decSym => ⟨0x28, 0, 0, 0, 0⟩
  | .stRd => ⟨0x30, 0, 0, 0, 0⟩
  | .stClr => ⟨0x31, 0, 0, 0, 0⟩

/-- The command word of a command. -/
def encode (i : Instr) : CmdWord := wordOf (encodeFields i)

/-- The word whose bits above `nbits` are zero, as the opcode table numbers bits; bits above the 64 of a command word
are no part of it (30_encoding.md R80). -/
def tableWord (nbits w : Nat) : CmdWord := BitVec.ofNat 64 (w % 2 ^ nbits)

/-- The command the decoder reads from a word numbered as spec/opcode_table.json numbers it; none where it refuses. -/
def decodeTableWord (nbits w : Nat) : Option Instr :=
  match decode (tableWord nbits w) with
  | .ok i => some i
  | .error _ => none

end Sys2Proof
end

