-- ==== Sys2Proof/Config.lean ====
section
/-! DEFINITION. The parameters of HUFF-CORE (00_scope.md R9) that definitions of the model name.

The widths and sizes of R9 are the types of Word.lean and of Machine/State.lean.
The parameters SRC and SNK are the answer lists `src` and `snk` of State: the spec leaves every answer free, and a
statement about every state ranges over every list (notes/assumptions/2.md).
The parameter PIN_PROTOCOL is OPEN in the spec and out of scope (notes/assumptions/13.md).
No command of the spec leaves a result undefined, so Config holds no free value. -/

namespace Sys2Proof

/-- `N_SYM`: the alphabet size (00_scope.md R9). -/
abbrev Config.nSym : Nat := 256

/-- `NODE_MAX`: the arena's entries, 256 leaves and 255 internal nodes (00_scope.md R9). -/
abbrev Config.nodeMax : Nat := 511

/-- `MAX_CODE`: the structural bound on a code's length in bits (00_scope.md R9; 41_tree_build.md R154). -/
abbrev Config.maxCode : Nat := 255

/-- `FREQ_MAX`: the largest entry TREE_BUILD accepts (00_scope.md R9). -/
abbrev Config.freqMax : Nat := 2 ^ 31 - 1

/-- The bytes of the container header, 256 entries of 4 bytes (20_memory.md R62). -/
abbrev Config.headerBytes : Nat := 1024

end Sys2Proof
end

