-- ==== Sys2Proof/Machine/State.lean ====
section
/-! DEFINITION. The state of HUFF-CORE (10_state.md R22), the ports as plain data, the completion codes, and the reset state. -/

namespace Sys2Proof.Machine

/-- The completion codes (60_exceptions.md R221). Codes 9 to 15 are never produced (R222), so no constructor stands for one. -/
inductive CC where
  | ok | eos | emptyTree | absentSym | srcIo | sinkIo | rebuild | badFreq | illegalCmd
  deriving DecidableEq, Repr

/-- A response: completion code and 32-bit result (60_exceptions.md R220). -/
structure Response where
  cc  : CC
  res : Word
  deriving DecidableEq, Repr

/-- An answer of the byte source to one `SrcRead` (20_memory.md R58). -/
inductive SrcAnswer where
  /-- `DATA(b)`: the next byte of the source. -/
  | data (b : Byte)
  /-- `END`: the source has no more data. -/
  | atEnd
  /-- `IOERR`: the source could not be read. -/
  | ioErr
  deriving DecidableEq, Repr

/-- An answer of the byte sink to one `SnkPut` or `SnkSync` (20_memory.md R59). -/
inductive SnkAnswer where
  | ok | ioErr
  deriving DecidableEq, Repr

/-- A stream transaction that has been issued and not answered (60_exceptions.md R233). -/
inductive Pending where
  | srcRead
  | snkPut (b : Byte)
  | snkSync
  deriving DecidableEq, Repr

/-- A stream transaction that has completed, with its answer (00_scope.md R14). -/
inductive Transaction where
  | srcRead (a : SrcAnswer)
  | snkPut (b : Byte) (a : SnkAnswer)
  | snkSync (a : SnkAnswer)
  deriving DecidableEq, Repr

/-- What the host does on the command channel (10_state.md R21; 70_reset_and_hazards.md R251). -/
inductive HostEvent where
  /-- The host issues a command word. -/
  | command (w : CmdWord)
  /-- The host asserts reset. -/
  | reset
  /-- The host issues a command word, and asserts reset after the command's last transaction and before its response. -/
  | commandThenReset (w : CmdWord)
  deriving DecidableEq, Repr

/-- The bit reader BR (10_state.md R23, R24, R25). -/
structure Reader where
  byte : Byte
  pos  : Pos
  eos  : Bool
  deriving DecidableEq, Repr

/-- The bit writer BW (10_state.md R26, R27). -/
structure Writer where
  byte : Byte
  pos  : Pos
  deriving DecidableEq, Repr

/-- A CodeNode record of the arena (10_state.md R30). `none` is the null reference NONE. -/
structure Node where
  weight : Weight
  symbol : Byte
  child0 : Option NodeIx
  child1 : Option NodeIx
  parent : Option NodeIx
  deriving DecidableEq, Repr

/-- The frequency table FREQ (10_state.md R28). -/
abbrev FreqTable := Vector Word 256

/-- The node arena NODE; an entry that holds no value is `none` (10_state.md R30, R42). -/
abbrev Arena := Vector (Option Node) 511

/-- The tree state: BUILT, ROOT, LEAF and NODE (10_state.md R29 to R33). -/
structure Tree where
  built : Bool
  root  : Option NodeIx
  leaf  : Vector (Option NodeIx) 256
  nodes : Arena
  deriving DecidableEq, Repr

/-- The whole state. The first five fields are the spec's (10_state.md R22); the others are the ports, held as plain data:
DESIGN CHOICE (notes/assumptions/1.md to 4.md). -/
structure State where
  /-- The bit reader. -/
  br        : Reader
  /-- The bit writer. -/
  bw        : Writer
  /-- The frequency table. -/
  freq      : FreqTable
  /-- The tree. -/
  tree      : Tree
  /-- The sticky bits: bit c - 1 is STICKY[c], c = 1..8 (10_state.md R38). -/
  sticky    : BitVec 8
  /-- The stream transaction the command in progress waits on, if any (60_exceptions.md R233). -/
  waiting   : Option Pending
  /-- The host's inputs, oldest first. -/
  host      : List HostEvent
  /-- The source's coming answers, oldest first; `none` is a transaction that is never answered, and so is every one
  after the list's end. -/
  src       : List (Option SrcAnswer)
  /-- The sink's coming answers, oldest first, to puts and syncs alike; `none` and the list's end as for `src`. -/
  snk       : List (Option SnkAnswer)
  /-- The completed stream transactions, oldest first (00_scope.md R14). -/
  trace     : List Transaction
  /-- The responses given, oldest first (60_exceptions.md R220). -/
  responses : List Response
  deriving DecidableEq, Repr

/-- Why the machine stops. Each is raised only in a state that no run from reset reaches. -/
inductive Fault where
  /-- Raised by ENC_SYM and DEC_SYM when a walk reads an arena entry that holds no value, or follows a null child
  reference of an internal node (10_state.md R42 calls such a read a modelling error). Safe: the machine stops. -/
  | absentNode
  /-- Raised by ENC_SYM and DEC_SYM when a walk has followed as many links as the arena has entries and goes on: the
  links form a cycle, which no built tree has (10_state.md R34). Safe: the machine stops. -/
  | endlessWalk
  deriving DecidableEq, Repr

/-- Why an instruction has no meaning. -/
inductive Refusal where
  /-- Raised by exec's arm of an instruction that has no meaning yet; no arm raises it now. Safe: the machine stops. -/
  | notModelled (mnemonic : String)
  deriving DecidableEq, Repr

/-- The reader's reset value: empty (10_state.md R22; 70_reset_and_hazards.md R250). -/
def Reader.empty : Reader := { byte := 0x00, pos := 8, eos := false }

/-- The writer's reset value: empty (10_state.md R22; 70_reset_and_hazards.md R250). -/
def Writer.empty : Writer := { byte := 0x00, pos := 0 }

/-- The unbuilt, empty tree (10_state.md R22, R41, R42). -/
def Tree.empty : Tree where
  built := false
  root  := none
  leaf  := Vector.replicate 256 none
  nodes := Vector.replicate 511 none

/-- The machine right after reset (10_state.md R22; 70_reset_and_hazards.md R250). The ports start with nothing on them:
a DESIGN CHOICE (notes/assumptions/1.md, 2.md, 4.md). -/
def State.reset : State where
  br        := Reader.empty
  bw        := Writer.empty
  freq      := Vector.replicate 256 0x00000000
  tree      := Tree.empty
  sticky    := 0x00
  waiting   := none
  host      := []
  src       := []
  snk       := []
  trace     := []
  responses := []

end Sys2Proof.Machine
end

