-- ==== Sys2Proof/Machine/Operands.lean ====
section
/-! DEFINITION. Operand assembly (30_encoding.md R82), bit selection in a byte (00_scope.md R11) and the layouts of
results (60_exceptions.md R221; 42_encode.md R172; 43_decode.md R191). -/

namespace Sys2Proof.Machine

/-- `sym` as an index: the unsigned 8-bit value, neither extended nor scaled (30_encoding.md R82). -/
def symIx (sym : Byte) : Fin 256 := ⟨sym.toNat, sym.isLt⟩

/-- `data[0]`, the one bit of DATA that BW_WRITEBIT uses (30_encoding.md R82). -/
def dataBit (data : Word) : Bool := data.getLsbD 0

/-- The bit with index `i` of a byte, counted from the most significant end: `(byte >> (7 - i)) & 1` (00_scope.md R11). -/
def bitAt (b : Byte) (i : Nat) : Bool := (b >>> (7 - i)).getLsbD 0

/-- A byte whose one set bit, if `v`, has index `i`: `(v & 1) << (7 - i)` (40_bit_io.md R110). -/
def bitMask (v : Bool) (i : Nat) : Byte := BitVec.setWidth 8 (BitVec.ofBool v) <<< (7 - i)

/-- `zext_32` of one bit (40_bit_io.md R102). -/
def bitResult (v : Bool) : Word := BitVec.setWidth 32 (BitVec.ofBool v)

/-- `{0x0000, k[7:0], sym}`: a bit count and a symbol (42_encode.md R172; 43_decode.md R191). -/
def countResult (k : Nat) (sym : Byte) : Word := (0 : BitVec 16) ++ BitVec.ofNat 8 k ++ sym

/-- `zext_32({0x00, sym})`: the result of ABSENT_SYM (42_encode.md R172). -/
def symResult (sym : Byte) : Word := sym.setWidth 32

/-- `zext_32` of a count 0..256 or of an index 0..255 (41_tree_build.md R140). -/
def natResult (n : Nat) : Word := BitVec.ofNat 32 n

/-- The position one bit further; no rule writes a value above 8 (10_state.md R24). -/
def posNext (p : Pos) : Pos := ⟨min (p.val + 1) 8, by omega⟩

/-- Bit 31 of a frequency entry, the sign of the 4-byte header integer (10_state.md R28; 41_tree_build.md R141). -/
def isNegative (w : Word) : Bool := w.getLsbD 31

/-- `zext_40` of a frequency entry: a leaf's weight (41_tree_build.md R140). -/
def leafWeight (w : Word) : Weight := w.setWidth 40

/-- The symbol with this number, 0..255. -/
def symOfNat (i : Nat) : Byte := BitVec.ofNat 8 i

/-- Where TREE_BUILD places the leaf of a symbol: at the symbol's own number (10_state.md R31). -/
def leafIx (sym : Byte) : NodeIx := ⟨sym.toNat, Nat.lt_trans sym.isLt (by decide)⟩

/-- Where TREE_BUILD places the node of merge `k`, counted from 0: index 256 + k; a build makes at most 255 merges, so the
sum stays below 511 (10_state.md R31; 41_tree_build.md R144). -/
def mergeIx (k : Nat) : NodeIx := Fin.ofNat 511 (256 + k)

end Sys2Proof.Machine
end

