-- ==== Sys2Proof/Machine/Flags.lean ====
section
/-! DEFINITION. The numbers of the completion codes (60_exceptions.md R221), the sticky bits (R224) and STATUS
(10_state.md R36). HUFF-CORE has no arithmetic flags (R37). -/

namespace Sys2Proof.Machine

/-- The 4-bit number of a completion code (60_exceptions.md R221). -/
def ccCode : CC → BitVec 4
  | .ok => 0
  | .eos => 1
  | .emptyTree => 2
  | .absentSym => 3
  | .srcIo => 4
  | .sinkIo => 5
  | .rebuild => 6
  | .badFreq => 7
  | .illegalCmd => 8

/-- The sticky bit a completion code sets: none for OK, bit c - 1 for code c (60_exceptions.md R224; 10_state.md R38). -/
def stickyMask (cc : CC) : BitVec 8 :=
  match cc with
  | .ok => 0
  | _ => 1 <<< ((ccCode cc).toNat - 1)

/-- The sticky bits after a command completes with `cc` (60_exceptions.md R224). -/
def stickyAfter (cc : CC) (sticky : BitVec 8) : BitVec 8 := sticky ||| stickyMask cc

/-- `STICKY[c]`, for c in 1..8 (10_state.md R38). -/
def stickyBit (s : State) (c : Nat) : Bool := s.sticky.getLsbD (c - 1)

/-- A bit position as the 4-bit field it is held in (10_state.md R22, R36). -/
def posField (p : Pos) : BitVec 4 := BitVec.ofNat 4 p.val

/-- STATUS, assembled from the state, most significant field first (10_state.md R36). -/
def statusWord (s : State) : Word :=
  (0 : BitVec 7) ++ s.sticky ++ (0 : BitVec 5) ++ posField s.bw.pos ++ posField s.br.pos ++ (0 : BitVec 1)
    ++ BitVec.ofBool s.br.eos ++ BitVec.ofBool s.tree.root.isSome ++ BitVec.ofBool s.tree.built

end Sys2Proof.Machine
end

