-- ==== Sys2Proof/Machine/Ops.lean ====
section
/-! DEFINITION. The primitives every command is written with (00_scope.md R13): stream transactions, completing a command,
raising an error, and reset.

A stream transaction either completes, with an answer, or waits (60_exceptions.md R233). One that waits leaves the state
with the transaction outstanding and no response; only reset ends that (R233; 70_reset_and_hazards.md R251). -/

namespace Sys2Proof.Machine

/-- What a step, a meaning and a run answer. -/
abbrev Result := Host.Outcome State Fault Refusal

/-! ### Updates of one part of the state -/

/-- Write BR. -/
def setBr (br : Reader) (s : State) : State := { s with br := br }

/-- Write BW. -/
def setBw (bw : Writer) (s : State) : State := { s with bw := bw }

/-- `FREQ[sym] <- data`, all 32 bits (20_memory.md R51). -/
def setFreq (sym : Byte) (data : Word) (s : State) : State :=
  { s with freq := s.freq.set (symIx sym).val data (symIx sym).isLt }

/-- Write the tree state. -/
def setTree (tree : Tree) (s : State) : State := { s with tree := tree }

/-- Write the sticky bits. -/
def setSticky (sticky : BitVec 8) (s : State) : State := { s with sticky := sticky }

/-- The command in progress now waits on a transaction (60_exceptions.md R233). -/
def waitOn (p : Pending) (s : State) : State := { s with waiting := some p }

/-- Record a completed transaction (00_scope.md R14). -/
def record (t : Transaction) (s : State) : State := { s with trace := s.trace ++ [t] }

/-- The source's answer list without its first entry. -/
def popSrc (s : State) : State := { s with src := s.src.tail }

/-- The sink's answer list without its first entry. -/
def popSnk (s : State) : State := { s with snk := s.snk.tail }

/-! ### Reads -/

/-- `FREQ[sym]`, all 32 bits (20_memory.md R51). -/
def freqAt (sym : Byte) (s : State) : Word := s.freq[(symIx sym).val]'(symIx sym).isLt

/-- `LEAF[sym]`. -/
def leafAt (sym : Byte) (s : State) : Option NodeIx := s.tree.leaf[(symIx sym).val]'(symIx sym).isLt

/-- `NODE[i]` of an arena; none where the entry holds no value (10_state.md R42). -/
def nodeAt (nodes : Arena) (i : NodeIx) : Option Node := nodes[i.val]'i.isLt

/-! ### Stream transactions -/

/-- `SrcRead()`: the source's answer, or none where the command now waits (20_memory.md R58; 60_exceptions.md R233). -/
def srcRead (s : State) : Option SrcAnswer × State :=
  match s.src.head? with
  | some (some a) => (some a, record (.srcRead a) (popSrc s))
  | some none => (none, waitOn .srcRead (popSrc s))
  | none => (none, waitOn .srcRead s)

/-- `SnkPut(b)`: the sink's answer, or none where the command now waits (20_memory.md R59; 60_exceptions.md R233). -/
def snkPut (b : Byte) (s : State) : Option SnkAnswer × State :=
  match s.snk.head? with
  | some (some a) => (some a, record (.snkPut b a) (popSnk s))
  | some none => (none, waitOn (.snkPut b) (popSnk s))
  | none => (none, waitOn (.snkPut b) s)

/-- `SnkSync()`: the sink's answer, or none where the command now waits (20_memory.md R59; 60_exceptions.md R233). -/
def snkSync (s : State) : Option SnkAnswer × State :=
  match s.snk.head? with
  | some (some a) => (some a, record (.snkSync a) (popSnk s))
  | some none => (none, waitOn .snkSync (popSnk s))
  | none => (none, waitOn .snkSync s)

/-! ### Completing a command, and raising an error -/

/-- `complete(cc, res)`: the response is given and STICKY is updated (00_scope.md R13; 60_exceptions.md R220, R224). -/
def complete (cc : CC) (res : Word) (s : State) : State :=
  { s with sticky := stickyAfter cc s.sticky, responses := s.responses ++ [⟨cc, res⟩] }

/-- `raise E(res)`: the command completes with the code of E. Taking an error is no more than this: no vector, no saved
state, no mode, and so nothing to return from (00_scope.md R13; 60_exceptions.md R229, R230). State written before stays
written (R223). -/
def raise (e : CC) (res : Word) (s : State) : State := complete e res s

/-! ### Reset -/

/-- Reset: every element of 10_state.md R22 at its reset value; the command in progress is abandoned without a response,
and completed transactions are not undone (70_reset_and_hazards.md R250, R251). The ports are not the block's: they stay. -/
def resetBlock (s : State) : State :=
  { s with
    br := Reader.empty
    bw := Writer.empty
    freq := State.reset.freq
    tree := Tree.empty
    sticky := 0
    waiting := none }

/-! ### What the ports show -/

/-- The byte a transaction put at the sink: a put the sink answered with OK (20_memory.md R59). -/
def putByte : Transaction → Option Byte
  | .snkPut b .ok => some b
  | .snkPut _ .ioErr => none
  | .srcRead _ => none
  | .snkSync _ => none

/-- The bytes at the sink, oldest first (20_memory.md R50, R59). -/
def sinkBytes (s : State) : List Byte := s.trace.filterMap putByte

/-- The byte a transaction took from the source. -/
def readByte : Transaction → Option Byte
  | .srcRead (.data b) => some b
  | .srcRead .atEnd => none
  | .srcRead .ioErr => none
  | .snkPut _ _ => none
  | .snkSync _ => none

/-- The bytes consumed from the source, oldest first (20_memory.md R58). -/
def sourceBytes (s : State) : List Byte := s.trace.filterMap readByte

end Sys2Proof.Machine
end

