-- ==== Sys2Proof/Machine/Channel.lean ====
section
/-! DEFINITION. The command channel: what the block does with the host's next input (10_state.md R21; 20_memory.md R66;
60_exceptions.md R233; 70_reset_and_hazards.md R250, R251), and how a command word is placed on the channel.

There is no program counter and no fetch: the next command is the next input of the host. -/

namespace Sys2Proof.Machine

/-- What the block does next. -/
inductive Activity where
  /-- Reset is asserted; the state is that before it, the input taken. -/
  | resets (s : State)
  /-- A command in progress waits on a stream, and the host, which waits for its response, issues nothing. -/
  | waits
  /-- No command has been issued: the block is idle (60_exceptions.md R238). -/
  | idles
  /-- A command word is taken from the channel; the state is that before it runs. -/
  | takes (w : CmdWord) (s : State)
  /-- The same, and reset is asserted before the response (70_reset_and_hazards.md R251). -/
  | takesThenResets (w : CmdWord) (s : State)
  deriving DecidableEq, Repr

/-- The state with the host's oldest input taken. -/
def popHost (s : State) : State := { s with host := s.host.tail }

/-- The block's next activity: reset comes before everything; a waiting block takes no command (60_exceptions.md R233;
70_reset_and_hazards.md R251). -/
def nextActivity (s : State) : Activity :=
  match s.host.head?, s.waiting with
  | some .reset, _ => .resets (popHost s)
  | _, some _ => .waits
  | some (.command w), none => .takes w (popHost s)
  | some (.commandThenReset w), none => .takesThenResets w (popHost s)
  | none, none => .idles

/-- An illegal word completes with ILLEGAL_CMD, result 0, and has no other effect (30_encoding.md R85). -/
def illegalCommand (s : State) : State := raise .illegalCmd 0 s

/-- Reset comes after a command's effects `t` and before its response: the command is abandoned without a response, its
transactions stay (70_reset_and_hazards.md R251). -/
def abandoned (s t : State) : State := resetBlock { t with responses := s.responses }

/-- The state with a command word as the very next input, and no command in progress that would keep the block from
taking it: DESIGN CHOICE (notes/assumptions/19.md). -/
def placeCommand (w : CmdWord) (s : State) : State := { s with host := .command w :: s.host, waiting := none }

end Sys2Proof.Machine
end

