-- ==== Sys2Proof/Machine/BitIo.lean ====
section
/-! DEFINITION. The bit reader and bit writer and their five commands (40_bit_io.md). -/

namespace Sys2Proof.Machine

/-! ### Bit reader -/

/-- What `ReadBitCore` returns (40_bit_io.md R101). -/
inductive ReadResult where
  | bit (v : Bool)
  | eos
  | srcIo
  /-- The refill waits on the source (60_exceptions.md R233). -/
  | waits
  deriving DecidableEq, Repr

/-- The reader with a byte just fetched: none of its bits consumed (40_bit_io.md R101). -/
def refilled (b : Byte) (r : Reader) : Reader := { r with byte := b, pos := 0 }

/-- The reader with its end-of-stream latch set (10_state.md R25). -/
def latched (r : Reader) : Reader := { r with eos := true }

/-- The next bit of the cache, and the position one further: the last two lines of `ReadBitCore` (40_bit_io.md R101). -/
def takeBit (s : State) : ReadResult × State :=
  (.bit (bitAt s.br.byte s.br.pos.val), setBr { s.br with pos := posNext s.br.pos } s)

/-- `ReadBitCore()` (40_bit_io.md R101). -/
def readBitCore (s : State) : ReadResult × State :=
  if s.br.eos then (.eos, s)
  else if s.br.pos.val > 7 then
    match srcRead s with
    | (some (.data b), t) => takeBit (setBr (refilled b t.br) t)
    | (some .atEnd, t) => (.eos, setBr (latched t.br) t)
    | (some .ioErr, t) => (.srcIo, t)
    | (none, t) => (.waits, t)
  else takeBit s

/-- BR_READBIT (40_bit_io.md R102). -/
def execBrReadbit (s : State) : Result :=
  match readBitCore s with
  | (.bit v, t) => .next (complete .ok (bitResult v) t)
  | (.eos, t) => .next (raise .eos 0 t)
  | (.srcIo, t) => .next (raise .srcIo 0 t)
  | (.waits, t) => .next t

/-- BR_RESET (40_bit_io.md R105). -/
def execBrReset (s : State) : Result := .next (complete .ok 0 (setBr Reader.empty s))

/-! ### Bit writer -/

/-- What `WriteBitCore` returns (40_bit_io.md R110). -/
inductive WriteResult where
  | ok
  | sinkIo
  /-- The emission waits on the sink (60_exceptions.md R233). -/
  | waits
  deriving DecidableEq, Repr

/-- The bit `v` placed at index BW.pos: the last lines of `WriteBitCore` (40_bit_io.md R110). -/
def placeBit (v : Bool) (s : State) : State :=
  setBw { byte := s.bw.byte ||| bitMask v s.bw.pos.val, pos := posNext s.bw.pos } s

/-- `WriteBitCore(v)`; `v` is the one bit `v & 1` (40_bit_io.md R110). -/
def writeBitCore (v : Bool) (s : State) : WriteResult × State :=
  if s.bw.pos.val > 7 then
    match snkPut s.bw.byte s with
    | (some .ok, t) => (.ok, placeBit v (setBw Writer.empty t))
    | (some .ioErr, t) => (.sinkIo, t)
    | (none, t) => (.waits, t)
  else (.ok, placeBit v s)

/-- BW_WRITEBIT (40_bit_io.md R111). -/
def execBwWritebit (data : Word) (s : State) : Result :=
  match writeBitCore (dataBit data) s with
  | (.ok, t) => .next (complete .ok 0 t)
  | (.sinkIo, t) => .next (raise .sinkIo 0 t)
  | (.waits, t) => .next t

/-- BW_FLUSH (40_bit_io.md R113). -/
def execBwFlush (s : State) : Result :=
  if s.bw.pos.val = 0 then .next (complete .ok 0 s)
  else
    match snkPut s.bw.byte s with
    | (some .ioErr, t) => .next (raise .sinkIo 0 t)
    | (none, t) => .next t
    | (some .ok, t) =>
      match snkSync (setBw Writer.empty t) with
      | (some .ioErr, u) => .next (raise .sinkIo 1 u)
      | (none, u) => .next u
      | (some .ok, u) => .next (complete .ok 1 u)

/-- BW_RESET (40_bit_io.md R116). -/
def execBwReset (s : State) : Result := .next (complete .ok 0 (setBw Writer.empty s))

end Sys2Proof.Machine
end

