-- ==== Sys2Proof/Machine/Decoder.lean ====
section
/-! DEFINITION. The decoder: DEC_SYM (43_decode.md). -/

namespace Sys2Proof.Machine

/-- The child a bit selects: child0 for 0, child1 for 1 (43_decode.md R190, R191). -/
def childOf (nd : Node) (v : Bool) : Option NodeIx := if v then nd.child1 else nd.child0

/-- The walk from node `n` down to a leaf after `k` bits (43_decode.md R191). `fuel` bounds the bits: a walk that takes as
many as the arena has entries has come back to an entry: DESIGN CHOICE (notes/assumptions/8.md). -/
def walkDown : (fuel : Nat) → NodeIx → (k : Nat) → State → Result
  | fuel, n, k, s =>
    match nodeAt s.tree.nodes n with
    | none => .fault .absentNode
    | some nd =>
      match nd.child0 with
      | none => .next (complete .ok (countResult k nd.symbol) s)
      | some _ =>
        match fuel with
        | 0 => .fault .endlessWalk
        | fuel + 1 =>
          match readBitCore s with
          | (.eos, t) => .next (raise .eos (countResult k 0) t)
          | (.srcIo, t) => .next (raise .srcIo (countResult k 0) t)
          | (.waits, t) => .next t
          | (.bit v, t) =>
            match childOf nd v with
            | none => .fault .absentNode
            | some c => walkDown fuel c (k + 1) t

/-- DEC_SYM (43_decode.md R191). -/
def execDecSym (s : State) : Result :=
  match s.tree.root with
  | none => .next (raise .emptyTree 0 s)
  | some r => walkDown Config.nodeMax r 0 s

end Sys2Proof.Machine
end

