-- ==== Sys2Proof/Machine/Encoder.lean ====
section
/-! DEFINITION. The encoder: the code of a symbol and ENC_SYM (42_encode.md). -/

namespace Sys2Proof.Machine

/-- The walk from a node up to the root, prepending at each step the bit that says which child of its parent the node is:
0 for child0, 1 for child1 (42_encode.md R170, R171). `fuel` bounds the steps: a walk of as many steps as the arena has
entries has come back to an entry and never ends: DESIGN CHOICE (notes/assumptions/8.md). -/
def walkUp (nodes : Arena) : (fuel : Nat) → NodeIx → List Bool → Except Fault (List Bool)
  | fuel, n, c =>
    match nodeAt nodes n with
    | none => .error .absentNode
    | some nd =>
      match nd.parent with
      | none => .ok c
      | some p =>
        match fuel with
        | 0 => .error .endlessWalk
        | fuel + 1 =>
          match nodeAt nodes p with
          | none => .error .absentNode
          | some pn => walkUp nodes fuel p ((pn.child0 != some n) :: c)

/-- `code(s)` of the leaf at index `n` (42_encode.md R171); a leaf with no parent has the code `0` (R174). -/
def codeOf (nodes : Arena) (n : NodeIx) : Except Fault (List Bool) :=
  match nodeAt nodes n with
  | none => .error .absentNode
  | some nd =>
    match nd.parent with
    | none => .ok [false]
    | some _ => walkUp nodes Config.nodeMax n []

/-- Write the bits of a code from bit number `k` on, and complete (42_encode.md R172). -/
def writeCode (sym : Byte) : List Bool → (k : Nat) → State → Result
  | [], k, s => .next (complete .ok (countResult k sym) s)
  | v :: c, k, s =>
    match writeBitCore v s with
    | (.ok, t) => writeCode sym c (k + 1) t
    | (.sinkIo, t) => .next (raise .sinkIo (countResult k sym) t)
    | (.waits, t) => .next t

/-- ENC_SYM (42_encode.md R172). -/
def execEncSym (sym : Byte) (s : State) : Result :=
  match leafAt sym s with
  | none => .next (raise .absentSym (symResult sym) s)
  | some n =>
    match codeOf s.tree.nodes n with
    | .error e => .fault e
    | .ok c => writeCode sym c 0 s

end Sys2Proof.Machine
end

