-- ==== Sys2Proof/Machine/Status.lean ====
section
/-! DEFINITION. The status commands ST_RD and ST_CLR (44_status.md). -/

namespace Sys2Proof.Machine

/-- ST_RD (44_status.md R210). -/
def execStRd (s : State) : Result := .next (complete .ok (statusWord s) s)

/-- ST_CLR: the sticky bits are cleared before the command completes (44_status.md R212; 60_exceptions.md R224). -/
def execStClr (s : State) : Result := .next (complete .ok 0 (setSticky 0 s))

end Sys2Proof.Machine
end

