-- ==== Sys2Proof/Machine/TreeBuild.lean ====
section
/-! DEFINITION. The frequency table and the tree builder: FREQ_WR, FREQ_RD, TREE_BUILD, TREE_CLEAR (41_tree_build.md). -/

namespace Sys2Proof.Machine

/-! ### Frequency table -/

/-- FREQ_WR (41_tree_build.md R134). -/
def execFreqWr (sym : Byte) (data : Word) (s : State) : Result := .next (complete .ok 0 (setFreq sym data s))

/-- FREQ_RD (41_tree_build.md R136). -/
def execFreqRd (sym : Byte) (s : State) : Result := .next (complete .ok (freqAt sym s) s)

/-! ### The queue

An element of the queue Q carries, beside the node's index, the weight and the symbol that the order reads; TREE_BUILD
never changes them once a node is made (41_tree_build.md R140): DEDUCED (notes/assumptions/10.md). -/

/-- An element of the queue Q of TREE_BUILD. -/
structure QueueNode where
  ix     : NodeIx
  weight : Weight
  symbol : Byte
  deriving DecidableEq, Repr

/-- `a` is extracted before `b`: the lower weight first, and among equal weights the greater symbol first, both compared
as unsigned numbers (41_tree_build.md R131, R147). -/
def comesBefore (a b : QueueNode) : Bool :=
  a.weight < b.weight || (a.weight == b.weight && b.symbol < a.symbol)

/-- `first(Q)` and `Q \ {first(Q)}`, for the queue `e :: q` (41_tree_build.md R131). -/
def extractFirst : QueueNode → List QueueNode → QueueNode × List QueueNode
  | e, [] => (e, [])
  | e, x :: q =>
    if comesBefore x e then
      let (m, rest) := extractFirst x q
      (m, e :: rest)
    else
      let (m, rest) := extractFirst e q
      (m, x :: rest)

/-! ### TREE_BUILD -/

/-- The queue element of the entry `w` of the symbol with number `i`, where `w` is nonzero (41_tree_build.md R140). -/
def leafEntry (w : Word) (i : Nat) : Option QueueNode :=
  if w = 0 then none else some ⟨leafIx (symOfNat i), leafWeight w, symOfNat i⟩

/-- The queue of all leaves, in ascending order of symbol (41_tree_build.md R140). -/
def leafQueue (freq : FreqTable) : List QueueNode := freq.toList.zipIdx.filterMap fun e => leafEntry e.1 e.2

/-- The leaf as TREE_BUILD first writes it (41_tree_build.md R140). -/
def leafNode (e : QueueNode) : Node :=
  { weight := e.weight, symbol := e.symbol, child0 := none, child1 := none, parent := none }

/-- `NODE[p] <- n`. -/
def writeNode (p : NodeIx) (n : Node) (nodes : Arena) : Arena := nodes.set p.val (some n) p.isLt

/-- The arena after the leaves of a queue are written; every other entry is as before (41_tree_build.md R140). -/
def writeLeaves (q : List QueueNode) (nodes : Arena) : Arena := q.foldl (fun ns e => writeNode e.ix (leafNode e) ns) nodes

/-- LEAF after the leaves of a queue are written: the leaf's index for a symbol of the queue, NONE for every other
(41_tree_build.md R140; 10_state.md R32). -/
def leafTable (q : List QueueNode) : Vector (Option NodeIx) 256 :=
  q.foldl (fun t e => t.set (symIx e.symbol).val (some e.ix) (symIx e.symbol).isLt) (Vector.replicate 256 none)

/-- `NODE[i].parent <- p`. -/
def setParent (i p : NodeIx) (nodes : Arena) : Arena :=
  nodes.set i.val ((nodeAt nodes i).map fun n => { n with parent := some p }) i.isLt

/-- The queue element of the node that merges `a` and `b`: the weights' sum and the first-extracted symbol
(41_tree_build.md R143). -/
def mergedEntry (k : Nat) (a b : QueueNode) : QueueNode := ⟨mergeIx k, a.weight + b.weight, a.symbol⟩

/-- The internal node that merges `a` and `b`: the first-extracted is child0, the second child1 (41_tree_build.md R143). -/
def mergedNode (a b : QueueNode) : Node :=
  { weight := a.weight + b.weight, symbol := a.symbol, child0 := some a.ix, child1 := some b.ix, parent := none }

/-- The arena after merge `k` of `a` and `b` (41_tree_build.md R140). -/
def mergeNodes (k : Nat) (a b : QueueNode) (nodes : Arena) : Arena :=
  setParent b.ix (mergeIx k) (setParent a.ix (mergeIx k) (writeNode (mergeIx k) (mergedNode a b) nodes))

/-- The merge loop: while the queue holds two elements, merge the first two extracted. `fuel` bounds the merges; the queue
loses one element a merge, so its length is enough (41_tree_build.md R140, R144). -/
def mergeLoop : (fuel k : Nat) → Arena → List QueueNode → Arena × List QueueNode
  | fuel + 1, k, nodes, e :: x :: q =>
    let (a, q1) := extractFirst e (x :: q)
    match q1 with
    | [] => (nodes, [a])
    | e1 :: q1 =>
      let (b, q2) := extractFirst e1 q1
      mergeLoop fuel (k + 1) (mergeNodes k a b nodes) (mergedEntry k a b :: q2)
  | _, _, nodes, q => (nodes, q)

/-- The arena and the queue after the merge loop (41_tree_build.md R140). -/
def mergedLeaves (q : List QueueNode) (nodes : Arena) : Arena × List QueueNode :=
  mergeLoop q.length 0 (writeLeaves q nodes) q

/-- The tree TREE_BUILD makes from a table, over what the arena held before: ROOT is the one element left in the queue, or
NONE (41_tree_build.md R140). -/
def builtTree (freq : FreqTable) (nodes : Arena) : Tree where
  built := true
  root  := (mergedLeaves (leafQueue freq) nodes).2.head?.map QueueNode.ix
  leaf  := leafTable (leafQueue freq)
  nodes := (mergedLeaves (leafQueue freq) nodes).1

/-- The leaf count L (41_tree_build.md R140). -/
def leafCount (freq : FreqTable) : Nat := (leafQueue freq).length

/-- The lowest index whose entry has bit 31 set, if there is one (41_tree_build.md R141). -/
def firstNegative (freq : FreqTable) : Option Nat := freq.toList.findIdx? isNegative

/-- TREE_BUILD (41_tree_build.md R140, R141, R142); REBUILD is checked before BAD_FREQ (60_exceptions.md R227). -/
def execTreeBuild (s : State) : Result :=
  if s.tree.built then .next (raise .rebuild 0 s)
  else
    match firstNegative s.freq with
    | some i => .next (raise .badFreq (natResult i) s)
    | none => .next (complete .ok (natResult (leafCount s.freq)) (setTree (builtTree s.freq s.tree.nodes) s))

/-! ### TREE_CLEAR -/

/-- TREE_CLEAR (41_tree_build.md R150). -/
def execTreeClear (s : State) : Result := .next (complete .ok 0 (setTree Tree.empty s))

end Sys2Proof.Machine
end

