-- ==== Sys2Proof/Machine/Dispatch.lean ====
section
/-! DEFINITION. The meaning of every command: one arm per constructor of Instr (30_encoding.md R83). -/

namespace Sys2Proof.Machine

def exec (i : Instr) (s : State) : Host.Outcome State Fault Refusal :=
  match i with
  | .brReadbit => Sys2Proof.Machine.execBrReadbit s
  | .brReset => Sys2Proof.Machine.execBrReset s
  | .bwWritebit data => Sys2Proof.Machine.execBwWritebit data s
  | .bwFlush => Sys2Proof.Machine.execBwFlush s
  | .bwReset => Sys2Proof.Machine.execBwReset s
  | .freqWr sym data => Sys2Proof.Machine.execFreqWr sym data s
  | .freqRd sym => Sys2Proof.Machine.execFreqRd sym s
  | .treeBuild => Sys2Proof.Machine.execTreeBuild s
  | .treeClear => Sys2Proof.Machine.execTreeClear s
  | .encSym sym => Sys2Proof.Machine.execEncSym sym s
  | .decSym => Sys2Proof.Machine.execDecSym s
  | .stRd => Sys2Proof.Machine.execStRd s
  | .stClr => Sys2Proof.Machine.execStClr s

end Sys2Proof.Machine
end

