-- ==== Sys2Proof/Machine/Step.lean ====
section
/-! DEFINITION. One step: one command of the host, or a reset, or nothing where the block idles or waits (00_scope.md R14). -/

namespace Sys2Proof.Machine

/-- What a command word does (30_encoding.md R87). -/
def runWord (w : CmdWord) (s : State) : Result :=
  match decode w with
  | .error _ => .next (illegalCommand s)
  | .ok i => exec i s

/-- One step of the block. -/
def step (s : State) : Host.Outcome State Fault Refusal :=
  match nextActivity s with
  | .resets t => .next (resetBlock t)
  | .waits => .next s
  | .idles => .next s
  | .takes w t => runWord w t
  | .takesThenResets w t =>
    match runWord w t with
    | .next u => .next (abandoned t u)
    | .fault f => .fault f
    | .refused r => .refused r

/-- The state with one command word placed so that the next step takes it. The block fetches nothing (10_state.md R21):
the word stands first on the host's command channel. -/
def State.withFetchWord (s : State) (nbits w : Nat) : State := placeCommand (tableWord nbits w) s

end Sys2Proof.Machine
end

