-- ==== Sys2Proof/Machine/HostSide.lean ====
section
/-! DEFINITION. What the spec asks of the host around the block: the container's header and payload (20_memory.md R62,
R63, R64), the pseudo-instructions (30_encoding.md R90) and the command sequences of compression and decompression
(70_reset_and_hazards.md R254, R255). The block itself never reads or writes the header (00_scope.md R7), and no command's
meaning uses a definition of this file (notes/assumptions/18.md). -/

namespace Sys2Proof.Machine

/-! ### Container file -/

/-- The four bytes of a header entry, least significant first (20_memory.md R62). -/
def entryBytes (w : Word) : List Byte :=
  [w.extractLsb' 0 8, w.extractLsb' 8 8, w.extractLsb' 16 8, w.extractLsb' 24 8]

/-- The header entry in four file bytes: `{byte[4s+3], byte[4s+2], byte[4s+1], byte[4s]}` (20_memory.md R62). -/
def entryOf (b0 b1 b2 b3 : Byte) : Word := b3 ++ b2 ++ b1 ++ b0

/-- The header: the 256 entries in ascending order of symbol (20_memory.md R62). -/
def headerOf (freq : FreqTable) : List Byte := freq.toList.flatMap entryBytes

/-- The entries in header bytes; bytes short of a whole entry at the end make none (20_memory.md R62). -/
def entriesIn : List Byte → List Word
  | b0 :: b1 :: b2 :: b3 :: bs => entryOf b0 b1 b2 b3 :: entriesIn bs
  | _ => []

/-- The container file: header, then payload, which starts at byte 1024 (20_memory.md R62, R63). -/
def containerFile (freq : FreqTable) (payload : List Byte) : List Byte := headerOf freq ++ payload

/-- The payload of a container file (20_memory.md R63). -/
def payloadOf (file : List Byte) : List Byte := file.drop Config.headerBytes

/-- The number of symbols of a payload, the sum of the header's entries (20_memory.md R64; 41_tree_build.md R148). -/
def symbolCount (freq : FreqTable) : Nat := (freq.toList.map BitVec.toNat).sum

/-! ### Pseudo-instructions (30_encoding.md R90) -/

/-- `FREQ_LOAD t0, ..., t255`: `FREQ_WR s, ts` in ascending order of s. -/
def freqLoad (freq : FreqTable) : List Instr := freq.toList.zipIdx.map fun e => .freqWr (BitVec.ofNat 8 e.2) e.1

/-- `FREQ_ZERO`: `FREQ_WR s, 0` in ascending order of s. -/
def freqZero : List Instr := freqLoad (Vector.replicate 256 0)

/-- `ENC_STR "text"`: `ENC_SYM c` for each byte of the text, in order. -/
def encStr (text : List Byte) : List Instr := text.map .encSym

/-- `DEC_N n`: n copies of `DEC_SYM`. -/
def decN (n : Nat) : List Instr := List.replicate n .decSym

/-- `BW_PUTBITS "b0b1..."`: `BW_WRITEBIT bi` for each bit, in order. -/
def bwPutbits (bits : List Bool) : List Instr := bits.map fun v => .bwWritebit (if v then 1 else 0)

/-! ### Host sequences -/

/-- A list of commands as the host issues it. -/
def issue (cmds : List Instr) : List HostEvent := cmds.map fun i => .command (encode i)

/-- The frequency table of an input, counted by the host (70_reset_and_hazards.md R254 step 2; 00_scope.md R7). -/
def countTable (input : List Byte) : FreqTable := Vector.ofFn fun s => BitVec.ofNat 32 (input.count (BitVec.ofNat 8 s.val))

/-- The compression sequence: reset, load all 256 entries, build, encode every byte in order, flush (R254). -/
def compression (input : List Byte) : List HostEvent :=
  .reset :: issue (freqLoad (countTable input) ++ [.treeBuild] ++ encStr input ++ [.bwFlush])

/-- The decompression sequence: reset, load all 256 entries of the header, build, decode as many symbols as the entries
sum to (R255). -/
def decompression (freq : FreqTable) : List HostEvent :=
  .reset :: issue (freqLoad freq ++ [.treeBuild] ++ decN (symbolCount freq))

end Sys2Proof.Machine
end

