-- ==== Sys2Proof/Machine/Assembler.lean ====
section
/-! DEFINITION. The assembler syntax (30_encoding.md R89) and the pseudo-instructions in it (R90): one command per line.
Text is a list of characters. Points R89 leaves open are each a DESIGN CHOICE, in notes/assumptions/17.md,
and those R90 leaves open in notes/assumptions/21.md. -/

namespace Sys2Proof.Machine

/-- The mnemonic of an operation (30_encoding.md R83). -/
def mnemonicOf : Op → String
  | .brReadbit => "BR_READBIT"
  | .brReset => "BR_RESET"
  | .bwWritebit => "BW_WRITEBIT"
  | .bwFlush => "BW_FLUSH"
  | .bwReset => "BW_RESET"
  | .freqWr => "FREQ_WR"
  | .freqRd => "FREQ_RD"
  | .treeBuild => "TREE_BUILD"
  | .treeClear => "TREE_CLEAR"
  | .encSym => "ENC_SYM"
  | .decSym => "DEC_SYM"
  | .stRd => "ST_RD"
  | .stClr => "ST_CLR"

/-- A piece of a line. -/
inductive Token where
  | name (cs : List Char)
  /-- A decimal or `0x` number. -/
  | number (n : Nat)
  /-- A negative decimal literal `-n`. -/
  | negative (n : Nat)
  /-- A character literal. -/
  | letter (b : Byte)
  /-- A text in double quotes. -/
  | text (bs : List Byte)
  | comma
  deriving DecidableEq, Repr

/-- The byte value of a character, where it has one. -/
def byteOf (c : Char) : Option Byte := if c.toNat < 256 then some (BitVec.ofNat 8 c.toNat) else none

/-- The value of a hexadecimal digit, in either case: DESIGN CHOICE (notes/assumptions/17.md). -/
def hexDigit (c : Char) : Option Nat :=
  if c.isDigit then some (c.toNat - 48)
  else if 97 ≤ c.toNat ∧ c.toNat ≤ 102 then some (c.toNat - 87)
  else if 65 ≤ c.toNat ∧ c.toNat ≤ 70 then some (c.toNat - 55)
  else none

/-- A character that may stand in a name or a number. -/
def isWordChar (c : Char) : Bool := c.isAlphanum || c.toNat == 95

/-- The number that digits of a base write, the most significant first; `acc` is the value of the digits before. -/
def digitsValue (base acc : Nat) : List Char → Option Nat
  | [] => some acc
  | c :: cs =>
    match hexDigit c with
    | none => none
    | some d => if d < base then digitsValue base (base * acc + d) cs else none

/-- The number a word writes: `0x` and at least one hexadecimal digit, or decimal digits (30_encoding.md R89). That the `x`
is in lower case only, and that leading zeros may stand, is a DESIGN CHOICE (notes/assumptions/17.md). -/
def wordNumber : List Char → Option Nat
  | '0' :: 'x' :: c :: cs => digitsValue 16 0 (c :: cs)
  | cs => digitsValue 10 0 cs

/-- The token of a word: a number where it begins with a digit, else a name. -/
def wordToken (cs : List Char) : Option Token :=
  match cs with
  | [] => none
  | c :: _ => if c.isDigit then (wordNumber cs).map .number else some (.name cs)

/-- The tokens of a line; none where the line has no reading. A comment starts with a semicolon (30_encoding.md R89).
DESIGN CHOICE (notes/assumptions/17.md): no blank is required between two tokens, so `FREQ_WR'A',10` and `BW_WRITEBIT-1`
have a reading, and the digits of a negative literal stand right after its `-`.
`fuel` bounds the tokens; a line has at most as many as characters. -/
def lexLine : (fuel : Nat) → List Char → Option (List Token)
  | 0, cs => if cs.isEmpty then some [] else none
  | fuel + 1, cs =>
    match cs with
    | [] => some []
    | c :: rest =>
      if c.toNat = 59 then some []
      else if c.isWhitespace then lexLine fuel rest
      else if c.toNat = 44 then (lexLine fuel rest).map (.comma :: ·)
      else if c.toNat = 39 then
        match rest with
        | b :: q :: rest =>
          if q.toNat = 39 then (byteOf b).bind fun v => (lexLine fuel rest).map (.letter v :: ·) else none
        | _ => none
      else if c.toNat = 34 then
        let body := rest.takeWhile fun d => d.toNat != 34
        match rest.drop body.length with
        | [] => none
        | _ :: rest => (body.mapM byteOf).bind fun bs => (lexLine fuel rest).map (.text bs :: ·)
      else if c.toNat = 45 then
        let body := rest.takeWhile isWordChar
        if body.isEmpty then none
        else (digitsValue 10 0 body).bind fun n => (lexLine fuel (rest.drop body.length)).map (.negative n :: ·)
      else if isWordChar c then
        let body := cs.takeWhile isWordChar
        (wordToken body).bind fun t => (lexLine fuel (cs.drop body.length)).map (t :: ·)
      else none

/-- A `sym` operand: a number 0..255 or a character literal (30_encoding.md R89). -/
def symOperand : Token → Option Byte
  | .number n => if n < 256 then some (BitVec.ofNat 8 n) else none
  | .letter b => some b
  | .name _ => none
  | .negative _ => none
  | .text _ => none
  | .comma => none

/-- A `data` operand: a number 0..2^32 - 1, or `-n` for `2^32 - n` (30_encoding.md R89). -/
def dataOperand : Token → Option Word
  | .number n => if n < 2 ^ 32 then some (BitVec.ofNat 32 n) else none
  | .negative n => if 1 ≤ n ∧ n ≤ 2 ^ 32 then some (BitVec.ofNat 32 (2 ^ 32 - n)) else none
  | .letter _ => none
  | .name _ => none
  | .text _ => none
  | .comma => none

/-- A list of `data` operands separated by commas. -/
def dataList : List Token → Option (List Word)
  | [t] => (dataOperand t).map fun w => [w]
  | t :: .comma :: ts => (dataOperand t).bind fun w => (dataList ts).map (w :: ·)
  | _ => none

/-- The command of a row with the operands its format takes (30_encoding.md R89). -/
def rowCommand (r : Row) (args : List Token) : Option Instr :=
  match r.format, args with
  | .n, [] => some (commandOf r.op 0 0)
  | .s, [t] => (symOperand t).map fun sym => commandOf r.op sym 0
  | .d, [t] => (dataOperand t).map fun data => commandOf r.op 0 data
  | .sd, [t, .comma, u] => (symOperand t).bind fun sym => (dataOperand u).map fun data => commandOf r.op sym data
  | _, _ => none

/-- The bit a character of BW_PUTBITS stands for (30_encoding.md R90). -/
def bitOf (b : Byte) : Option Bool := if b = 48 then some false else if b = 49 then some true else none

/-- The expansion of a pseudo-instruction (30_encoding.md R90). DESIGN CHOICE (notes/assumptions/21.md): DEC_N takes any
decimal or `0x` number, 0 included and unbounded; an operand of FREQ_LOAD has any form of a `data` operand; the quoted text
of ENC_STR and BW_PUTBITS may be empty and has no escapes. -/
def pseudoCommands (name : String) (args : List Token) : Option (List Instr) :=
  if name = "FREQ_ZERO" then if args.isEmpty then some freqZero else none
  else if name = "FREQ_LOAD" then
    (dataList args).bind fun ws => if h : ws.length = 256 then some (freqLoad ⟨ws.toArray, by simp [h]⟩) else none
  else if name = "ENC_STR" then
    match args with
    | [.text bs] => some (encStr bs)
    | _ => none
  else if name = "DEC_N" then
    match args with
    | [.number n] => some (decN n)
    | _ => none
  else if name = "BW_PUTBITS" then
    match args with
    | [.text bs] => (bs.mapM bitOf).map bwPutbits
    | _ => none
  else none

/-- The commands of one line of tokens. -/
def lineCommands : List Token → Option (List Instr)
  | [] => some []
  | .name cs :: args =>
    match opcodeMap.find? fun r => mnemonicOf r.op == String.ofList cs with
    | some r => (rowCommand r args).map fun i => [i]
    | none => pseudoCommands (String.ofList cs) args
  | _ => none

/-- The lines of a text, ended by the character 10: DESIGN CHOICE (notes/assumptions/17.md). -/
def linesOf : List Char → List (List Char)
  | [] => [[]]
  | c :: cs =>
    if c.toNat = 10 then [] :: linesOf cs
    else
      match linesOf cs with
      | [] => [[c]]
      | l :: ls => (c :: l) :: ls

/-- The commands of an assembler text, in order; none where a line has no reading (30_encoding.md R89). -/
def assemble (text : List Char) : Option (List Instr) :=
  ((linesOf text).mapM fun l => (lexLine (l.length + 1) l).bind lineCommands).map List.flatten

end Sys2Proof.Machine
end

