-- ==== Sys2Proof/Safety.lean ====
section
/-! DEFINITION. The terms claims are stated in: the invariant of the state, the tree rules of 10_state.md R34, runs of
commands, and bit sequences. No meaning uses a definition of this file. -/

namespace Sys2Proof.Machine

/-- No command has completed with an error since the last ST_CLR or reset: the premise of a claim about a run
(10_state.md R38; 60_exceptions.md R231). -/
def noErrorRecorded (s : State) : Bool := s.sticky == 0

/-- Every state element of 10_state.md R22 is at its reset value, and no command is in progress (70_reset_and_hazards.md
R250). -/
structure HoldsResetValues (s : State) : Prop where
  reader  : s.br = ⟨0x00, 8, false⟩
  writer  : s.bw = ⟨0x00, 0⟩
  freq    : ∀ sym, freqAt sym s = 0
  built   : s.tree.built = false
  root    : s.tree.root = none
  leaf    : ∀ sym, leafAt sym s = none
  nodes   : ∀ i, nodeAt s.tree.nodes i = none
  sticky  : s.sticky = 0
  waiting : s.waiting = none

/-! ### The invariant -/

/-- Every bit of the writer's cache that is not placed yet is zero (10_state.md R26). -/
def WriterOk (w : Writer) : Prop := ∀ i, w.pos.val ≤ i → i < 8 → bitAt w.byte i = false

/-- The end-of-stream latch is set only with the cache exhausted (40_bit_io.md R101). -/
def ReaderOk (r : Reader) : Prop := r.eos = true → r.pos.val = 8

/-- The number of leaves of a tree. -/
def leavesOf (t : Tree) : Nat := t.leaf.toList.countP Option.isSome

/-- What TREE_BUILD leaves (10_state.md R31, R32, R34; 41_tree_build.md R144, R147). -/
structure BuiltOk (t : Tree) : Prop where
  /-- LEAF[sym] is the symbol's own index, which holds a leaf with that symbol and a weight from 1 to 2^31 - 1. -/
  leaf_some : ∀ sym n, t.leaf[(symIx sym).val]'(symIx sym).isLt = some n →
    n = leafIx sym ∧ ∃ nd, nodeAt t.nodes n = some nd ∧ nd.symbol = sym ∧ nd.child0 = none ∧ nd.child1 = none ∧
      0 < nd.weight.toNat ∧ nd.weight.toNat < 2 ^ 31
  /-- An absent symbol's entry of the arena holds no value. -/
  leaf_none : ∀ sym, t.leaf[(symIx sym).val]'(symIx sym).isLt = none → nodeAt t.nodes (leafIx sym) = none
  /-- The internal entries that hold a value are 256 .. 256 + L - 2. -/
  inner_used : ∀ p : NodeIx, 256 ≤ p.val → ((nodeAt t.nodes p).isSome = true ↔ p.val + 1 < 256 + leavesOf t)
  /-- An internal node has two children made before it, whose parent it is; its weight is their weights' exact sum and
  its symbol is the first child's. -/
  inner : ∀ (p : NodeIx) nd, 256 ≤ p.val → nodeAt t.nodes p = some nd →
    ∃ a b na nb, nd.child0 = some a ∧ nd.child1 = some b ∧ a ≠ b ∧ a.val < p.val ∧ b.val < p.val ∧
      nodeAt t.nodes a = some na ∧ nodeAt t.nodes b = some nb ∧ na.parent = some p ∧ nb.parent = some p ∧
      nd.weight.toNat = na.weight.toNat + nb.weight.toNat ∧ nd.symbol = na.symbol
  /-- A parent reference leads to an internal node made later that has the node as a child. -/
  up : ∀ n nd p, nodeAt t.nodes n = some nd → nd.parent = some p →
    256 ≤ p.val ∧ n.val < p.val ∧ ∃ np, nodeAt t.nodes p = some np ∧ (np.child0 = some n ∨ np.child1 = some n)
  /-- The root, and no other node, has no parent. -/
  top : ∀ n nd, nodeAt t.nodes n = some nd → (nd.parent = none ↔ t.root = some n)
  /-- The root's entry holds a value. -/
  root_present : ∀ r, t.root = some r → (nodeAt t.nodes r).isSome = true

/-- The tree is unbuilt and empty, or as TREE_BUILD leaves it (10_state.md R41, R42). -/
def TreeOk (t : Tree) : Prop := if t.built then BuiltOk t else t = Tree.empty

/-- The invariant of the state, which every step keeps. -/
structure BlockInv (s : State) : Prop where
  reader : ReaderOk s.br
  writer : WriterOk s.bw
  tree   : TreeOk s.tree

/-! ### Paths in a tree -/

/-- The node a bit sequence leads to from node `n`, child0 for 0 and child1 for 1; none where it leads nowhere. -/
def descend (nodes : Arena) : NodeIx → List Bool → Option NodeIx
  | n, [] => (nodeAt nodes n).map fun _ => n
  | n, v :: c =>
    match nodeAt nodes n with
    | none => none
    | some nd =>
      match childOf nd v with
      | none => none
      | some m => descend nodes m c

/-- The entry holds a leaf: neither child is present (10_state.md R30). -/
def IsLeafAt (nodes : Arena) (n : NodeIx) : Prop := ∃ nd, nodeAt nodes n = some nd ∧ nd.child0 = none ∧ nd.child1 = none

/-- The entry holds an internal node with these children: both are present (10_state.md R30). -/
def IsInnerAt (nodes : Arena) (p : NodeIx) (nd : Node) (a b : NodeIx) : Prop :=
  nodeAt nodes p = some nd ∧ nd.child0 = some a ∧ nd.child1 = some b

/-- The five tree invariants of 10_state.md R34, letter by letter. -/
structure TreeRules (t : Tree) : Prop where
  /-- (a) Every leaf reference is a leaf, reachable from the root by exactly one downward path. -/
  leaf_reached : ∀ sym n, t.leaf[(symIx sym).val]'(symIx sym).isLt = some n →
    IsLeafAt t.nodes n ∧ ∃ r, t.root = some r ∧ ∃! c, descend t.nodes r c = some n
  /-- (b) Both children of an internal node have it as their parent. -/
  children_point_back : ∀ p nd a b, IsInnerAt t.nodes p nd a b →
    ∃ na nb, nodeAt t.nodes a = some na ∧ nodeAt t.nodes b = some nb ∧ na.parent = some p ∧ nb.parent = some p
  /-- (c) The root has no parent. -/
  root_has_no_parent : ∀ r, t.root = some r → ∃ nd, nodeAt t.nodes r = some nd ∧ nd.parent = none
  /-- (d) An internal node's weight is the sum of its children's weights. -/
  weight_is_sum : ∀ p nd a b, IsInnerAt t.nodes p nd a b →
    ∃ na nb, nodeAt t.nodes a = some na ∧ nodeAt t.nodes b = some nb ∧
      nd.weight.toNat = na.weight.toNat + nb.weight.toNat
  /-- (e) The nodes reachable from the root are the leaves LEAF refers to and the internal nodes made by the build,
  which are the entries from 256 on that hold a value. -/
  reached_iff : ∀ n, (∃ r c, t.root = some r ∧ descend t.nodes r c = some n) ↔
    (∃ sym, t.leaf[(symIx sym).val]'(symIx sym).isLt = some n) ∨ (256 ≤ n.val ∧ (nodeAt t.nodes n).isSome = true)

/-! ### The order of a build -/

/-- Node `a` is extracted before node `b`: the lower weight first, and among equal weights the greater symbol first
(41_tree_build.md R131). -/
def NodeBefore (a b : Node) : Prop :=
  a.weight.toNat < b.weight.toNat ∨ (a.weight.toNat = b.weight.toNat ∧ b.symbol.toNat < a.symbol.toNat)

/-- In a built arena, entry `n` holds a node that was in the queue when merge `k`, counted from 0, began: made before that
merge, and extracted by none before it (41_tree_build.md R140). -/
def InQueueAt (nodes : Arena) (k : Nat) (n : NodeIx) (nd : Node) : Prop :=
  nodeAt nodes n = some nd ∧ n.val < 256 + k ∧ ∀ p, nd.parent = some p → 256 + k ≤ p.val

/-- In a built arena, merge `k` made entry 256 + k of the first two nodes of the queue: the first is child0, the second
child1, both have it as their parent, their exact weights add up to its weight, and it has the first one's symbol
(41_tree_build.md R131, R140, R143). -/
def MergedInOrder (nodes : Arena) (k : Nat) : Prop :=
  ∃ (p a b : NodeIx) (np na nb : Node), p.val = 256 + k ∧ IsInnerAt nodes p np a b ∧ a ≠ b ∧
    InQueueAt nodes k a na ∧ InQueueAt nodes k b nb ∧ na.parent = some p ∧ nb.parent = some p ∧
    np.weight.toNat = na.weight.toNat + nb.weight.toNat ∧ np.symbol = na.symbol ∧ NodeBefore na nb ∧
    ∀ n nd, InQueueAt nodes k n nd → n ≠ a → n ≠ b → NodeBefore nb nd

/-! ### Bit sequences -/

/-- A stream's answers that leave the next transaction unanswered, `rest` being what remains of them
(60_exceptions.md R233; notes/assumptions/2.md). -/
def Unanswered {α : Type} (answers rest : List (Option α)) : Prop :=
  (answers = [] ∧ rest = []) ∨ answers = none :: rest

/-- The bits of a byte, the most significant first (00_scope.md R11). -/
def byteBits (b : Byte) : List Bool := (List.range 8).map (bitAt b)

/-- The bits of a byte sequence, in stream order (20_memory.md R53). -/
def bitsOf (bs : List Byte) : List Bool := bs.flatMap byteBits

/-- The answers of a source that delivers these bytes. -/
def dataAnswers (bs : List Byte) : List (Option SrcAnswer) := bs.map fun b => some (.data b)

/-- A sink that answers `n` transactions with OK. -/
def okAnswers (n : Nat) : List (Option SnkAnswer) := List.replicate n (some .ok)

/-- The results of `n` bit reads, and the state after them. -/
def readMany : Nat → State → List ReadResult × State
  | 0, s => ([], s)
  | n + 1, s => ((readBitCore s).1 :: (readMany n (readBitCore s).2).1, (readMany n (readBitCore s).2).2)

/-- The writes of a bit sequence, up to the first that is not accepted. -/
def writeMany : List Bool → State → WriteResult × State
  | [], s => (.ok, s)
  | v :: vs, s =>
    match writeBitCore v s with
    | (.ok, t) => writeMany vs t
    | (r, t) => (r, t)

/-- The bits accepted and still in the writer's cache. -/
def cachedBits (w : Writer) : List Bool := (byteBits w.byte).take w.pos.val

/-! ### Runs of commands -/

/-- The commands of a list one after the other, up to the first that does not give a next state. -/
def execAll : List Instr → State → Result
  | [], s => .next s
  | i :: is, s =>
    match exec i s with
    | .next t => execAll is t
    | .fault f => .fault f
    | .refused r => .refused r

/-- The bytes a run put at the sink, from the state before it and the state after it. -/
def newSinkBytes (s t : State) : List Byte := (sinkBytes t).drop (sinkBytes s).length

/-- The responses a run gave, from the state before it and the state after it. -/
def newResponses (s t : State) : List Response := t.responses.drop s.responses.length

end Sys2Proof.Machine
end

