-- ==== Sys2Proof/Certificates/Slice0/Obligations.lean ====
section
/-! DEFINITION. The statements about HUFF-CORE for the provers, in the order of the spec's files.

A statement of a command's effect gives the whole next state as `{ s with … }`, so it says at once what the command
changes and that it changes nothing else. `host`, `src`, `snk`, `trace`, `responses` and `waiting` are the model's own
form of the ports (notes/assumptions/1.md to 4.md); a clause about them rests on those entries. -/

open Sys2Proof Sys2Proof.Machine

/-! ### Encoding (30_encoding.md) -/

/-- Decoding an encoded command gives it back, every operand at every value (R80, R81, R82, R83, R87). -/
def Obligations.DecodeOfEncodeGivesTheCommand : Prop := ∀ i : Instr, decode (encode i) = .ok i

/-- A word that decodes is the encoding of its command: each command has one word (R80, R81, R84, R85). -/
def Obligations.EncodeOfDecodedGivesTheWord : Prop := ∀ (w : CmdWord) (i : Instr), decode w = .ok i → encode i = w

/-- The example words of R89, and one word of every format, decode to the commands they stand for. -/
def Obligations.SpecWordsDecodeToTheirCommands : Prop :=
  decode 0x100041000000000A = .ok (.freqWr 0x41 10) ∧
  decode 0x2000410000000000 = .ok (.encSym 0x41) ∧
  decode 0x0800000000000001 = .ok (.bwWritebit 1) ∧
  decode 0x2800000000000000 = .ok .decSym ∧
  decode 0x1100410000000000 = .ok (.freqRd 0x41) ∧
  decode 0x0100000000000000 = .ok .brReadbit ∧
  decode 0x3100000000000000 = .ok .stClr

/-- R84: the masks, the match word, and that no word matches two rows. -/
def Obligations.NoWordMatchesTwoRows : Prop :=
  (maskOf .n = 0xFFFFFFFFFFFFFFFF ∧ maskOf .s = 0xFFFF00FFFFFFFFFF ∧ maskOf .d = 0xFFFFFFFF00000000 ∧
    maskOf .sd = 0xFFFF00FF00000000) ∧
  (∀ r ∈ opcodeMap, matchOf r = r.opc.setWidth 64 <<< 56) ∧
  (∀ (w : CmdWord) (r : Row), selects w r = true ↔ w &&& maskOf r.format = matchOf r) ∧
  ∀ (w : CmdWord) (r1 r2 : Row), r1 ∈ opcodeMap → r2 ∈ opcodeMap → selects w r1 = true → selects w r2 = true → r1 = r2

/-- R85: a word whose OPC is in no row, or whose row's RSV1, RSV2 or must-be-zero SYM or DATA field is nonzero, completes
with ILLEGAL_CMD and result 0, reads no stream and changes nothing else than STICKY[8]; the all-zero word is such a word. -/
def Obligations.IllegalWordSetsOnlySticky8 : Prop :=
  (∀ (s : State) (w : CmdWord) (rest : List HostEvent), s.waiting = none → s.host = .command w :: rest →
    (∀ r ∈ opcodeMap, r.opc = (fieldsOf w).opc → (fieldsOf w).wellFormed r.format = false) →
    step s = .next { s with
      host := rest
      sticky := s.sticky ||| 0x80
      responses := s.responses ++ [⟨.illegalCmd, 0⟩] }) ∧
  ∀ r ∈ opcodeMap, r.opc ≠ (fieldsOf 0).opc

/-- R87, R14, R21: where the block waits on no stream and the host's next input is a word that decodes to `i`, a step is
`exec i` on the state with that input taken; nothing else is added around it, for there is no program counter. -/
def Obligations.StepRunsTheDecodedCommand : Prop :=
  ∀ (s : State) (w : CmdWord) (rest : List HostEvent) (i : Instr), s.waiting = none → s.host = .command w :: rest →
    decode w = .ok i → step s = exec i { s with host := rest }

/-! ### Reset, waiting and idling (10_state.md, 60_exceptions.md, 70_reset_and_hazards.md) -/

/-- R22: the reset value of every state element, and the reset value of STATUS, `0x00000080` (R36). -/
def Obligations.ResetStateHoldsTheResetValues : Prop :=
  State.reset.br = ⟨0x00, 8, false⟩ ∧ State.reset.bw = ⟨0x00, 0⟩ ∧ (∀ sym, freqAt sym State.reset = 0x00000000) ∧
  State.reset.tree.built = false ∧ State.reset.tree.root = none ∧ (∀ sym, leafAt sym State.reset = none) ∧
  (∀ i, nodeAt State.reset.tree.nodes i = none) ∧ (∀ c, 1 ≤ c → c ≤ 8 → stickyBit State.reset c = false) ∧
  statusWord State.reset = 0x00000080

/-- R250, R251: reset sets every element to its reset value, gives no response, makes no transaction and undoes none; the
block then waits for its first command, which is an idle step (notes/assumptions/5.md). Stated of a reset between commands
and while a command waits, and of a reset that cuts off a command, or an illegal word, before its response: the transactions
already completed stay made. The rest is the model's choice: that these are the places where a reset lands, and that a
transaction cut off before its answer counts as not made (11.md); that the coming inputs and answers and the two records
stay as they are (16.md); and the form of the ports (1.md, 2.md, 4.md). -/
def Obligations.ResetInputResetsTheBlock : Prop :=
  (∀ (s : State) (rest : List HostEvent), s.host = .reset :: rest →
    ∃ t, step s = .next t ∧ HoldsResetValues t ∧ t.host = rest ∧ t.src = s.src ∧ t.snk = s.snk ∧
      t.trace = s.trace ∧ t.responses = s.responses ∧ (rest = [] → step t = .next t)) ∧
  (∀ (s u : State) (w : CmdWord) (i : Instr) (rest : List HostEvent), s.waiting = none →
    s.host = .commandThenReset w :: rest → decode w = .ok i → exec i { s with host := rest } = .next u →
    ∃ t, step s = .next t ∧ HoldsResetValues t ∧ t.host = rest ∧ t.src = u.src ∧ t.snk = u.snk ∧
      t.trace = u.trace ∧ t.responses = s.responses) ∧
  ∀ (s : State) (w : CmdWord) (rest : List HostEvent), s.waiting = none → s.host = .commandThenReset w :: rest →
    (∀ i, decode w ≠ .ok i) →
    ∃ t, step s = .next t ∧ HoldsResetValues t ∧ t.host = rest ∧ t.src = s.src ∧ t.snk = s.snk ∧
      t.trace = s.trace ∧ t.responses = s.responses

/-- R233, R238: a block that waits on a stream, with no reset asserted, goes on waiting and takes no command; a block with
no command idles and keeps all its state. That such a step is a next state is the model's choice (notes/assumptions/3.md,
5.md). -/
def Obligations.WaitingAndIdleBlocksKeepTheirState : Prop :=
  ∀ s : State, s.host.head? ≠ some .reset → (s.waiting ≠ none ∨ s.host = []) → step s = .next s

/-! ### Bit reader (40_bit_io.md) -/

/-- R101, R102: BR_READBIT in each of its cases: latched end-of-stream, a cached bit, a refill answered with data, END or
IOERR. -/
def Obligations.BrReadbitEffect : Prop :=
  ∀ s : State,
    (s.br.eos = true → exec .brReadbit s = .next { s with
      sticky := s.sticky ||| 0x01
      responses := s.responses ++ [⟨.eos, 0⟩] }) ∧
    (∀ h : s.br.pos.val < 8, s.br.eos = false → exec .brReadbit s = .next { s with
      br := { s.br with pos := ⟨s.br.pos.val + 1, by omega⟩ }
      responses := s.responses ++ [⟨.ok, ((s.br.byte >>> (7 - s.br.pos.val)) &&& 1).setWidth 32⟩] }) ∧
    (∀ b rest, s.br.eos = false → s.br.pos = 8 → s.src = some (.data b) :: rest → exec .brReadbit s = .next { s with
      br := ⟨b, 1, false⟩
      src := rest
      trace := s.trace ++ [.srcRead (.data b)]
      responses := s.responses ++ [⟨.ok, ((b >>> 7) &&& 1).setWidth 32⟩] }) ∧
    (∀ rest, s.br.eos = false → s.br.pos = 8 → s.src = some .atEnd :: rest → exec .brReadbit s = .next { s with
      br := { s.br with eos := true }
      src := rest
      trace := s.trace ++ [.srcRead .atEnd]
      sticky := s.sticky ||| 0x01
      responses := s.responses ++ [⟨.eos, 0⟩] }) ∧
    (∀ rest, s.br.eos = false → s.br.pos = 8 → s.src = some .ioErr :: rest → exec .brReadbit s = .next { s with
      src := rest
      trace := s.trace ++ [.srcRead .ioErr]
      sticky := s.sticky ||| 0x08
      responses := s.responses ++ [⟨.srcIo, 0⟩] })

/-- R233, R251, R12, in the model's form (notes/assumptions/2.md, 3.md): a command whose stream transaction is never answered
gives no response and leaves that transaction outstanding; what it had done before stays. Stated of each command that can
wait: the refill of BR_READBIT, the put of BW_WRITEBIT, the put and the sync of BW_FLUSH, a put of ENC_SYM, with the bits
accepted before it kept, and a refill of DEC_SYM, with the bits read before it consumed. -/
def Obligations.UnansweredTransactionLeavesTheBlockWaiting : Prop :=
  (∀ (s : State) (rest : List (Option SrcAnswer)), s.br.eos = false → s.br.pos = 8 → Unanswered s.src rest →
    exec .brReadbit s = .next { s with src := rest, waiting := some .srcRead }) ∧
  (∀ (s : State) (rest : List (Option SnkAnswer)) (data : Word), s.bw.pos = 8 → Unanswered s.snk rest →
    exec (.bwWritebit data) s = .next { s with snk := rest, waiting := some (.snkPut s.bw.byte) }) ∧
  (∀ (s : State) (rest : List (Option SnkAnswer)), s.bw.pos ≠ 0 → Unanswered s.snk rest →
    exec .bwFlush s = .next { s with snk := rest, waiting := some (.snkPut s.bw.byte) }) ∧
  (∀ (s : State) (answers rest : List (Option SnkAnswer)), s.bw.pos ≠ 0 → s.snk = some .ok :: answers →
    Unanswered answers rest → exec .bwFlush s = .next { s with
      bw := ⟨0x00, 0⟩
      snk := rest
      trace := s.trace ++ [.snkPut s.bw.byte .ok]
      waiting := some .snkSync }) ∧
  (∀ (s : State) (sym : Byte) (n : NodeIx) (c : List Bool) (j : Nat) (answers rest : List (Option SnkAnswer)), BlockInv s →
    leafAt sym s = some n → codeOf s.tree.nodes n = .ok c → j < (s.bw.pos.val + c.length + 7) / 8 - 1 →
    s.snk = okAnswers j ++ answers → Unanswered answers rest →
    ∃ (t : State) (bs : List Byte) (k : Nat), exec (.encSym sym) s = .next t ∧
      k + s.bw.pos.val = 8 * (j + 1) ∧ k < c.length ∧ bs.length = j ∧ t.bw.pos = 8 ∧
      t = { s with
        bw := t.bw
        snk := rest
        trace := s.trace ++ bs.map fun b => .snkPut b .ok
        waiting := some (.snkPut t.bw.byte) } ∧
      bitsOf bs ++ cachedBits t.bw = cachedBits s.bw ++ c.take k) ∧
  ∀ (s : State) (r p : NodeIx) (nd : Node) (c : List Bool) (bs : List Byte) (answers rest : List (Option SrcAnswer)),
    BlockInv s → s.tree.root = some r → s.br.eos = false → (byteBits s.br.byte).drop s.br.pos.val ++ bitsOf bs = c →
    descend s.tree.nodes r c = some p → nodeAt s.tree.nodes p = some nd → nd.child0 ≠ none →
    s.src = dataAnswers bs ++ answers → Unanswered answers rest →
    ∃ t : State, exec .decSym s = .next t ∧ t.br.eos = false ∧ t.br.pos = 8 ∧
      t = { s with
        br := t.br
        src := rest
        trace := s.trace ++ bs.map fun b => .srcRead (.data b)
        waiting := some .srcRead }

/-- R103: once a read has returned EOS, every later read returns EOS and changes no state, whatever the source would
answer; and no command but BR_RESET changes the reader, or asks the source, while the latch is set. -/
def Obligations.EndOfStreamIsIdempotent : Prop :=
  (∀ (s : State) (n : Nat) (answers : List (Option SrcAnswer)), (readBitCore s).1 = .eos →
    (readBitCore s).2.br.eos = true ∧
    readMany n { (readBitCore s).2 with src := answers } =
      (List.replicate n .eos, { (readBitCore s).2 with src := answers })) ∧
  ∀ (i : Instr) (s t : State), s.br.eos = true → i ≠ .brReset → exec i s = .next t → t.br = s.br ∧ t.src = s.src

/-- R53, R52: the bits that successive reads return are the bits of the delivered bytes, each byte most significant bit
first, bytes in stream order, and a byte is asked for only when its first bit is wanted: after `n` reads the source has
been asked for `ceil(n/8)` bytes. -/
def Obligations.ReaderReturnsTheSourceBitsInOrder : Prop :=
  ∀ (s : State) (bs : List Byte) (rest : List (Option SrcAnswer)) (n : Nat),
    s.br.pos = 8 → s.br.eos = false → s.src = dataAnswers bs ++ rest → n ≤ 8 * bs.length →
    (readMany n s).1 = (((bs.flatMap fun b => (List.range 8).map fun i => b.getLsbD (7 - i)).take n).map .bit) ∧
    (readMany n s).2.src = dataAnswers (bs.drop ((n + 7) / 8)) ++ rest ∧
    (readMany n s).2.trace = s.trace ++ (bs.take ((n + 7) / 8)).map fun b => .srcRead (.data b)

/-- R105: BR_RESET empties the reader and clears the end-of-stream latch; no source transaction takes place. -/
def Obligations.BrResetEffect : Prop :=
  ∀ s : State, exec .brReset s = .next { s with
    br := ⟨0x00, 8, false⟩
    responses := s.responses ++ [⟨.ok, 0⟩] }

/-! ### Bit writer (40_bit_io.md) -/

/-- R110, R111: BW_WRITEBIT in each of its cases: room in the cache, and a full cache whose put is answered with OK or
IOERR. Only `data[0]` counts. -/
def Obligations.BwWritebitEffect : Prop :=
  ∀ (s : State) (data : Word),
    (∀ h : s.bw.pos.val < 8, exec (.bwWritebit data) s = .next { s with
      bw := ⟨s.bw.byte ||| ((data &&& 1).setWidth 8 <<< (7 - s.bw.pos.val)), ⟨s.bw.pos.val + 1, by omega⟩⟩
      responses := s.responses ++ [⟨.ok, 0⟩] }) ∧
    (∀ rest, s.bw.pos = 8 → s.snk = some .ok :: rest → exec (.bwWritebit data) s = .next { s with
      bw := ⟨(data &&& 1).setWidth 8 <<< 7, 1⟩
      snk := rest
      trace := s.trace ++ [.snkPut s.bw.byte .ok]
      responses := s.responses ++ [⟨.ok, 0⟩] }) ∧
    (∀ rest, s.bw.pos = 8 → s.snk = some .ioErr :: rest → exec (.bwWritebit data) s = .next { s with
      snk := rest
      trace := s.trace ++ [.snkPut s.bw.byte .ioErr]
      sticky := s.sticky ||| 0x10
      responses := s.responses ++ [⟨.sinkIo, 0⟩] })

/-- R113: BW_FLUSH in each of its cases: an empty cache, and a nonempty one whose put and sync are answered. -/
def Obligations.BwFlushEffect : Prop :=
  ∀ s : State,
    (s.bw.pos = 0 → exec .bwFlush s = .next { s with responses := s.responses ++ [⟨.ok, 0⟩] }) ∧
    (∀ rest, s.bw.pos ≠ 0 → s.snk = some .ioErr :: rest → exec .bwFlush s = .next { s with
      snk := rest
      trace := s.trace ++ [.snkPut s.bw.byte .ioErr]
      sticky := s.sticky ||| 0x10
      responses := s.responses ++ [⟨.sinkIo, 0⟩] }) ∧
    (∀ rest, s.bw.pos ≠ 0 → s.snk = some .ok :: some .ioErr :: rest → exec .bwFlush s = .next { s with
      bw := ⟨0x00, 0⟩
      snk := rest
      trace := s.trace ++ [.snkPut s.bw.byte .ok, .snkSync .ioErr]
      sticky := s.sticky ||| 0x10
      responses := s.responses ++ [⟨.sinkIo, 1⟩] }) ∧
    (∀ rest, s.bw.pos ≠ 0 → s.snk = some .ok :: some .ok :: rest → exec .bwFlush s = .next { s with
      bw := ⟨0x00, 0⟩
      snk := rest
      trace := s.trace ++ [.snkPut s.bw.byte .ok, .snkSync .ok]
      responses := s.responses ++ [⟨.ok, 1⟩] })

/-- R116: BW_RESET discards the writer's cache; no sink transaction takes place. -/
def Obligations.BwResetEffect : Prop :=
  ∀ s : State, exec .bwReset s = .next { s with
    bw := ⟨0x00, 0⟩
    responses := s.responses ++ [⟨.ok, 0⟩] }

/-- R112: after n >= 1 successful bit writes from an empty writer, the sink has received exactly `ceil(n/8) - 1` bytes and
BW.pos is `n - 8*(ceil(n/8) - 1)`; the bits at the sink and those in the cache are the bits written, in order. -/
def Obligations.WriterEmitsLazily : Prop :=
  ∀ (s t : State) (vs : List Bool), s.bw = ⟨0x00, 0⟩ → vs ≠ [] → writeMany vs s = (.ok, t) →
    (newSinkBytes s t).length = (vs.length + 7) / 8 - 1 ∧
    t.bw.pos.val = vs.length - 8 * ((vs.length + 7) / 8 - 1) ∧ 1 ≤ t.bw.pos.val ∧
    bitsOf (newSinkBytes s t) ++ cachedBits t.bw = vs

/-- R54, R114, R115: n bits written to an empty writer and one successful BW_FLUSH put exactly `ceil(n/8)` bytes at the
sink, whose bits are the bits written, most significant first, and then zeros. -/
def Obligations.FlushedStreamIsTheBitsPaddedWithZeros : Prop :=
  ∀ (s t u : State) (vs : List Bool) (n : Word), s.bw = ⟨0x00, 0⟩ → writeMany vs s = (.ok, t) →
    exec .bwFlush t = .next u → u.responses = t.responses ++ [⟨.ok, n⟩] →
    (newSinkBytes s u).length = (vs.length + 7) / 8 ∧
    bitsOf (newSinkBytes s u) = vs ++ List.replicate (8 * ((vs.length + 7) / 8) - vs.length) false ∧
    (newSinkBytes t u).length = if vs = [] then 0 else 1

/-- R55: the bytes of n bits written and flushed, delivered to an empty reader and followed by the end of the source, are
read back as the same bits, then the zero bits of the padding, then EOS. -/
def Obligations.BitsSurviveTheRoundTrip : Prop :=
  ∀ (s t u r : State) (vs : List Bool) (n : Word) (rest : List (Option SrcAnswer)) (k : Nat), s.bw = ⟨0x00, 0⟩ →
    writeMany vs s = (.ok, t) → exec .bwFlush t = .next u → u.responses = t.responses ++ [⟨.ok, n⟩] →
    r.br = ⟨0x00, 8, false⟩ → r.src = dataAnswers (newSinkBytes s u) ++ some .atEnd :: rest →
    (readMany (8 * ((vs.length + 7) / 8) + k) r).1 =
      vs.map .bit ++ List.replicate (8 * ((vs.length + 7) / 8) - vs.length) (.bit false) ++ List.replicate k .eos

/-- R102, R111, R90: a run of BR_READBITs performs as many `ReadBitCore`s, and BW_PUTBITS, a run of BW_WRITEBITs, as many
`WriteBitCore`s: where all of them succeed, the commands answer OK with the bits read, and OK 0. -/
def Obligations.BitCommandsRunTheBitActions : Prop :=
  (∀ (s t : State) (bits : List Bool), readMany bits.length s = (bits.map .bit, t) →
    execAll (List.replicate bits.length .brReadbit) s =
      .next { t with responses := t.responses ++ bits.map fun v => ⟨.ok, if v then 1 else 0⟩ }) ∧
  ∀ (s t : State) (bits : List Bool), writeMany bits s = (.ok, t) →
    execAll (bwPutbits bits) s = .next { t with responses := t.responses ++ List.replicate bits.length ⟨.ok, 0⟩ }

/-! ### Frequency table and tree builder (41_tree_build.md, 10_state.md) -/

/-- R134, R136: FREQ_WR stores the whole word in its entry and changes no other; FREQ_RD returns the whole word. -/
def Obligations.FreqCommandsEffect : Prop :=
  ∀ (s : State) (sym : Byte) (data : Word),
    (∃ t, exec (.freqWr sym data) s = .next t ∧
      t = { s with freq := t.freq, responses := s.responses ++ [⟨.ok, 0⟩] } ∧
      freqAt sym t = data ∧ ∀ sym', sym' ≠ sym → freqAt sym' t = freqAt sym' s) ∧
    exec (.freqRd sym) s = .next { s with responses := s.responses ++ [⟨.ok, freqAt sym s⟩] }

/-- R131: `first(Q)` is an element of Q of the least weight and, among those, of the greatest symbol; the rest of Q is
left. -/
def Obligations.FirstHasLeastWeightThenGreatestSymbol : Prop :=
  ∀ (e : QueueNode) (q : List QueueNode),
    (extractFirst e q).1 ∈ e :: q ∧
    (∀ x ∈ e :: q, (extractFirst e q).1.weight ≤ x.weight) ∧
    (∀ x ∈ e :: q, x.weight = (extractFirst e q).1.weight → x.symbol ≤ (extractFirst e q).1.symbol) ∧
    ((extractFirst e q).1 :: (extractFirst e q).2).Perm (e :: q)

/-- R143, R140: a merge of a queue takes the first two extracted as child0 and child1 of the new node at index 256 + k, with
the sum of their weights and the first one's symbol, makes it their parent, changes no other entry, and goes on with the
new node in the queue in their place. The index is R31's placement, the model's choice (notes/assumptions/9.md); the weights
and symbols are the queue's copies (10.md), and the sum is taken in 40 bits (14.md). -/
def Obligations.MergeWiresTheFirstTwoExtracted : Prop :=
  ∀ (fuel k : Nat) (nodes : Arena) (e x a b : QueueNode) (q q1 q2 : List QueueNode) (e1 : QueueNode) (na nb : Node),
    k < 255 → extractFirst e (x :: q) = (a, e1 :: q1) → extractFirst e1 q1 = (b, q2) →
    a.ix ≠ b.ix → a.ix.val < 256 + k → b.ix.val < 256 + k → nodeAt nodes a.ix = some na → nodeAt nodes b.ix = some nb →
    ∃ (p : NodeIx) (nodes' : Arena), p.val = 256 + k ∧
      nodeAt nodes' p = some ⟨a.weight + b.weight, a.symbol, some a.ix, some b.ix, none⟩ ∧
      nodeAt nodes' a.ix = some { na with parent := some p } ∧ nodeAt nodes' b.ix = some { nb with parent := some p } ∧
      (∀ j, j ≠ p → j ≠ a.ix → j ≠ b.ix → nodeAt nodes' j = nodeAt nodes j) ∧
      mergeLoop (fuel + 1) k nodes (e :: x :: q) = mergeLoop fuel (k + 1) nodes' (⟨p, a.weight + b.weight, a.symbol⟩ :: q2)

/-- R141, R142, R227: TREE_BUILD on a built tree raises REBUILD; else, with an entry that has bit 31 set, it raises
BAD_FREQ with the lowest such index; neither changes anything else than its sticky bit. -/
def Obligations.TreeBuildErrorsChangeOnlySticky : Prop :=
  ∀ s : State,
    (s.tree.built = true → exec .treeBuild s = .next { s with
      sticky := s.sticky ||| 0x20
      responses := s.responses ++ [⟨.rebuild, 0⟩] }) ∧
    (∀ sym : Byte, s.tree.built = false → (freqAt sym s).getLsbD 31 = true →
      (∀ sym' : Byte, sym' < sym → (freqAt sym' s).getLsbD 31 = false) →
      exec .treeBuild s = .next { s with
        sticky := s.sticky ||| 0x40
        responses := s.responses ++ [⟨.badFreq, sym.setWidth 32⟩] })

/-- R140, R32, R33, R145, R146: TREE_BUILD on an unbuilt tree with no entry refused completes with the leaf count, sets
BUILT, refers in LEAF to exactly the symbols with a nonzero entry, leaves ROOT absent iff every entry is zero, a leaf iff
exactly one is nonzero, and changes nothing outside the tree. -/
def Obligations.TreeBuildCompletesWithTheLeafCount : Prop :=
  ∀ s : State, BlockInv s → s.tree.built = false → (∀ sym, (freqAt sym s).getLsbD 31 = false) →
    ∃ t n, exec .treeBuild s = .next t ∧
      t = { s with tree := t.tree, responses := s.responses ++ [⟨.ok, BitVec.ofNat 32 n⟩] } ∧
      n = s.freq.toList.countP (fun w => w != 0) ∧ n ≤ 256 ∧
      t.tree.built = true ∧
      (∀ sym, leafAt sym t = if freqAt sym s = 0 then none else some (leafIx sym)) ∧
      (t.tree.root = none ↔ ∀ sym, freqAt sym s = 0) ∧
      (∀ sym, freqAt sym s ≠ 0 → (∀ sym', sym' ≠ sym → freqAt sym' s = 0) →
        t.tree.root = some (leafIx sym) ∧
          nodeAt t.tree.nodes (leafIx sym) = some ⟨(freqAt sym s).setWidth 40, sym, none, none, none⟩) ∧
      (∀ r, t.tree.root = some r → IsLeafAt t.tree.nodes r → n = 1)

/-- R144: with L >= 1 nonzero entries the entries of the arena that hold a value after TREE_BUILD are the leaves and
256 .. 256 + L - 2. -/
def Obligations.TreeBuildUsesTheseEntries : Prop :=
  ∀ (s t : State), BlockInv s → s.tree.built = false → (∀ sym, (freqAt sym s).getLsbD 31 = false) →
    exec .treeBuild s = .next t →
    (∀ sym, (nodeAt t.tree.nodes (leafIx sym)).isSome = true ↔ freqAt sym s ≠ 0) ∧
    ∀ p : NodeIx, 256 ≤ p.val →
      ((nodeAt t.tree.nodes p).isSome = true ↔ p.val + 1 < 256 + s.freq.toList.countP (fun w => w != 0))

/-- R140, R131, R143: which tree TREE_BUILD makes, from an unbuilt tree and a table of L nonzero entries, none refused. The
leaf of a symbol has its entry as the weight; of the L - 1 merges, the k-th joins the first two nodes of the queue as it
stands then, the first as child0; the last merge makes the root, and the root has no parent. Where nodes stand in the arena
is R31's placement (notes/assumptions/9.md). -/
def Obligations.TreeBuildMergesTheQueueInOrder : Prop :=
  ∀ s : State, BlockInv s → s.tree.built = false → (∀ sym, (freqAt sym s).getLsbD 31 = false) →
    ∃ t L, exec .treeBuild s = .next t ∧ L = s.freq.toList.countP (fun w => w != 0) ∧
      (∀ sym, freqAt sym s ≠ 0 → ∃ parent, nodeAt t.tree.nodes (leafIx sym) =
        some ⟨(freqAt sym s).setWidth 40, sym, none, none, parent⟩) ∧
      (∀ sym, freqAt sym s = 0 → nodeAt t.tree.nodes (leafIx sym) = none) ∧
      (∀ k, k + 1 < L → MergedInOrder t.tree.nodes k) ∧
      (∀ p : NodeIx, 256 + (L - 1) ≤ p.val → nodeAt t.tree.nodes p = none) ∧
      (L = 0 → t.tree.root = none) ∧
      (∀ sym, L = 1 → freqAt sym s ≠ 0 → t.tree.root = some (leafIx sym)) ∧
      (2 ≤ L → ∃ r, t.tree.root = some r ∧ r.val = 256 + (L - 2)) ∧
      ∀ r, t.tree.root = some r → ∃ nd, nodeAt t.tree.nodes r = some nd ∧ nd.parent = none

/-- R147, R148: the root's weight is the exact sum of the frequency table, below 2^39. -/
def Obligations.RootWeightIsTheSymbolCount : Prop :=
  ∀ (s t : State) (r : NodeIx) (nd : Node), BlockInv s → s.tree.built = false →
    (∀ sym, (freqAt sym s).getLsbD 31 = false) → exec .treeBuild s = .next t → t.tree.root = some r →
    nodeAt t.tree.nodes r = some nd →
    nd.weight.toNat = (s.freq.toList.map BitVec.toNat).sum ∧ nd.weight.toNat < 2 ^ 39

/-- R151: two builds from the same table give the same tree, on two instances, or on one with a TREE_CLEAR between. -/
def Obligations.TreeBuildIsDeterministic : Prop :=
  (∀ s1 s2 t1 t2 : State, BlockInv s1 → BlockInv s2 → s1.tree.built = false → s2.tree.built = false → s1.freq = s2.freq →
    (∀ sym, (freqAt sym s1).getLsbD 31 = false) → exec .treeBuild s1 = .next t1 → exec .treeBuild s2 = .next t2 →
    t1.tree = t2.tree) ∧
  (∀ s : State, BlockInv s → s.tree.built = false → (∀ sym, (freqAt sym s).getLsbD 31 = false) →
    ∃ t u, exec .treeBuild s = .next t ∧ execAll [.treeBuild, .treeClear, .treeBuild] s = .next u ∧ u.tree = t.tree)

/-- R150: TREE_CLEAR returns the tree to its unbuilt, empty state and changes nothing else. -/
def Obligations.TreeClearEffect : Prop :=
  ∀ s : State, ∃ t, exec .treeClear s = .next t ∧
    t = { s with tree := t.tree, responses := s.responses ++ [⟨.ok, 0⟩] } ∧
    t.tree.built = false ∧ t.tree.root = none ∧ (∀ sym, leafAt sym t = none) ∧ ∀ i, nodeAt t.tree.nodes i = none

/-- R34: the tree invariants (a) to (e) hold after every step, once a TREE_BUILD has completed and until TREE_CLEAR or
reset, in every state that meets the invariant. -/
def Obligations.TreeRulesHoldAfterEveryStep : Prop :=
  ∀ s t : State, BlockInv s → step s = .next t → t.tree.built = true → TreeRules t.tree

/-- The invariant holds right after reset. -/
def Obligations.ResetStateMeetsTheInvariant : Prop := BlockInv State.reset

/-- Every step keeps the invariant: the writer's unplaced bits are zero (R26), the end-of-stream latch is set only with an
exhausted cache (R101), and the tree is empty or as TREE_BUILD leaves it (R31, R32, R34, R41, R42). -/
def Obligations.EveryStepKeepsTheInvariant : Prop := ∀ s t : State, BlockInv s → step s = .next t → BlockInv t

/-- From a state that meets the invariant no step ends in a fault or a refusal: every command is accepted at any time
(R232), and no rule reads an arena entry that holds no value (R42). -/
def Obligations.NoStepStopsUnderTheInvariant : Prop := ∀ s : State, BlockInv s → ∃ t, step s = .next t

/-- R40, R35: who writes what. A command that gives a next state leaves BR unchanged unless it is BR_READBIT, BR_RESET or
DEC_SYM; BW unless it is BW_WRITEBIT, BW_FLUSH, BW_RESET or ENC_SYM; the tree unless it is TREE_CLEAR, or TREE_BUILD on an
unbuilt tree; FREQ unless it is FREQ_WR. -/
def Obligations.CommandsWriteOnlyTheirUnit : Prop :=
  ∀ (i : Instr) (s t : State), exec i s = .next t →
    (i ≠ .brReadbit → i ≠ .brReset → i ≠ .decSym → t.br = s.br) ∧
    ((∀ data, i ≠ .bwWritebit data) → i ≠ .bwFlush → i ≠ .bwReset → (∀ sym, i ≠ .encSym sym) → t.bw = s.bw) ∧
    (i ≠ .treeClear → (i ≠ .treeBuild ∨ s.tree.built = true) → t.tree = s.tree) ∧
    ((∀ sym data, i ≠ .freqWr sym data) → t.freq = s.freq) ∧
    t.host = s.host

/-- R220, R224: a command that gives a next state either completes, with exactly one response, and then STICKY is what it
was with the response's bit set (all clear after ST_CLR); or it waits, with no response and STICKY as it was. An illegal
word, too, only adds its bit. -/
def Obligations.OneResponseAndItsStickyBit : Prop :=
  (∀ (i : Instr) (s t : State), exec i s = .next t →
    (∃ r : Response, t.responses = s.responses ++ [r] ∧ t.waiting = s.waiting ∧
      (i ≠ .stClr → ∀ c, 1 ≤ c → c ≤ 8 → stickyBit t c = (stickyBit s c || decide ((ccCode r.cc).toNat = c))) ∧
      (i = .stClr → t.sticky = 0)) ∨
    (t.responses = s.responses ∧ t.waiting ≠ none ∧ t.sticky = s.sticky)) ∧
  ∀ (s : State) (c : Nat), 1 ≤ c → c ≤ 8 → stickyBit (illegalCommand s) c = (stickyBit s c || decide (c = 8))

/-- R50, R59, R61, R226: a command only adds to the record of transactions; it reads the source only if it is BR_READBIT or
DEC_SYM, puts only if it is BW_WRITEBIT, ENC_SYM or BW_FLUSH, syncs only if it is BW_FLUSH, and makes no transaction after
one that answered IOERR. -/
def Obligations.TransactionsOfACommand : Prop :=
  ∀ (i : Instr) (s t : State), exec i s = .next t →
    ∃ added : List Transaction, t.trace = s.trace ++ added ∧
      (∀ a, .srcRead a ∈ added → i = .brReadbit ∨ i = .decSym) ∧
      (∀ b a, .snkPut b a ∈ added → i = .bwFlush ∨ (∃ data, i = .bwWritebit data) ∨ ∃ sym, i = .encSym sym) ∧
      (∀ a, .snkSync a ∈ added → i = .bwFlush) ∧
      ∀ x ∈ added.dropLast, x ≠ .srcRead .ioErr ∧ (∀ b, x ≠ .snkPut b .ioErr) ∧ x ≠ .snkSync .ioErr

/-- R221, R222, R227: the cause of every completion code a command gives; ILLEGAL_CMD is given by no command that decodes.
An IOERR code means that the last recorded transaction answered IOERR. -/
def Obligations.CompletionCodesHaveTheirCauses : Prop :=
  ∀ (i : Instr) (s t : State) (r : Response), exec i s = .next t → t.responses = s.responses ++ [r] →
    (r.cc = .eos → (i = .brReadbit ∨ i = .decSym) ∧ t.br.eos = true) ∧
    (r.cc = .emptyTree → i = .decSym ∧ s.tree.root = none ∧ r.res = 0) ∧
    (r.cc = .absentSym → ∃ sym, i = .encSym sym ∧ leafAt sym s = none ∧ r.res = sym.setWidth 32) ∧
    (r.cc = .srcIo → (i = .brReadbit ∨ i = .decSym) ∧ t.trace.getLast? = some (.srcRead .ioErr)) ∧
    (r.cc = .sinkIo → (i = .bwFlush ∨ (∃ data, i = .bwWritebit data) ∨ ∃ sym, i = .encSym sym) ∧
      ((∃ b, t.trace.getLast? = some (.snkPut b .ioErr)) ∨ i = .bwFlush ∧ t.trace.getLast? = some (.snkSync .ioErr))) ∧
    (r.cc = .rebuild → i = .treeBuild ∧ s.tree.built = true ∧ r.res = 0) ∧
    (r.cc = .badFreq → i = .treeBuild ∧ s.tree.built = false ∧ ∃ sym, (freqAt sym s).getLsbD 31 = true) ∧
    r.cc ≠ .illegalCmd

/-! ### Codes, encoder and decoder (42_encode.md, 43_decode.md) -/

/-- R173, R171: under the invariant every present symbol has a code, and in a tree with two leaves or more the code is the
decoder's path from the root to that leaf. -/
def Obligations.CodeIsThePathFromTheRoot : Prop :=
  ∀ (s : State) (sym : Byte) (n r : NodeIx), BlockInv s → leafAt sym s = some n → s.tree.root = some r →
    ∃ c, codeOf s.tree.nodes n = .ok c ∧ (2 ≤ leavesOf s.tree → descend s.tree.nodes r c = some n)

/-- R152: no symbol's code is a prefix of another symbol's code. -/
def Obligations.CodesArePrefixFree : Prop :=
  ∀ (s : State) (sym1 sym2 : Byte) (n1 n2 : NodeIx) (c1 c2 : List Bool), BlockInv s → sym1 ≠ sym2 →
    leafAt sym1 s = some n1 → leafAt sym2 s = some n2 →
    codeOf s.tree.nodes n1 = .ok c1 → codeOf s.tree.nodes n2 = .ok c2 → ¬ c1 <+: c2

/-- R154, first sentence: in a tree with L >= 2 leaves every code has length between 1 and L - 1, so at most 255. -/
def Obligations.CodeLengthBound : Prop :=
  ∀ (s : State) (sym : Byte) (n : NodeIx) (c : List Bool), BlockInv s → 2 ≤ leavesOf s.tree → leafAt sym s = some n →
    codeOf s.tree.nodes n = .ok c → 1 ≤ c.length ∧ c.length ≤ leavesOf s.tree - 1 ∧ c.length ≤ 255

/-- R172, R177: ENC_SYM of a present symbol, the sink answering its puts with OK: it completes with the code length and the
symbol, issues exactly `ceil((p + n)/8) - 1` puts and no sync, leaves BW.pos at `p + n - 8*(ceil((p + n)/8) - 1)`, the bits
at the sink and in the cache are those before with the code after them, and nothing else changes. -/
def Obligations.EncSymWritesTheCode : Prop :=
  ∀ (s : State) (sym : Byte) (n : NodeIx) (c : List Bool) (rest : List (Option SnkAnswer)), BlockInv s →
    leafAt sym s = some n → codeOf s.tree.nodes n = .ok c →
    s.snk = okAnswers ((s.bw.pos.val + c.length + 7) / 8 - 1) ++ rest →
    ∃ (t : State) (bs : List Byte), exec (.encSym sym) s = .next t ∧
      t = { s with
        bw := t.bw
        snk := rest
        trace := s.trace ++ bs.map fun b => .snkPut b .ok
        responses := s.responses ++ [⟨.ok, BitVec.ofNat 32 (256 * c.length + sym.toNat)⟩] } ∧
      bs.length = (s.bw.pos.val + c.length + 7) / 8 - 1 ∧
      t.bw.pos.val = s.bw.pos.val + c.length - 8 * ((s.bw.pos.val + c.length + 7) / 8 - 1) ∧
      bitsOf bs ++ cachedBits t.bw = cachedBits s.bw ++ c

/-- R174, R175, R176: ENC_SYM of an absent symbol changes nothing but STICKY[3] and completes with ABSENT_SYM; before a
build, and after TREE_CLEAR, every symbol is absent; and the code of a tree with one leaf is the one bit 0. -/
def Obligations.EncSymOfAbsentSymbolIsANoOp : Prop :=
  (∀ (s : State) (sym : Byte), leafAt sym s = none → exec (.encSym sym) s = .next { s with
    sticky := s.sticky ||| 0x04
    responses := s.responses ++ [⟨.absentSym, sym.setWidth 32⟩] }) ∧
  (∀ (s : State) (sym : Byte), BlockInv s → s.tree.built = false → leafAt sym s = none) ∧
  (∀ (s : State) (sym : Byte) (n : NodeIx), BlockInv s → leafAt sym s = some n → leavesOf s.tree = 1 →
    codeOf s.tree.nodes n = .ok [false])

/-- R178, R172, R223: ENC_SYM whose (j+1)-th put answers IOERR completes with SINK_IO and the number k of bits accepted,
which have filled the cache that could not be put; the bits at the sink and in the cache are those before with the first k
bits of the code after them. -/
def Obligations.EncSymSinkErrorKeepsTheAcceptedBits : Prop :=
  ∀ (s : State) (sym : Byte) (n : NodeIx) (c : List Bool) (j : Nat) (rest : List (Option SnkAnswer)), BlockInv s →
    leafAt sym s = some n → codeOf s.tree.nodes n = .ok c → j < (s.bw.pos.val + c.length + 7) / 8 - 1 →
    s.snk = okAnswers j ++ some .ioErr :: rest →
    ∃ (t : State) (bs : List Byte) (k : Nat), exec (.encSym sym) s = .next t ∧
      k + s.bw.pos.val = 8 * (j + 1) ∧ k < c.length ∧ bs.length = j ∧ t.bw.pos = 8 ∧
      t = { s with
        bw := t.bw
        snk := rest
        trace := s.trace ++ bs.map (fun b => .snkPut b .ok) ++ [.snkPut t.bw.byte .ioErr]
        sticky := s.sticky ||| 0x10
        responses := s.responses ++ [⟨.sinkIo, BitVec.ofNat 32 (256 * k + sym.toNat)⟩] } ∧
      bitsOf bs ++ cachedBits t.bw = cachedBits s.bw ++ c.take k

/-- R192, R193: DEC_SYM reads no bit and makes no transaction when ROOT is NONE, where it raises EMPTY_TREE, or a leaf,
where it returns the leaf's symbol, whatever the reader state. -/
def Obligations.DecSymReadsNoBitWithoutAnInnerRoot : Prop :=
  ∀ s : State,
    (s.tree.root = none → exec .decSym s = .next { s with
      sticky := s.sticky ||| 0x02
      responses := s.responses ++ [⟨.emptyTree, 0⟩] }) ∧
    (∀ r nd, s.tree.root = some r → nodeAt s.tree.nodes r = some nd → nd.child0 = none →
      exec .decSym s = .next { s with responses := s.responses ++ [⟨.ok, nd.symbol.setWidth 32⟩] })

/-- R191, R196, R52: DEC_SYM on a tree with two leaves or more, where the bits still in the reader's cache and those of the
bytes the source delivers begin with the code of `sym`: it returns `sym` with the code's length, consumes exactly those
bits, asks for no byte beyond the one that holds the last of them, and changes nothing else. -/
def Obligations.DecSymReturnsTheSymbolOfTheCode : Prop :=
  ∀ (s : State) (sym : Byte) (n : NodeIx) (c more : List Bool) (bs : List Byte) (rest : List (Option SrcAnswer)), BlockInv s →
    2 ≤ leavesOf s.tree → leafAt sym s = some n → codeOf s.tree.nodes n = .ok c → s.br.eos = false →
    s.src = dataAnswers bs ++ rest → (byteBits s.br.byte).drop s.br.pos.val ++ bitsOf bs = c ++ more →
    ∃ (t : State) (read left : List Byte), exec .decSym s = .next t ∧
      t = { s with
        br := t.br
        src := dataAnswers left ++ rest
        trace := s.trace ++ read.map fun b => .srcRead (.data b)
        responses := s.responses ++ [⟨.ok, BitVec.ofNat 32 (256 * c.length + sym.toNat)⟩] } ∧
      bs = read ++ left ∧ read.length = (s.br.pos.val + c.length + 7) / 8 - 1 ∧
      t.br.pos.val = s.br.pos.val + c.length - 8 * read.length ∧ 1 ≤ t.br.pos.val ∧ t.br.eos = false ∧
      (byteBits t.br.byte).drop t.br.pos.val ++ bitsOf left = more

/-- R191, R194, R223: DEC_SYM whose bits run out inside a code: it completes with EOS where the source answers END and
SRC_IO where it answers IOERR, with the number of bits consumed, which stay consumed; END sets the latch. With the latch
set before and an internal node at the root, it completes with EOS, no bit consumed. -/
def Obligations.DecSymStopsInsideACode : Prop :=
  (∀ (s : State) (r p : NodeIx) (nd : Node) (c : List Bool) (bs : List Byte) (rest : List (Option SrcAnswer)), BlockInv s →
    s.tree.root = some r → s.br.eos = false → (byteBits s.br.byte).drop s.br.pos.val ++ bitsOf bs = c →
    descend s.tree.nodes r c = some p → nodeAt s.tree.nodes p = some nd → nd.child0 ≠ none →
    (s.src = dataAnswers bs ++ some .atEnd :: rest →
      ∃ t, exec .decSym s = .next t ∧ t.br.eos = true ∧ t.br.pos = 8 ∧
        t = { s with
          br := t.br
          src := rest
          trace := s.trace ++ bs.map (fun b => .srcRead (.data b)) ++ [.srcRead .atEnd]
          sticky := s.sticky ||| 0x01
          responses := s.responses ++ [⟨.eos, BitVec.ofNat 32 (256 * c.length)⟩] }) ∧
    (s.src = dataAnswers bs ++ some .ioErr :: rest →
      ∃ t, exec .decSym s = .next t ∧ t.br.eos = false ∧ t.br.pos = 8 ∧
        t = { s with
          br := t.br
          src := rest
          trace := s.trace ++ bs.map (fun b => .srcRead (.data b)) ++ [.srcRead .ioErr]
          sticky := s.sticky ||| 0x08
          responses := s.responses ++ [⟨.srcIo, BitVec.ofNat 32 (256 * c.length)⟩] })) ∧
  ∀ (s : State) (r : NodeIx) (nd : Node), s.br.eos = true → s.tree.root = some r → nodeAt s.tree.nodes r = some nd →
    nd.child0 ≠ none → exec .decSym s = .next { s with
      sticky := s.sticky ||| 0x01
      responses := s.responses ++ [⟨.eos, 0⟩] }

/-- R197: under the invariant every sequence of at least 255 bits starts with exactly one complete code: the path from the
root to exactly one leaf. -/
def Obligations.EveryBitSequenceStartsWithOneCode : Prop :=
  ∀ (s : State) (r : NodeIx) (bits : List Bool), BlockInv s → s.tree.root = some r → 255 ≤ bits.length →
    ∃! c, c <+: bits ∧ ∃ n, descend s.tree.nodes r c = some n ∧ IsLeafAt s.tree.nodes n

/-- R195: encoding a byte sequence with ENC_SYM and BW_FLUSH, and decoding the emitted bytes on a tree built from the same
table, gives OK and the sequence's symbols in order. -/
def Obligations.DecodingTheEncodedBytesGivesThemBack : Prop :=
  ∀ (e d : State) (input : List Byte) (more : List (Option SnkAnswer)) (rest : List (Option SrcAnswer)),
    BlockInv e → BlockInv d → e.tree.built = true → d.tree = e.tree → (∀ b ∈ input, (leafAt b e).isSome = true) →
    e.bw = ⟨0x00, 0⟩ → e.snk = okAnswers (32 * input.length + 2) ++ more → d.br = ⟨0x00, 8, false⟩ →
    ∃ e', execAll (encStr input ++ [.bwFlush]) e = .next e' ∧
      (d.src = dataAnswers (newSinkBytes e e') ++ rest →
        ∃ d', execAll (decN input.length) d = .next d' ∧
          (newResponses d d').map (fun r => (r.cc, r.res.setWidth 8)) = input.map fun b => (.ok, b))

/-- R254, R255, R195, R38: whatever the block's state, the compression sequence of an input shorter than 2^31 bytes runs
with no fault recorded, and the decompression sequence over the bytes it put at the sink gives the input back. The host's
counting and its commands are those of Machine/HostSide.lean (notes/assumptions/18.md); the bound keeps every count below
2^31. -/
def Obligations.DecompressionGivesTheInputBack : Prop :=
  ∀ (s d : State) (input : List Byte) (more : List (Option SnkAnswer)) (rest : List (Option SrcAnswer)),
    input.length < 2 ^ 31 → s.host = compression input → s.snk = okAnswers (32 * input.length + 2) ++ more →
    ∃ e : State, Host.Core.run core (compression input).length s = .next e ∧ noErrorRecorded e = true ∧
      (d.host = decompression (countTable input) → d.src = dataAnswers (newSinkBytes s e) ++ rest →
        ∃ f : State, Host.Core.run core (decompression (countTable input)).length d = .next f ∧
          noErrorRecorded f = true ∧
          ((newResponses d f).drop 257).map (fun r => (r.cc, r.res.setWidth 8)) = input.map fun b => (.ok, b))

/-! ### Status (44_status.md, 10_state.md) -/

/-- R210, R36: ST_RD returns STATUS, field by field, and changes nothing. -/
def Obligations.StRdReturnsStatus : Prop :=
  ∀ s : State, ∃ w : Word, exec .stRd s = .next { s with responses := s.responses ++ [⟨.ok, w⟩] } ∧
    w.getLsbD 0 = s.tree.built ∧ w.getLsbD 1 = s.tree.root.isSome ∧ w.getLsbD 2 = s.br.eos ∧ w.getLsbD 3 = false ∧
    (w.extractLsb' 4 4).toNat = s.br.pos.val ∧ (w.extractLsb' 8 4).toNat = s.bw.pos.val ∧
    w.extractLsb' 12 5 = 0 ∧ (∀ c, 1 ≤ c → c ≤ 8 → w.getLsbD (16 + c) = stickyBit s c) ∧ w.extractLsb' 25 7 = 0

/-- R212: ST_CLR clears the sticky bits and nothing else. -/
def Obligations.StClrEffect : Prop :=
  ∀ s : State, exec .stClr s = .next { s with sticky := 0, responses := s.responses ++ [⟨.ok, 0⟩] }

/-! ### The host's side (30_encoding.md R90, 20_memory.md R62, R63) -/

/-- R90, R252: FREQ_LOAD sets the whole table, FREQ_ZERO clears it, and neither changes anything else. -/
def Obligations.FreqLoadSetsTheWholeTable : Prop :=
  ∀ (s : State) (f : FreqTable),
    execAll (freqLoad f) s = .next { s with
      freq := f
      responses := s.responses ++ List.replicate 256 ⟨.ok, 0⟩ } ∧
    ∃ t, execAll freqZero s = .next t ∧ ∀ sym, freqAt sym t = 0

/-- R62, R63: the header is 1024 bytes, reading its entries gives the table back, and the payload starts after it. -/
def Obligations.HeaderEntriesReadBack : Prop :=
  ∀ (f : FreqTable) (payload : List Byte),
    (headerOf f).length = 1024 ∧ entriesIn (headerOf f) = f.toList ∧ payloadOf (containerFile f payload) = payload ∧
    ∀ s : Fin 256, (headerOf f)[4 * s.val]? = some (f[s.val].extractLsb' 0 8) ∧
      (headerOf f)[4 * s.val + 3]? = some (f[s.val].extractLsb' 24 8)

/-- R89, R90: the assembler's examples give their words, a negative DATA literal its residue, and a pseudo-instruction its
commands; and a text of two lines gives the commands of both, in order. That the character 10 ends a line is the model's
choice (notes/assumptions/17.md). -/
def Obligations.AssemblerReadsTheExamples : Prop :=
  (assemble "FREQ_WR 'A', 10".toList).map (·.map encode) = some [0x100041000000000A] ∧
  (assemble "ENC_SYM 'A'".toList).map (·.map encode) = some [0x2000410000000000] ∧
  (assemble "BW_WRITEBIT 1".toList).map (·.map encode) = some [0x0800000000000001] ∧
  (assemble "DEC_SYM".toList).map (·.map encode) = some [0x2800000000000000] ∧
  assemble "FREQ_WR 0x03, -1 ; negative".toList = some [.freqWr 0x03 0xFFFFFFFF] ∧
  assemble "BW_PUTBITS \"10\"".toList = some [.bwWritebit 1, .bwWritebit 0] ∧
  assemble "DEC_N 2".toList = some [.decSym, .decSym] ∧
  assemble "BW_PUTBITS \"10\"\nDEC_N 2".toList = some [.bwWritebit 1, .bwWritebit 0, .decSym, .decSym] ∧
  assemble "FREQ_ZERO".toList = some freqZero
end

