-- ==== Sys2Proof/Laws/State.lean ====
section
/-! SUPPORT. One lemma per field per update of the state, so that no later proof unfolds a record update. -/

namespace Sys2Proof.Machine

variable (s : State)

@[simp] theorem setBr_br (br : Reader) : (setBr br s).br = br := rfl
@[simp] theorem setBr_bw (br : Reader) : (setBr br s).bw = s.bw := rfl
@[simp] theorem setBr_freq (br : Reader) : (setBr br s).freq = s.freq := rfl
@[simp] theorem setBr_tree (br : Reader) : (setBr br s).tree = s.tree := rfl
@[simp] theorem setBr_sticky (br : Reader) : (setBr br s).sticky = s.sticky := rfl
@[simp] theorem setBr_waiting (br : Reader) : (setBr br s).waiting = s.waiting := rfl
@[simp] theorem setBr_host (br : Reader) : (setBr br s).host = s.host := rfl
@[simp] theorem setBr_src (br : Reader) : (setBr br s).src = s.src := rfl
@[simp] theorem setBr_snk (br : Reader) : (setBr br s).snk = s.snk := rfl
@[simp] theorem setBr_trace (br : Reader) : (setBr br s).trace = s.trace := rfl
@[simp] theorem setBr_responses (br : Reader) : (setBr br s).responses = s.responses := rfl

@[simp] theorem setBw_br (bw : Writer) : (setBw bw s).br = s.br := rfl
@[simp] theorem setBw_bw (bw : Writer) : (setBw bw s).bw = bw := rfl
@[simp] theorem setBw_freq (bw : Writer) : (setBw bw s).freq = s.freq := rfl
@[simp] theorem setBw_tree (bw : Writer) : (setBw bw s).tree = s.tree := rfl
@[simp] theorem setBw_sticky (bw : Writer) : (setBw bw s).sticky = s.sticky := rfl
@[simp] theorem setBw_waiting (bw : Writer) : (setBw bw s).waiting = s.waiting := rfl
@[simp] theorem setBw_host (bw : Writer) : (setBw bw s).host = s.host := rfl
@[simp] theorem setBw_src (bw : Writer) : (setBw bw s).src = s.src := rfl
@[simp] theorem setBw_snk (bw : Writer) : (setBw bw s).snk = s.snk := rfl
@[simp] theorem setBw_trace (bw : Writer) : (setBw bw s).trace = s.trace := rfl
@[simp] theorem setBw_responses (bw : Writer) : (setBw bw s).responses = s.responses := rfl

@[simp] theorem setFreq_br (sym : Byte) (data : Word) : (setFreq sym data s).br = s.br := rfl
@[simp] theorem setFreq_bw (sym : Byte) (data : Word) : (setFreq sym data s).bw = s.bw := rfl
@[simp] theorem setFreq_freq (sym : Byte) (data : Word) : (setFreq sym data s).freq = s.freq.set (symIx sym).val data (symIx sym).isLt := rfl
@[simp] theorem setFreq_tree (sym : Byte) (data : Word) : (setFreq sym data s).tree = s.tree := rfl
@[simp] theorem setFreq_sticky (sym : Byte) (data : Word) : (setFreq sym data s).sticky = s.sticky := rfl
@[simp] theorem setFreq_waiting (sym : Byte) (data : Word) : (setFreq sym data s).waiting = s.waiting := rfl
@[simp] theorem setFreq_host (sym : Byte) (data : Word) : (setFreq sym data s).host = s.host := rfl
@[simp] theorem setFreq_src (sym : Byte) (data : Word) : (setFreq sym data s).src = s.src := rfl
@[simp] theorem setFreq_snk (sym : Byte) (data : Word) : (setFreq sym data s).snk = s.snk := rfl
@[simp] theorem setFreq_trace (sym : Byte) (data : Word) : (setFreq sym data s).trace = s.trace := rfl
@[simp] theorem setFreq_responses (sym : Byte) (data : Word) : (setFreq sym data s).responses = s.responses := rfl

@[simp] theorem setTree_br (tree : Tree) : (setTree tree s).br = s.br := rfl
@[simp] theorem setTree_bw (tree : Tree) : (setTree tree s).bw = s.bw := rfl
@[simp] theorem setTree_freq (tree : Tree) : (setTree tree s).freq = s.freq := rfl
@[simp] theorem setTree_tree (tree : Tree) : (setTree tree s).tree = tree := rfl
@[simp] theorem setTree_sticky (tree : Tree) : (setTree tree s).sticky = s.sticky := rfl
@[simp] theorem setTree_waiting (tree : Tree) : (setTree tree s).waiting = s.waiting := rfl
@[simp] theorem setTree_host (tree : Tree) : (setTree tree s).host = s.host := rfl
@[simp] theorem setTree_src (tree : Tree) : (setTree tree s).src = s.src := rfl
@[simp] theorem setTree_snk (tree : Tree) : (setTree tree s).snk = s.snk := rfl
@[simp] theorem setTree_trace (tree : Tree) : (setTree tree s).trace = s.trace := rfl
@[simp] theorem setTree_responses (tree : Tree) : (setTree tree s).responses = s.responses := rfl

@[simp] theorem setSticky_br (m : BitVec 8) : (setSticky m s).br = s.br := rfl
@[simp] theorem setSticky_bw (m : BitVec 8) : (setSticky m s).bw = s.bw := rfl
@[simp] theorem setSticky_freq (m : BitVec 8) : (setSticky m s).freq = s.freq := rfl
@[simp] theorem setSticky_tree (m : BitVec 8) : (setSticky m s).tree = s.tree := rfl
@[simp] theorem setSticky_sticky (m : BitVec 8) : (setSticky m s).sticky = m := rfl
@[simp] theorem setSticky_waiting (m : BitVec 8) : (setSticky m s).waiting = s.waiting := rfl
@[simp] theorem setSticky_host (m : BitVec 8) : (setSticky m s).host = s.host := rfl
@[simp] theorem setSticky_src (m : BitVec 8) : (setSticky m s).src = s.src := rfl
@[simp] theorem setSticky_snk (m : BitVec 8) : (setSticky m s).snk = s.snk := rfl
@[simp] theorem setSticky_trace (m : BitVec 8) : (setSticky m s).trace = s.trace := rfl
@[simp] theorem setSticky_responses (m : BitVec 8) : (setSticky m s).responses = s.responses := rfl

@[simp] theorem waitOn_br (p : Pending) : (waitOn p s).br = s.br := rfl
@[simp] theorem waitOn_bw (p : Pending) : (waitOn p s).bw = s.bw := rfl
@[simp] theorem waitOn_freq (p : Pending) : (waitOn p s).freq = s.freq := rfl
@[simp] theorem waitOn_tree (p : Pending) : (waitOn p s).tree = s.tree := rfl
@[simp] theorem waitOn_sticky (p : Pending) : (waitOn p s).sticky = s.sticky := rfl
@[simp] theorem waitOn_waiting (p : Pending) : (waitOn p s).waiting = some p := rfl
@[simp] theorem waitOn_host (p : Pending) : (waitOn p s).host = s.host := rfl
@[simp] theorem waitOn_src (p : Pending) : (waitOn p s).src = s.src := rfl
@[simp] theorem waitOn_snk (p : Pending) : (waitOn p s).snk = s.snk := rfl
@[simp] theorem waitOn_trace (p : Pending) : (waitOn p s).trace = s.trace := rfl
@[simp] theorem waitOn_responses (p : Pending) : (waitOn p s).responses = s.responses := rfl

@[simp] theorem record_br (x : Transaction) : (record x s).br = s.br := rfl
@[simp] theorem record_bw (x : Transaction) : (record x s).bw = s.bw := rfl
@[simp] theorem record_freq (x : Transaction) : (record x s).freq = s.freq := rfl
@[simp] theorem record_tree (x : Transaction) : (record x s).tree = s.tree := rfl
@[simp] theorem record_sticky (x : Transaction) : (record x s).sticky = s.sticky := rfl
@[simp] theorem record_waiting (x : Transaction) : (record x s).waiting = s.waiting := rfl
@[simp] theorem record_host (x : Transaction) : (record x s).host = s.host := rfl
@[simp] theorem record_src (x : Transaction) : (record x s).src = s.src := rfl
@[simp] theorem record_snk (x : Transaction) : (record x s).snk = s.snk := rfl
@[simp] theorem record_trace (x : Transaction) : (record x s).trace = s.trace ++ [x] := rfl
@[simp] theorem record_responses (x : Transaction) : (record x s).responses = s.responses := rfl

@[simp] theorem popSrc_br : (popSrc s).br = s.br := rfl
@[simp] theorem popSrc_bw : (popSrc s).bw = s.bw := rfl
@[simp] theorem popSrc_freq : (popSrc s).freq = s.freq := rfl
@[simp] theorem popSrc_tree : (popSrc s).tree = s.tree := rfl
@[simp] theorem popSrc_sticky : (popSrc s).sticky = s.sticky := rfl
@[simp] theorem popSrc_waiting : (popSrc s).waiting = s.waiting := rfl
@[simp] theorem popSrc_host : (popSrc s).host = s.host := rfl
@[simp] theorem popSrc_src : (popSrc s).src = s.src.tail := rfl
@[simp] theorem popSrc_snk : (popSrc s).snk = s.snk := rfl
@[simp] theorem popSrc_trace : (popSrc s).trace = s.trace := rfl
@[simp] theorem popSrc_responses : (popSrc s).responses = s.responses := rfl

@[simp] theorem popSnk_br : (popSnk s).br = s.br := rfl
@[simp] theorem popSnk_bw : (popSnk s).bw = s.bw := rfl
@[simp] theorem popSnk_freq : (popSnk s).freq = s.freq := rfl
@[simp] theorem popSnk_tree : (popSnk s).tree = s.tree := rfl
@[simp] theorem popSnk_sticky : (popSnk s).sticky = s.sticky := rfl
@[simp] theorem popSnk_waiting : (popSnk s).waiting = s.waiting := rfl
@[simp] theorem popSnk_host : (popSnk s).host = s.host := rfl
@[simp] theorem popSnk_src : (popSnk s).src = s.src := rfl
@[simp] theorem popSnk_snk : (popSnk s).snk = s.snk.tail := rfl
@[simp] theorem popSnk_trace : (popSnk s).trace = s.trace := rfl
@[simp] theorem popSnk_responses : (popSnk s).responses = s.responses := rfl

@[simp] theorem complete_br (cc : CC) (res : Word) : (complete cc res s).br = s.br := rfl
@[simp] theorem complete_bw (cc : CC) (res : Word) : (complete cc res s).bw = s.bw := rfl
@[simp] theorem complete_freq (cc : CC) (res : Word) : (complete cc res s).freq = s.freq := rfl
@[simp] theorem complete_tree (cc : CC) (res : Word) : (complete cc res s).tree = s.tree := rfl
@[simp] theorem complete_sticky (cc : CC) (res : Word) : (complete cc res s).sticky = stickyAfter cc s.sticky := rfl
@[simp] theorem complete_waiting (cc : CC) (res : Word) : (complete cc res s).waiting = s.waiting := rfl
@[simp] theorem complete_host (cc : CC) (res : Word) : (complete cc res s).host = s.host := rfl
@[simp] theorem complete_src (cc : CC) (res : Word) : (complete cc res s).src = s.src := rfl
@[simp] theorem complete_snk (cc : CC) (res : Word) : (complete cc res s).snk = s.snk := rfl
@[simp] theorem complete_trace (cc : CC) (res : Word) : (complete cc res s).trace = s.trace := rfl
@[simp] theorem complete_responses (cc : CC) (res : Word) : (complete cc res s).responses = s.responses ++ [⟨cc, res⟩] := rfl

@[simp] theorem raise_br (cc : CC) (res : Word) : (raise cc res s).br = s.br := rfl
@[simp] theorem raise_bw (cc : CC) (res : Word) : (raise cc res s).bw = s.bw := rfl
@[simp] theorem raise_freq (cc : CC) (res : Word) : (raise cc res s).freq = s.freq := rfl
@[simp] theorem raise_tree (cc : CC) (res : Word) : (raise cc res s).tree = s.tree := rfl
@[simp] theorem raise_sticky (cc : CC) (res : Word) : (raise cc res s).sticky = stickyAfter cc s.sticky := rfl
@[simp] theorem raise_waiting (cc : CC) (res : Word) : (raise cc res s).waiting = s.waiting := rfl
@[simp] theorem raise_host (cc : CC) (res : Word) : (raise cc res s).host = s.host := rfl
@[simp] theorem raise_src (cc : CC) (res : Word) : (raise cc res s).src = s.src := rfl
@[simp] theorem raise_snk (cc : CC) (res : Word) : (raise cc res s).snk = s.snk := rfl
@[simp] theorem raise_trace (cc : CC) (res : Word) : (raise cc res s).trace = s.trace := rfl
@[simp] theorem raise_responses (cc : CC) (res : Word) : (raise cc res s).responses = s.responses ++ [⟨cc, res⟩] := rfl

@[simp] theorem placeBit_br (v : Bool) : (placeBit v s).br = s.br := rfl
@[simp] theorem placeBit_bw (v : Bool) : (placeBit v s).bw = { byte := s.bw.byte ||| bitMask v s.bw.pos.val, pos := posNext s.bw.pos } := rfl
@[simp] theorem placeBit_freq (v : Bool) : (placeBit v s).freq = s.freq := rfl
@[simp] theorem placeBit_tree (v : Bool) : (placeBit v s).tree = s.tree := rfl
@[simp] theorem placeBit_sticky (v : Bool) : (placeBit v s).sticky = s.sticky := rfl
@[simp] theorem placeBit_waiting (v : Bool) : (placeBit v s).waiting = s.waiting := rfl
@[simp] theorem placeBit_host (v : Bool) : (placeBit v s).host = s.host := rfl
@[simp] theorem placeBit_src (v : Bool) : (placeBit v s).src = s.src := rfl
@[simp] theorem placeBit_snk (v : Bool) : (placeBit v s).snk = s.snk := rfl
@[simp] theorem placeBit_trace (v : Bool) : (placeBit v s).trace = s.trace := rfl
@[simp] theorem placeBit_responses (v : Bool) : (placeBit v s).responses = s.responses := rfl

@[simp] theorem resetBlock_br : (resetBlock s).br = Reader.empty := rfl
@[simp] theorem resetBlock_bw : (resetBlock s).bw = Writer.empty := rfl
@[simp] theorem resetBlock_freq : (resetBlock s).freq = State.reset.freq := rfl
@[simp] theorem resetBlock_tree : (resetBlock s).tree = Tree.empty := rfl
@[simp] theorem resetBlock_sticky : (resetBlock s).sticky = 0 := rfl
@[simp] theorem resetBlock_waiting : (resetBlock s).waiting = none := rfl
@[simp] theorem resetBlock_host : (resetBlock s).host = s.host := rfl
@[simp] theorem resetBlock_src : (resetBlock s).src = s.src := rfl
@[simp] theorem resetBlock_snk : (resetBlock s).snk = s.snk := rfl
@[simp] theorem resetBlock_trace : (resetBlock s).trace = s.trace := rfl
@[simp] theorem resetBlock_responses : (resetBlock s).responses = s.responses := rfl

@[simp] theorem popHost_br : (popHost s).br = s.br := rfl
@[simp] theorem popHost_bw : (popHost s).bw = s.bw := rfl
@[simp] theorem popHost_freq : (popHost s).freq = s.freq := rfl
@[simp] theorem popHost_tree : (popHost s).tree = s.tree := rfl
@[simp] theorem popHost_sticky : (popHost s).sticky = s.sticky := rfl
@[simp] theorem popHost_waiting : (popHost s).waiting = s.waiting := rfl
@[simp] theorem popHost_host : (popHost s).host = s.host.tail := rfl
@[simp] theorem popHost_src : (popHost s).src = s.src := rfl
@[simp] theorem popHost_snk : (popHost s).snk = s.snk := rfl
@[simp] theorem popHost_trace : (popHost s).trace = s.trace := rfl
@[simp] theorem popHost_responses : (popHost s).responses = s.responses := rfl

@[simp] theorem placeCommand_br (w : CmdWord) : (placeCommand w s).br = s.br := rfl
@[simp] theorem placeCommand_bw (w : CmdWord) : (placeCommand w s).bw = s.bw := rfl
@[simp] theorem placeCommand_freq (w : CmdWord) : (placeCommand w s).freq = s.freq := rfl
@[simp] theorem placeCommand_tree (w : CmdWord) : (placeCommand w s).tree = s.tree := rfl
@[simp] theorem placeCommand_sticky (w : CmdWord) : (placeCommand w s).sticky = s.sticky := rfl
@[simp] theorem placeCommand_waiting (w : CmdWord) : (placeCommand w s).waiting = none := rfl
@[simp] theorem placeCommand_host (w : CmdWord) : (placeCommand w s).host = .command w :: s.host := rfl
@[simp] theorem placeCommand_src (w : CmdWord) : (placeCommand w s).src = s.src := rfl
@[simp] theorem placeCommand_snk (w : CmdWord) : (placeCommand w s).snk = s.snk := rfl
@[simp] theorem placeCommand_trace (w : CmdWord) : (placeCommand w s).trace = s.trace := rfl
@[simp] theorem placeCommand_responses (w : CmdWord) : (placeCommand w s).responses = s.responses := rfl

end Sys2Proof.Machine
end

