-- ==== Sys2Proof/Laws/BitIo.lean ====
section
/-! SUPPORT. What the stream transactions and the two bit actions can do, said once (20_memory.md R58, R59; 40_bit_io.md
R101, R110), and what they leave unchanged. -/

namespace Sys2Proof.Machine

variable (s : State)

/-! ### Stream transactions -/

theorem srcRead_answered {a : SrcAnswer} {rest : List (Option SrcAnswer)} (h : s.src = some a :: rest) :
    srcRead s = (some a, record (.srcRead a) (popSrc s)) := by
  simp [srcRead, h]

theorem snkPut_answered (b : Byte) {a : SnkAnswer} {rest : List (Option SnkAnswer)} (h : s.snk = some a :: rest) :
    snkPut b s = (some a, record (.snkPut b a) (popSnk s)) := by
  simp [snkPut, h]

theorem snkSync_answered {a : SnkAnswer} {rest : List (Option SnkAnswer)} (h : s.snk = some a :: rest) :
    snkSync s = (some a, record (.snkSync a) (popSnk s)) := by
  simp [snkSync, h]

/-- A read of the source takes an answer and records it, or waits. -/
theorem srcRead_cases :
    (∃ a rest, s.src = some a :: rest ∧ srcRead s = (some a, record (.srcRead a) (popSrc s))) ∨
    (∃ rest, s.src = none :: rest ∧ srcRead s = (none, waitOn .srcRead (popSrc s))) ∨
    (s.src = [] ∧ srcRead s = (none, waitOn .srcRead s)) := by
  match h : s.src with
  | [] => exact .inr (.inr ⟨rfl, by simp [srcRead, h]⟩)
  | none :: rest => exact .inr (.inl ⟨rest, rfl, by simp [srcRead, h]⟩)
  | some a :: rest => exact .inl ⟨a, rest, rfl, by simp [srcRead, h]⟩

/-- A put takes an answer and records it, or waits. -/
theorem snkPut_cases (b : Byte) :
    (∃ a rest, s.snk = some a :: rest ∧ snkPut b s = (some a, record (.snkPut b a) (popSnk s))) ∨
    (∃ rest, s.snk = none :: rest ∧ snkPut b s = (none, waitOn (.snkPut b) (popSnk s))) ∨
    (s.snk = [] ∧ snkPut b s = (none, waitOn (.snkPut b) s)) := by
  match h : s.snk with
  | [] => exact .inr (.inr ⟨rfl, by simp [snkPut, h]⟩)
  | none :: rest => exact .inr (.inl ⟨rest, rfl, by simp [snkPut, h]⟩)
  | some a :: rest => exact .inl ⟨a, rest, rfl, by simp [snkPut, h]⟩

/-- A sync takes an answer and records it, or waits. -/
theorem snkSync_cases :
    (∃ a rest, s.snk = some a :: rest ∧ snkSync s = (some a, record (.snkSync a) (popSnk s))) ∨
    (∃ rest, s.snk = none :: rest ∧ snkSync s = (none, waitOn .snkSync (popSnk s))) ∨
    (s.snk = [] ∧ snkSync s = (none, waitOn .snkSync s)) := by
  match h : s.snk with
  | [] => exact .inr (.inr ⟨rfl, by simp [snkSync, h]⟩)
  | none :: rest => exact .inr (.inl ⟨rest, rfl, by simp [snkSync, h]⟩)
  | some a :: rest => exact .inl ⟨a, rest, rfl, by simp [snkSync, h]⟩

/-! ### Positions and bits -/

theorem pos_le (p : Pos) : p.val ≤ 8 := by omega

theorem posNext_val (p : Pos) : (posNext p).val = min (p.val + 1) 8 := rfl

theorem bitAt_eq (b : Byte) (i : Nat) : bitAt b i = b.getLsbD (7 - i) := by
  simp [bitAt]

/-- The bits of a byte with one more bit placed: bit `i` is the old one or the placed one. -/
theorem bitAt_or_bitMask (b : Byte) (v : Bool) {i p : Nat} (hi : i < 8) (hp : p < 8) :
    bitAt (b ||| bitMask v p) i = (bitAt b i || (decide (i = p) && v)) := by
  rw [bitAt_eq, bitAt_eq, BitVec.getLsbD_or]
  congr 1
  simp only [bitMask, BitVec.getLsbD_shiftLeft, BitVec.getLsbD_setWidth, BitVec.getLsbD_ofBool]
  by_cases hip : i = p
  · subst hip; simp; omega
  · have : ¬ (7 - i - (7 - p) = 0 ∧ ¬ 7 - i < 7 - p) := by omega
    simp only [hip, decide_false, Bool.false_and]
    rcases Nat.lt_or_ge (7 - i) (7 - p) with hlt | hge
    · simp [hlt]
    · simp; omega

/-! ### The bit reader -/

theorem readBitCore_latched (h : s.br.eos = true) : readBitCore s = (.eos, s) := by
  simp [readBitCore, h]

theorem readBitCore_cached (he : s.br.eos = false) (hp : s.br.pos.val < 8) : readBitCore s = takeBit s := by
  have : ¬ s.br.pos.val > 7 := by omega
  simp [readBitCore, he, this]

/-- Everything `ReadBitCore` can do (40_bit_io.md R101). -/
theorem readBitCore_cases :
    (s.br.eos = true ∧ readBitCore s = (.eos, s)) ∨
    (s.br.eos = false ∧ s.br.pos.val < 8 ∧ readBitCore s = takeBit s) ∨
    (s.br.eos = false ∧ s.br.pos.val = 8 ∧
      ((∃ b rest, s.src = some (.data b) :: rest ∧
          readBitCore s = takeBit (setBr (refilled b s.br) (record (.srcRead (.data b)) (popSrc s)))) ∨
       (∃ rest, s.src = some .atEnd :: rest ∧
          readBitCore s = (.eos, setBr (latched s.br) (record (.srcRead .atEnd) (popSrc s)))) ∨
       (∃ rest, s.src = some .ioErr :: rest ∧ readBitCore s = (.srcIo, record (.srcRead .ioErr) (popSrc s))) ∨
       (∃ rest, s.src = none :: rest ∧ readBitCore s = (.waits, waitOn .srcRead (popSrc s))) ∨
       (s.src = [] ∧ readBitCore s = (.waits, waitOn .srcRead s)))) := by
  cases he : s.br.eos
  · rcases Nat.lt_or_ge s.br.pos.val 8 with hp | hp
    · exact .inr (.inl ⟨rfl, hp, readBitCore_cached s he hp⟩)
    · have hp : s.br.pos.val = 8 := Nat.le_antisymm (pos_le _) hp
      refine .inr (.inr ⟨rfl, hp, ?_⟩)
      have hgt : s.br.pos.val > 7 := by omega
      simp only [readBitCore, he, hgt, if_true, Bool.false_eq_true, if_false]
      rcases srcRead_cases s with ⟨a, rest, hs, hr⟩ | ⟨rest, hs, hr⟩ | ⟨hs, hr⟩
      · rw [hr]
        cases a with
        | data b => exact .inl ⟨b, rest, hs, rfl⟩
        | atEnd => exact .inr (.inl ⟨rest, hs, rfl⟩)
        | ioErr => exact .inr (.inr (.inl ⟨rest, hs, rfl⟩))
      · rw [hr]; exact .inr (.inr (.inr (.inl ⟨rest, hs, rfl⟩)))
      · rw [hr]; exact .inr (.inr (.inr (.inr ⟨hs, rfl⟩)))
  · exact .inl ⟨rfl, readBitCore_latched s he⟩

/-- What a bit read leaves unchanged, whatever it answers. -/
theorem readBitCore_frame :
    (readBitCore s).2.bw = s.bw ∧ (readBitCore s).2.freq = s.freq ∧ (readBitCore s).2.tree = s.tree ∧
      (readBitCore s).2.sticky = s.sticky ∧ (readBitCore s).2.host = s.host ∧ (readBitCore s).2.snk = s.snk ∧
      (readBitCore s).2.responses = s.responses := by
  rcases readBitCore_cases s with ⟨-, h⟩ | ⟨-, -, h⟩ | ⟨-, -, ⟨b, rest, -, h⟩ | ⟨rest, -, h⟩ | ⟨rest, -, h⟩ |
    ⟨rest, -, h⟩ | ⟨-, h⟩⟩ <;> rw [h] <;> exact ⟨rfl, rfl, rfl, rfl, rfl, rfl, rfl⟩

/-! ### The bit writer -/

theorem writeBitCore_room (v : Bool) (hp : s.bw.pos.val < 8) : writeBitCore v s = (.ok, placeBit v s) := by
  have : ¬ s.bw.pos.val > 7 := by omega
  simp [writeBitCore, this]

/-- Everything `WriteBitCore` can do (40_bit_io.md R110). -/
theorem writeBitCore_cases (v : Bool) :
    (s.bw.pos.val < 8 ∧ writeBitCore v s = (.ok, placeBit v s)) ∨
    (s.bw.pos.val = 8 ∧
      ((∃ rest, s.snk = some .ok :: rest ∧ writeBitCore v s =
          (.ok, placeBit v (setBw Writer.empty (record (.snkPut s.bw.byte .ok) (popSnk s))))) ∨
       (∃ rest, s.snk = some .ioErr :: rest ∧
          writeBitCore v s = (.sinkIo, record (.snkPut s.bw.byte .ioErr) (popSnk s))) ∨
       (∃ rest, s.snk = none :: rest ∧ writeBitCore v s = (.waits, waitOn (.snkPut s.bw.byte) (popSnk s))) ∨
       (s.snk = [] ∧ writeBitCore v s = (.waits, waitOn (.snkPut s.bw.byte) s)))) := by
  rcases Nat.lt_or_ge s.bw.pos.val 8 with hp | hp
  · exact .inl ⟨hp, writeBitCore_room s v hp⟩
  · have hp8 : s.bw.pos.val = 8 := Nat.le_antisymm (pos_le _) hp
    have hgt : s.bw.pos.val > 7 := by omega
    refine .inr ⟨hp8, ?_⟩
    simp only [writeBitCore, hgt, if_true]
    rcases snkPut_cases s s.bw.byte with ⟨a, rest, hs, hr⟩ | ⟨rest, hs, hr⟩ | ⟨hs, hr⟩
    · rw [hr]
      cases a with
      | ok => exact .inl ⟨rest, hs, rfl⟩
      | ioErr => exact .inr (.inl ⟨rest, hs, rfl⟩)
    · rw [hr]; exact .inr (.inr (.inl ⟨rest, hs, rfl⟩))
    · rw [hr]; exact .inr (.inr (.inr ⟨hs, rfl⟩))

/-- What a bit write leaves unchanged, whatever it answers. -/
theorem writeBitCore_frame (v : Bool) :
    (writeBitCore v s).2.br = s.br ∧ (writeBitCore v s).2.freq = s.freq ∧ (writeBitCore v s).2.tree = s.tree ∧
      (writeBitCore v s).2.sticky = s.sticky ∧ (writeBitCore v s).2.host = s.host ∧
      (writeBitCore v s).2.src = s.src ∧ (writeBitCore v s).2.responses = s.responses := by
  rcases writeBitCore_cases s v with ⟨-, h⟩ | ⟨-, ⟨rest, -, h⟩ | ⟨rest, -, h⟩ | ⟨rest, -, h⟩ | ⟨-, h⟩⟩ <;>
    rw [h] <;> exact ⟨rfl, rfl, rfl, rfl, rfl, rfl, rfl⟩

/-- Placing a bit keeps the unplaced bits zero (10_state.md R26). -/
theorem writerOk_placeBit (v : Bool) (hp : s.bw.pos.val < 8) (h : WriterOk s.bw) : WriterOk (placeBit v s).bw := by
  intro i hi h8
  have hval : (posNext s.bw.pos).val = s.bw.pos.val + 1 := by rw [posNext_val]; omega
  have hi : s.bw.pos.val + 1 ≤ i := by rw [← hval]; exact hi
  show bitAt (s.bw.byte ||| bitMask v s.bw.pos.val) i = false
  have hne : decide (i = s.bw.pos.val) = false := decide_eq_false (by omega)
  rw [bitAt_or_bitMask _ _ h8 hp, h i (by omega) h8, hne]
  rfl

theorem writerOk_empty : WriterOk Writer.empty := by
  intro i _ _
  simp [Writer.empty, bitAt]

/-- A bit write keeps the unplaced bits zero, whatever it answers (10_state.md R26). -/
theorem writerOk_writeBitCore (v : Bool) (h : WriterOk s.bw) : WriterOk (writeBitCore v s).2.bw := by
  rcases writeBitCore_cases s v with ⟨hp, hw⟩ | ⟨-, ⟨rest, -, hw⟩ | ⟨rest, -, hw⟩ | ⟨rest, -, hw⟩ | ⟨-, hw⟩⟩ <;> rw [hw]
  · exact writerOk_placeBit s v hp h
  · exact writerOk_placeBit _ v (by decide : (Writer.empty).pos.val < 8) writerOk_empty
  · exact h
  · exact h
  · exact h

/-- A bit read keeps the latch set only with the cache exhausted, whatever it answers. -/
theorem readerOk_readBitCore (h : ReaderOk s.br) : ReaderOk (readBitCore s).2.br := by
  rcases readBitCore_cases s with ⟨-, hr⟩ | ⟨he, -, hr⟩ | ⟨he, hp, ⟨b, rest, -, hr⟩ | ⟨rest, -, hr⟩ | ⟨rest, -, hr⟩ |
    ⟨rest, -, hr⟩ | ⟨-, hr⟩⟩ <;> rw [hr]
  · exact h
  · intro he'
    have he' : s.br.eos = true := he'
    rw [he] at he'; cases he'
  · intro he'
    have he' : s.br.eos = true := he'
    rw [he] at he'; cases he'
  · exact fun _ => hp
  · exact h
  · exact h
  · exact h

end Sys2Proof.Machine
end

