-- ==== Sys2Proof/Laws/Queue.lean ====
section
/-! SUPPORT. The queue of TREE_BUILD: `extractFirst` takes out the first node of the extraction order and keeps the rest
(41_tree_build.md R131). -/

namespace Sys2Proof.Machine

/-- The extraction order on the numbers it compares. -/
theorem comesBefore_iff (a b : QueueNode) :
    comesBefore a b = true ↔
      a.weight.toNat < b.weight.toNat ∨ (a.weight.toNat = b.weight.toNat ∧ b.symbol.toNat < a.symbol.toNat) := by
  simp [comesBefore, BitVec.lt_def, BitVec.toNat_inj]

/-- Nothing comes before itself. -/
theorem comesBefore_irrefl (a : QueueNode) : comesBefore a a = false := by
  rw [Bool.eq_false_iff, Ne, comesBefore_iff]
  omega

/-- Extraction loses no element and makes none. -/
theorem extractFirst_perm (e : QueueNode) (q : List QueueNode) :
    ((extractFirst e q).1 :: (extractFirst e q).2).Perm (e :: q) := by
  induction q generalizing e with
  | nil => simp [extractFirst]
  | cons x q ih =>
    simp only [extractFirst]
    split
    · exact (List.Perm.swap ..).trans ((ih x).cons e)
    · exact (List.Perm.swap ..).trans (((ih e).cons x).trans (List.Perm.swap ..))

theorem extractFirst_length (e : QueueNode) (q : List QueueNode) : (extractFirst e q).2.length = q.length := by
  have h := (extractFirst_perm e q).length_eq
  simpa using h

/-- No element of the queue comes before the extracted one. -/
theorem extractFirst_minimal (e : QueueNode) (q : List QueueNode) :
    ∀ x ∈ e :: q, comesBefore x (extractFirst e q).1 = false := by
  induction q generalizing e with
  | nil => simp [extractFirst, comesBefore_irrefl]
  | cons y q ih =>
    intro x hx
    simp only [extractFirst]
    split
    · rename_i h
      show comesBefore x (extractFirst y q).1 = false
      have hy := ih y
      rcases List.mem_cons.1 hx with rfl | hx
      · refine Bool.eq_false_iff.2 fun hc => ?_
        have := hy y (List.mem_cons_self ..)
        rw [Bool.eq_false_iff, Ne, comesBefore_iff] at this
        rw [comesBefore_iff] at hc h
        omega
      · exact hy x hx
    · rename_i h
      show comesBefore x (extractFirst e q).1 = false
      have he := ih e
      rcases List.mem_cons.1 hx with rfl | hx
      · exact he x (List.mem_cons_self ..)
      · rcases List.mem_cons.1 hx with rfl | hx
        · refine Bool.eq_false_iff.2 fun hc => ?_
          have := he e (List.mem_cons_self ..)
          rw [Bool.eq_false_iff, Ne, comesBefore_iff] at this
          rw [comesBefore_iff] at hc h
          omega
        · exact he x (List.mem_cons_of_mem _ hx)

end Sys2Proof.Machine
end

