-- ==== Sys2Proof/Laws/TreeBuild.lean ====
section
/-! SUPPORT. TREE_BUILD makes a tree that keeps the invariant: the leaves, then the merge loop, whose invariant is
`LoopOk` (41_tree_build.md R140 to R147). -/

namespace Sys2Proof.Machine

/-! ### Entries of the arena and of LEAF -/

theorem nodeAt_writeNode (p : NodeIx) (n : Node) (nodes : Arena) (i : NodeIx) :
    nodeAt (writeNode p n nodes) i = if i = p then some n else nodeAt nodes i := by
  simp only [nodeAt, writeNode, Vector.getElem_set, Fin.ext_iff, eq_comm]

theorem nodeAt_setParent (i p : NodeIx) (nodes : Arena) (j : NodeIx) :
    nodeAt (setParent i p nodes) j =
      if j = i then (nodeAt nodes i).map fun n => { n with parent := some p } else nodeAt nodes j := by
  simp only [nodeAt, setParent, Vector.getElem_set, Fin.ext_iff, eq_comm]

theorem nodeAt_empty (i : NodeIx) : nodeAt Tree.empty.nodes i = none := by
  simp [nodeAt, Tree.empty]

theorem leafIx_inj {a b : Byte} (h : leafIx a = leafIx b) : a = b := by
  simpa [leafIx, BitVec.toNat_inj] using h

theorem leafIx_val (a : Byte) : (leafIx a).val = a.toNat := rfl

theorem leafIx_lt (a : Byte) : (leafIx a).val < 256 := a.isLt

theorem symIx_inj {a b : Byte} (h : (symIx a).val = (symIx b).val) : a = b := by
  simpa [symIx, BitVec.toNat_inj] using h

theorem mergeIx_val {k : Nat} (h : k < 255) : (mergeIx k).val = 256 + k := by
  simp only [mergeIx, Fin.ofNat_eq_cast, Fin.val_natCast]
  omega

/-! ### The leaf queue -/

/-- A queue that TREE_BUILD starts with: each element is the leaf of its symbol, no symbol twice. -/
structure LeavesOk (lq : List QueueNode) : Prop where
  ix      : ∀ e ∈ lq, e.ix = leafIx e.symbol
  symbols : (lq.map QueueNode.symbol).Nodup
  weight  : ∀ e ∈ lq, 0 < e.weight.toNat ∧ e.weight.toNat < 2 ^ 31

/-- The elements of the leaf queue: the symbols with a nonzero entry, with that entry as the weight. -/
theorem mem_leafQueue (freq : FreqTable) (e : QueueNode) :
    e ∈ leafQueue freq ↔
      e.ix = leafIx e.symbol ∧ e.weight = leafWeight (freq[(symIx e.symbol).val]'(symIx e.symbol).isLt) ∧
        freq[(symIx e.symbol).val]'(symIx e.symbol).isLt ≠ 0 := by
  simp only [leafQueue, List.mem_filterMap, Prod.exists, leafEntry, Option.ite_none_left_eq_some, Option.some.injEq]
  constructor
  · rintro ⟨w, i, hm, hw, rfl⟩
    rw [List.mk_mem_zipIdx_iff_getElem?, List.getElem?_eq_some_iff] at hm
    obtain ⟨hi, hm⟩ := hm
    have hi' : i < 256 := by simpa using hi
    have hs : (symIx (symOfNat i)).val = i := by
      simp only [symIx, symOfNat, BitVec.toNat_ofNat]; omega
    have : freq[i] = w := by simpa using hm
    refine ⟨rfl, ?_, ?_⟩
    · simp only [hs, this]
    · simpa only [hs, this] using hw
  · rintro ⟨hix, hwt, hne⟩
    refine ⟨_, (symIx e.symbol).val, ?_, hne, ?_⟩
    · rw [List.mk_mem_zipIdx_iff_getElem?, List.getElem?_eq_some_iff]
      exact ⟨by simp, by simp⟩
    · have hs : symOfNat (symIx e.symbol).val = e.symbol := by simp [symOfNat, symIx]
      rw [hs, ← hix, ← hwt]

theorem leafQueue_symbols (freq : FreqTable) : (leafQueue freq).map QueueNode.symbol =
    (freq.toList.zipIdx.filter fun e => e.1 != 0).map fun e => symOfNat e.2 := by
  simp only [leafQueue]
  induction freq.toList.zipIdx with
  | nil => rfl
  | cons x l ih =>
    by_cases hx : x.1 = 0
    · rw [List.filterMap_cons, leafEntry, if_pos hx, List.filter_cons_of_neg (by simpa using hx), ih]
    · rw [List.filterMap_cons, leafEntry, if_neg hx, List.filter_cons_of_pos (by simpa using hx), List.map_cons,
        List.map_cons, ih]

theorem leafQueue_nodup (freq : FreqTable) : ((leafQueue freq).map QueueNode.symbol).Nodup := by
  rw [leafQueue_symbols]
  have hlt : ∀ x ∈ freq.toList.zipIdx, x.2 < 256 := by
    rintro ⟨w, i⟩ hx
    rw [List.mk_mem_zipIdx_iff_getElem?, List.getElem?_eq_some_iff] at hx
    simpa using hx.1
  have hnd : (freq.toList.zipIdx.map Prod.snd).Nodup := by
    rw [List.zipIdx_map_snd]; exact List.nodup_range' ..
  refine List.Nodup.map_on ?_ ((List.Nodup.of_map _ hnd).filter _)
  intro x hx y hy hxy
  have hx := List.mem_filter.1 hx |>.1
  have hy := List.mem_filter.1 hy |>.1
  have := congrArg BitVec.toNat hxy
  simp only [symOfNat, BitVec.toNat_ofNat] at this
  have h1 := hlt x hx; have h2 := hlt y hy
  exact List.inj_on_of_nodup_map hnd hx hy (by omega)

theorem leafQueue_ok {freq : FreqTable} (h : firstNegative freq = none) : LeavesOk (leafQueue freq) where
  ix e he := ((mem_leafQueue freq e).1 he).1
  symbols := leafQueue_nodup freq
  weight e he := by
    obtain ⟨-, hw, hne⟩ := (mem_leafQueue freq e).1 he
    have hneg := List.findIdx?_eq_none_iff.1 h (freq[(symIx e.symbol).val]'(symIx e.symbol).isLt) (by simp)
    generalize freq[(symIx e.symbol).val]'(symIx e.symbol).isLt = w at hw hne hneg
    have h0 : w.toNat ≠ 0 := fun h0 => hne (BitVec.eq_of_toNat_eq h0)
    have h31 : w.toNat < 2 ^ 31 := by
      simp only [isNegative, BitVec.getLsbD, Nat.testBit_eq_decide_div_mod_eq, decide_eq_false_iff_not] at hneg
      have := w.isLt
      omega
    have : e.weight.toNat = w.toNat := by
      rw [hw, leafWeight, BitVec.toNat_setWidth]
      exact Nat.mod_eq_of_lt (by omega)
    omega

/-! ### Writing the leaves -/

theorem nodeAt_writeLeaves {q : List QueueNode} (hnd : (q.map QueueNode.ix).Nodup) (nodes : Arena) (i : NodeIx) :
    (∀ e ∈ q, e.ix = i → nodeAt (writeLeaves q nodes) i = some (leafNode e)) ∧
      ((∀ e ∈ q, e.ix ≠ i) → nodeAt (writeLeaves q nodes) i = nodeAt nodes i) := by
  induction q generalizing nodes with
  | nil => simp [writeLeaves]
  | cons x q ih =>
    simp only [List.map_cons, List.nodup_cons] at hnd
    obtain ⟨ih1, ih2⟩ := ih hnd.2 (writeNode x.ix (leafNode x) nodes)
    refine ⟨fun e he hi => ?_, fun hne => ?_⟩
    · rcases List.mem_cons.1 he with rfl | he
      · have : ∀ e' ∈ q, e'.ix ≠ i := fun e' he' h => hnd.1 (List.mem_map.2 ⟨e', he', h.trans hi.symm⟩)
        exact (ih2 this).trans (by rw [nodeAt_writeNode, if_pos hi.symm])
      · exact ih1 e he hi
    · have h := ih2 fun e he => hne e (List.mem_cons_of_mem _ he)
      rw [nodeAt_writeNode, if_neg fun h => hne x (List.mem_cons_self ..) h.symm] at h
      exact h

theorem getElem_leafTable_aux {q : List QueueNode} (hix : ∀ e ∈ q, e.ix = leafIx e.symbol)
    (t : Vector (Option NodeIx) 256) (sym : Byte) :
    (q.foldl (fun t e => t.set (symIx e.symbol).val (some e.ix) (symIx e.symbol).isLt) t)[(symIx sym).val]'
        (symIx sym).isLt =
      if sym ∈ q.map QueueNode.symbol then some (leafIx sym) else t[(symIx sym).val]'(symIx sym).isLt := by
  induction q generalizing t with
  | nil => simp
  | cons x q ih =>
    rw [List.foldl_cons, ih fun e he => hix e (List.mem_cons_of_mem _ he)]
    by_cases hm : sym ∈ q.map QueueNode.symbol
    · rw [if_pos hm, if_pos (by simp only [List.map_cons, List.mem_cons]; exact .inr hm)]
    · rw [if_neg hm, Vector.getElem_set]
      by_cases hs : x.symbol = sym
      · rw [if_pos (by rw [hs]), if_pos (by simp [hs]), hix x (List.mem_cons_self ..), hs]
      · rw [if_neg fun h => hs (symIx_inj h), if_neg]
        simp only [List.map_cons, List.mem_cons, not_or]
        exact ⟨fun h => hs h.symm, hm⟩

/-- LEAF after TREE_BUILD: the symbol's own index for a symbol of the queue, NONE for every other (10_state.md R32). -/
theorem getElem_leafTable {q : List QueueNode} (hix : ∀ e ∈ q, e.ix = leafIx e.symbol) (sym : Byte) :
    (leafTable q)[(symIx sym).val]'(symIx sym).isLt =
      if sym ∈ q.map QueueNode.symbol then some (leafIx sym) else none := by
  have h := getElem_leafTable_aux hix (Vector.replicate 256 none) sym
  rw [Vector.getElem_replicate] at h
  exact h

theorem leavesOk_ixs {lq : List QueueNode} (h : LeavesOk lq) : (lq.map QueueNode.ix).Nodup := by
  have : lq.map QueueNode.ix = (lq.map QueueNode.symbol).map leafIx := by
    rw [List.map_map]
    exact List.map_congr_left fun e he => h.ix e he
  rw [this]
  exact h.symbols.map fun _ _ => leafIx_inj

theorem leavesOk_length {lq : List QueueNode} (h : LeavesOk lq) : lq.length ≤ 256 := by
  have hn : ((lq.map QueueNode.symbol).map symIx).Nodup :=
    h.symbols.map fun a b hab => symIx_inj (congrArg Fin.val hab)
  have := hn.length_le_card
  rwa [List.length_map, List.length_map, Fintype.card_fin] at this

/-! ### The merge loop -/

/-- The invariant of the merge loop after `k` merges, over the leaf queue `lq`. -/
structure LoopOk (lq : List QueueNode) (k : Nat) (nodes : Arena) (q : List QueueNode) : Prop where
  entry   : ∀ e ∈ q, ∃ nd, nodeAt nodes e.ix = some nd ∧ nd.weight = e.weight ∧ nd.symbol = e.symbol ∧ nd.parent = none
  ixs     : (q.map QueueNode.ix).Nodup
  symbols : (q.map QueueNode.symbol).Nodup
  count   : k + q.length = lq.length
  weights : (q.map fun e => e.weight.toNat).sum = (lq.map fun e => e.weight.toNat).sum
  tops    : ∀ n nd, nodeAt nodes n = some nd → nd.parent = none → n ∈ q.map QueueNode.ix
  leaf    : ∀ n nd, n.val < 256 → nodeAt nodes n = some nd →
    ∃ e ∈ lq, e.ix = n ∧ nd.weight = e.weight ∧ nd.symbol = e.symbol ∧ nd.child0 = none ∧ nd.child1 = none
  leaves  : ∀ e ∈ lq, (nodeAt nodes e.ix).isSome = true
  used    : ∀ p : NodeIx, 256 ≤ p.val → ((nodeAt nodes p).isSome = true ↔ p.val < 256 + k)
  inner   : ∀ (p : NodeIx) nd, 256 ≤ p.val → nodeAt nodes p = some nd →
    ∃ a b na nb, nd.child0 = some a ∧ nd.child1 = some b ∧ a ≠ b ∧ a.val < p.val ∧ b.val < p.val ∧
      nodeAt nodes a = some na ∧ nodeAt nodes b = some nb ∧ na.parent = some p ∧ nb.parent = some p ∧
      nd.weight.toNat = na.weight.toNat + nb.weight.toNat ∧ nd.symbol = na.symbol
  up      : ∀ n nd p, nodeAt nodes n = some nd → nd.parent = some p →
    256 ≤ p.val ∧ n.val < p.val ∧ ∃ np, nodeAt nodes p = some np ∧ (np.child0 = some n ∨ np.child1 = some n)

/-- The invariant when the leaves are written and no merge is made, from an arena that holds no value. -/
theorem loopOk_start {lq : List QueueNode} (h : LeavesOk lq) : LoopOk lq 0 (writeLeaves lq Tree.empty.nodes) lq := by
  have hw := nodeAt_writeLeaves (leavesOk_ixs h) Tree.empty.nodes
  have hcase : ∀ n nd, nodeAt (writeLeaves lq Tree.empty.nodes) n = some nd → ∃ e ∈ lq, e.ix = n ∧ nd = leafNode e := by
    intro n nd hn
    by_cases hex : ∃ e ∈ lq, e.ix = n
    · obtain ⟨e, he, hen⟩ := hex
      exact ⟨e, he, hen, Option.some.inj (hn.symm.trans ((hw n).1 e he hen))⟩
    · rw [(hw n).2 fun e he hen => hex ⟨e, he, hen⟩, nodeAt_empty] at hn
      cases hn
  have hlt : ∀ e ∈ lq, e.ix.val < 256 := fun e he => by rw [h.ix e he]; exact leafIx_lt _
  refine ⟨fun e he => ⟨leafNode e, (hw e.ix).1 e he rfl, rfl, rfl, rfl⟩, leavesOk_ixs h, h.symbols, Nat.zero_add _, rfl,
    ?_, ?_, fun e he => by rw [(hw e.ix).1 e he rfl]; rfl, ?_, ?_, ?_⟩
  · intro n nd hn _
    obtain ⟨e, he, hen, -⟩ := hcase n nd hn
    exact List.mem_map.2 ⟨e, he, hen⟩
  · intro n nd _ hn
    obtain ⟨e, he, hen, rfl⟩ := hcase n nd hn
    exact ⟨e, he, hen, rfl, rfl, rfl, rfl⟩
  · intro p hp
    refine ⟨fun hs => ?_, fun hlt => by omega⟩
    obtain ⟨nd, hn⟩ := Option.isSome_iff_exists.1 hs
    obtain ⟨e, he, hen, -⟩ := hcase p nd hn
    have := hlt e he
    rw [hen] at this
    omega
  · intro p nd hp hn
    obtain ⟨e, he, hen, -⟩ := hcase p nd hn
    have := hlt e he
    rw [hen] at this
    omega
  · intro n nd p hn hpar
    obtain ⟨e, -, -, rfl⟩ := hcase n nd hn
    cases hpar

/-- The arena after a merge: the new node, the two children with their parent, and nothing else changed. -/
theorem nodeAt_mergeNodes {k : Nat} {a b : QueueNode} {nodes : Arena} (ha : a.ix ≠ mergeIx k) (hb : b.ix ≠ mergeIx k)
    (hab : a.ix ≠ b.ix) (j : NodeIx) :
    nodeAt (mergeNodes k a b nodes) j =
      if j = mergeIx k then some (mergedNode a b)
      else if j = a.ix ∨ j = b.ix then (nodeAt nodes j).map fun n => { n with parent := some (mergeIx k) }
      else nodeAt nodes j := by
  simp only [mergeNodes, nodeAt_setParent, nodeAt_writeNode]
  by_cases h1 : j = mergeIx k
  · subst h1
    simp [ha.symm, hb.symm]
  · by_cases h2 : j = b.ix
    · subst h2
      simp [hab.symm, h1]
    · by_cases h3 : j = a.ix
      · subst h3
        simp [hab, h1]
      · simp [h1, h2, h3]

/-- One merge keeps the invariant. -/
theorem loopOk_merge {lq : List QueueNode} (hl : LeavesOk lq) {k : Nat} {nodes : Arena} {a b : QueueNode}
    {q2 : List QueueNode} (h : LoopOk lq k nodes (a :: b :: q2)) :
    LoopOk lq (k + 1) (mergeNodes k a b nodes) (mergedEntry k a b :: q2) := by
  have hlen := leavesOk_length hl
  have hcount := h.count
  simp only [List.length_cons] at hcount
  have hm : (mergeIx k).val = 256 + k := mergeIx_val (by omega)
  -- the new entry held no value
  have hfree : nodeAt nodes (mergeIx k) = none := by
    have := (h.used (mergeIx k) (by omega)).not.2 (by omega)
    simpa using this
  obtain ⟨na, hna, hwa, hsa, hpa⟩ := h.entry a (List.mem_cons_self ..)
  obtain ⟨nb, hnb, hwb, hsb, hpb⟩ := h.entry b (List.mem_cons_of_mem _ (List.mem_cons_self ..))
  have hne : ∀ j nd, nodeAt nodes j = some nd → j ≠ mergeIx k := by
    rintro j nd hj rfl
    rw [hfree] at hj
    cases hj
  have ham := hne _ _ hna
  have hbm := hne _ _ hnb
  have hixs := h.ixs
  simp only [List.map_cons, List.nodup_cons, List.mem_cons, not_or] at hixs
  have hab : a.ix ≠ b.ix := hixs.1.1
  have hat := nodeAt_mergeNodes (nodes := nodes) ham hbm hab
  -- an index of the arena is below the new one
  have hbelow : ∀ j nd, nodeAt nodes j = some nd → j.val < 256 + k := by
    intro j nd hj
    by_cases h256 : 256 ≤ j.val
    · exact (h.used j h256).1 (by rw [hj]; rfl)
    · omega
  -- old entries keep all but the parent, and the parent only if they had one
  have hold : ∀ j nd, nodeAt nodes j = some nd → ∃ nd', nodeAt (mergeNodes k a b nodes) j = some nd' ∧
      nd'.weight = nd.weight ∧ nd'.symbol = nd.symbol ∧ nd'.child0 = nd.child0 ∧ nd'.child1 = nd.child1 ∧
      (∀ p, nd.parent = some p → nd'.parent = some p) := by
    intro j nd hj
    rw [hat, if_neg (hne j nd hj)]
    by_cases hjab : j = a.ix ∨ j = b.ix
    · rw [if_pos hjab, hj]
      refine ⟨_, rfl, rfl, rfl, rfl, rfl, fun p hp => ?_⟩
      rcases hjab with rfl | rfl
      · rw [hna] at hj; cases hj; rw [hpa] at hp; cases hp
      · rw [hnb] at hj; cases hj; rw [hpb] at hp; cases hp
    · rw [if_neg hjab, hj]
      exact ⟨nd, rfl, rfl, rfl, rfl, rfl, fun _ => id⟩
  -- and a new entry is the merged node or an old one
  have hnew : ∀ j nd', nodeAt (mergeNodes k a b nodes) j = some nd' →
      (j = mergeIx k ∧ nd' = mergedNode a b) ∨
      (j ≠ mergeIx k ∧ ∃ nd, nodeAt nodes j = some nd ∧ nd'.weight = nd.weight ∧ nd'.symbol = nd.symbol ∧
        nd'.child0 = nd.child0 ∧ nd'.child1 = nd.child1 ∧
        (((j = a.ix ∨ j = b.ix) ∧ nd'.parent = some (mergeIx k)) ∨
          (j ≠ a.ix ∧ j ≠ b.ix ∧ nd'.parent = nd.parent))) := by
    intro j nd' hj
    rw [hat] at hj
    by_cases hjm : j = mergeIx k
    · rw [if_pos hjm] at hj
      exact .inl ⟨hjm, (Option.some.inj hj).symm⟩
    · rw [if_neg hjm] at hj
      refine .inr ⟨hjm, ?_⟩
      by_cases hjab : j = a.ix ∨ j = b.ix
      · rw [if_pos hjab] at hj
        obtain ⟨nd, hnd, rfl⟩ := Option.map_eq_some_iff.1 hj
        exact ⟨nd, hnd, rfl, rfl, rfl, rfl, .inl ⟨hjab, rfl⟩⟩
      · rw [if_neg hjab] at hj
        rw [not_or] at hjab
        exact ⟨nd', hj, rfl, rfl, rfl, rfl, .inr ⟨hjab.1, hjab.2, rfl⟩⟩
  have hmerged : nodeAt (mergeNodes k a b nodes) (mergeIx k) = some (mergedNode a b) := by rw [hat, if_pos rfl]
  have hachild : ∃ na', nodeAt (mergeNodes k a b nodes) a.ix = some na' ∧ na'.weight = a.weight ∧
      na'.symbol = a.symbol ∧ na'.parent = some (mergeIx k) := by
    rw [hat, if_neg ham, if_pos (.inl rfl), hna]
    exact ⟨_, rfl, hwa, hsa, rfl⟩
  have hbchild : ∃ nb', nodeAt (mergeNodes k a b nodes) b.ix = some nb' ∧ nb'.weight = b.weight ∧
      nb'.parent = some (mergeIx k) := by
    rw [hat, if_neg hbm, if_pos (.inr rfl), hnb]
    exact ⟨_, rfl, hwb, rfl⟩
  -- the sum of two weights is exact
  have hsum := h.weights
  simp only [List.map_cons, List.sum_cons] at hsum
  have hbound : (lq.map fun e => e.weight.toNat).sum ≤ lq.length * 2 ^ 31 := by
    have := List.sum_le_card_nsmul (lq.map fun e => e.weight.toNat) (2 ^ 31) (by
      intro x hx
      obtain ⟨e, he, rfl⟩ := List.mem_map.1 hx
      exact (hl.weight e he).2.le)
    simpa using this
  have hexact : (a.weight + b.weight).toNat = a.weight.toNat + b.weight.toNat := by
    rw [BitVec.toNat_add]
    exact Nat.mod_eq_of_lt (by omega)
  refine ⟨?_, ?_, ?_, ?_, ?_, ?_, ?_, ?_, ?_, ?_, ?_⟩
  · -- entry
    intro e he
    rcases List.mem_cons.1 he with rfl | he
    · exact ⟨_, hmerged, rfl, rfl, rfl⟩
    · obtain ⟨nd, hnd, hw, hs, hp⟩ := h.entry e (List.mem_cons_of_mem _ (List.mem_cons_of_mem _ he))
      have hea : e.ix ≠ a.ix := fun heq => hixs.1.2 (List.mem_map.2 ⟨e, he, heq⟩)
      have heb : e.ix ≠ b.ix := fun heq => hixs.2.1 (List.mem_map.2 ⟨e, he, heq⟩)
      refine ⟨nd, ?_, hw, hs, hp⟩
      rw [hat, if_neg (hne _ _ hnd), if_neg (by simp [hea, heb]), hnd]
  · -- ixs
    refine List.nodup_cons.2 ⟨fun hmem => ?_, hixs.2.2⟩
    obtain ⟨e, he, heq⟩ := List.mem_map.1 hmem
    obtain ⟨nd, hnd, -⟩ := h.entry e (List.mem_cons_of_mem _ (List.mem_cons_of_mem _ he))
    exact hne _ _ hnd heq
  · -- symbols
    have hs := h.symbols
    simp only [List.map_cons, List.nodup_cons, List.mem_cons, not_or] at hs
    exact List.nodup_cons.2 ⟨hs.1.2, hs.2.2⟩
  · -- count
    simp only [List.length_cons]
    omega
  · -- weights
    simp only [List.map_cons, List.sum_cons, mergedEntry, hexact]
    omega
  · -- tops
    intro n nd hn hp
    rcases hnew n nd hn with ⟨rfl, rfl⟩ | ⟨-, nd0, hn0, -, -, -, -, hpar⟩
    · exact List.mem_cons_self ..
    · rcases hpar with ⟨-, hp'⟩ | ⟨hna', hnb', hp'⟩
      · rw [hp'] at hp; cases hp
      · have := h.tops n nd0 hn0 (hp' ▸ hp)
        simp only [List.map_cons, List.mem_cons] at this
        rcases this with h1 | h1 | h1
        · exact absurd h1 hna'
        · exact absurd h1 hnb'
        · exact List.mem_cons_of_mem _ h1
  · -- leaf
    intro n nd hlt hn
    rcases hnew n nd hn with ⟨rfl, -⟩ | ⟨-, nd0, hn0, hw, hs, h0, h1, -⟩
    · omega
    · obtain ⟨e, he, hen, hew, hes, hc0, hc1⟩ := h.leaf n nd0 hlt hn0
      exact ⟨e, he, hen, hw.trans hew, hs.trans hes, h0.trans hc0, h1.trans hc1⟩
  · -- leaves
    intro e he
    obtain ⟨nd, hnd⟩ := Option.isSome_iff_exists.1 (h.leaves e he)
    obtain ⟨nd', hnd', -⟩ := hold _ _ hnd
    rw [hnd']; rfl
  · -- used
    intro p hp
    by_cases hpm : p = mergeIx k
    · subst hpm
      rw [hmerged]
      simp only [Option.isSome_some, true_iff]
      omega
    · have hpv : p.val ≠ 256 + k := fun heq => hpm (Fin.ext (heq.trans hm.symm))
      have hiff := h.used p hp
      constructor
      · intro hs
        obtain ⟨nd', hnd'⟩ := Option.isSome_iff_exists.1 hs
        rcases hnew p nd' hnd' with ⟨hpm', -⟩ | ⟨-, nd, hnd, -⟩
        · exact absurd hpm' hpm
        · have := hiff.1 (by rw [hnd]; rfl)
          omega
      · intro hlt
        obtain ⟨nd, hnd⟩ := Option.isSome_iff_exists.1 (hiff.2 (by omega))
        obtain ⟨nd', hnd', -⟩ := hold _ _ hnd
        rw [hnd']; rfl
  · -- inner
    intro p nd hp hn
    rcases hnew p nd hn with ⟨rfl, rfl⟩ | ⟨-, nd0, hn0, hw, hs, h0, h1, -⟩
    · obtain ⟨na', hna', hwa', hsa', hpa'⟩ := hachild
      obtain ⟨nb', hnb', hwb', hpb'⟩ := hbchild
      refine ⟨a.ix, b.ix, na', nb', rfl, rfl, hab, ?_, ?_, hna', hnb', hpa', hpb', ?_, hsa'.symm⟩
      · rw [hm]; exact hbelow _ _ hna
      · rw [hm]; exact hbelow _ _ hnb
      · rw [hwa', hwb']; exact hexact
    · obtain ⟨x, y, nx, ny, hx0, hy1, hxy, hxp, hyp, hnx, hny, hpx, hpy, hwt, hsy⟩ := h.inner p nd0 hp hn0
      obtain ⟨nx', hnx', hwx, hsx, -, -, hpx'⟩ := hold _ _ hnx
      obtain ⟨ny', hny', hwy, -, -, -, hpy'⟩ := hold _ _ hny
      refine ⟨x, y, nx', ny', h0.trans hx0, h1.trans hy1, hxy, hxp, hyp, hnx', hny', hpx' _ hpx, hpy' _ hpy, ?_, ?_⟩
      · rw [hw, hwx, hwy]; exact hwt
      · rw [hs, hsx]; exact hsy
  · -- up
    intro n nd p hn hp
    rcases hnew n nd hn with ⟨rfl, rfl⟩ | ⟨-, nd0, hn0, -, -, -, -, hpar⟩
    · cases hp
    · rcases hpar with ⟨hnab, hp'⟩ | ⟨-, -, hp'⟩
      · rw [hp'] at hp
        cases hp
        refine ⟨by omega, by rw [hm]; exact hbelow _ _ hn0, mergedNode a b, hmerged, ?_⟩
        rcases hnab with rfl | rfl
        · exact .inl rfl
        · exact .inr rfl
      · obtain ⟨h256, hlt, np, hnp, hc⟩ := h.up n nd0 p hn0 (hp' ▸ hp)
        obtain ⟨np', hnp', -, -, hc0, hc1, -⟩ := hold _ _ hnp
        exact ⟨h256, hlt, np', hnp', by rw [hc0, hc1]; exact hc⟩

/-- The order of a queue's elements is no matter to the invariant. -/
theorem loopOk_perm {lq : List QueueNode} {k : Nat} {nodes : Arena} {q q' : List QueueNode} (hp : q.Perm q')
    (h : LoopOk lq k nodes q) : LoopOk lq k nodes q' where
  entry e he := h.entry e (hp.mem_iff.2 he)
  ixs := (hp.map _).nodup_iff.1 h.ixs
  symbols := (hp.map _).nodup_iff.1 h.symbols
  count := by rw [← hp.length_eq]; exact h.count
  weights := by rw [← (hp.map _).sum_eq]; exact h.weights
  tops n nd hn hpar := (hp.map _).mem_iff.1 (h.tops n nd hn hpar)
  leaf := h.leaf
  leaves := h.leaves
  used := h.used
  inner := h.inner
  up := h.up

/-- The merge loop ends with the invariant and at most one element in the queue (41_tree_build.md R144). -/
theorem mergeLoop_ok {lq : List QueueNode} (hl : LeavesOk lq) :
    ∀ (fuel k : Nat) (nodes : Arena) (q : List QueueNode), q.length ≤ fuel → LoopOk lq k nodes q →
      ∃ k', LoopOk lq k' (mergeLoop fuel k nodes q).1 (mergeLoop fuel k nodes q).2 ∧
        (mergeLoop fuel k nodes q).2.length = min q.length 1
  | fuel, k, nodes, [], _, h => by
    refine ⟨k, ?_, ?_⟩ <;> cases fuel <;> first | exact h | rfl
  | fuel, k, nodes, [e], _, h => by
    refine ⟨k, ?_, ?_⟩ <;> cases fuel <;> first | exact h | rfl
  | 0, k, nodes, e :: x :: q, hf, _ => absurd hf (by simp)
  | fuel + 1, k, nodes, e :: x :: q, hf, h => by
    have hp1 := extractFirst_perm e (x :: q)
    have hl1 := extractFirst_length e (x :: q)
    simp only [mergeLoop]
    generalize extractFirst e (x :: q) = r1 at hp1 hl1
    obtain ⟨a, q1⟩ := r1
    cases q1 with
    | nil => simp at hl1
    | cons e1 q1 =>
      have hp2 := extractFirst_perm e1 q1
      have hl2 := extractFirst_length e1 q1
      dsimp only
      generalize extractFirst e1 q1 = r2 at hp2 hl2
      obtain ⟨b, q2⟩ := r2
      have h' : LoopOk lq k nodes (a :: b :: q2) := loopOk_perm (hp1.symm.trans (hp2.symm.cons a)) h
      simp only [List.length_cons] at hl1 hl2 hf
      have hrec := mergeLoop_ok hl fuel (k + 1) (mergeNodes k a b nodes) (mergedEntry k a b :: q2)
        (by simp only [List.length_cons]; omega) (loopOk_merge hl h')
      obtain ⟨k', hk, hlen⟩ := hrec
      refine ⟨k', hk, hlen.trans ?_⟩
      simp only [List.length_cons]
      omega

/-! ### The built tree -/

/-- What TREE_BUILD leaves, in the terms of the merge loop: `L - 1` merges, or none for an empty table. -/
theorem mergedLeaves_ok {lq : List QueueNode} (hl : LeavesOk lq) :
    LoopOk lq (lq.length - 1) (mergedLeaves lq Tree.empty.nodes).1 (mergedLeaves lq Tree.empty.nodes).2 ∧
      (mergedLeaves lq Tree.empty.nodes).2.length = min lq.length 1 := by
  obtain ⟨k, hk, hlen⟩ := mergeLoop_ok hl lq.length 0 _ lq (Nat.le_refl _) (loopOk_start hl)
  have hc := hk.count
  rw [hlen] at hc
  have : k = lq.length - 1 := by omega
  exact ⟨this ▸ hk, hlen⟩

theorem leavesOf_leafTable {q : List QueueNode} (h : LeavesOk q) {t : Tree} (ht : t.leaf = leafTable q) :
    leavesOf t = q.length := by
  have hs : ∀ sym : Byte, (leafTable q)[(symIx sym).val]'(symIx sym).isLt =
      if sym ∈ q.map QueueNode.symbol then some (leafIx sym) else none := getElem_leafTable h.ix
  have hlist : (leafTable q).toList = (List.finRange 256).map fun i => (leafTable q)[i.val]'i.isLt := by
    apply List.ext_getElem <;> simp
  have hcount : leavesOf t = ((List.finRange 256).filter fun i => BitVec.ofFin i ∈ q.map QueueNode.symbol).length := by
    rw [leavesOf, ht, hlist, List.countP_map, List.countP_eq_length_filter]
    congr 1
    refine List.filter_congr fun i _ => ?_
    have := hs (BitVec.ofFin i)
    have hi : (symIx (BitVec.ofFin i)).val = i.val := rfl
    simp only [hi] at this
    simp only [Function.comp_apply, this]
    split <;> simp_all
  rw [hcount]
  have hnd : (((List.finRange 256).filter fun i => BitVec.ofFin i ∈ q.map QueueNode.symbol).map
      (BitVec.ofFin : Fin (2 ^ 8) → Byte)).Nodup :=
    ((List.nodup_finRange 256).filter _).map fun a b hab => by simpa using hab
  have hperm : (((List.finRange 256).filter fun i => BitVec.ofFin i ∈ q.map QueueNode.symbol).map
      (BitVec.ofFin : Fin (2 ^ 8) → Byte)).Perm (q.map QueueNode.symbol) := by
    refine (List.perm_ext_iff_of_nodup hnd h.symbols).2 fun b => ?_
    simp only [List.mem_map, List.mem_filter, List.mem_finRange, true_and, decide_eq_true_eq]
    constructor
    · rintro ⟨i, ⟨e, he, hes⟩, rfl⟩
      exact ⟨e, he, hes⟩
    · rintro ⟨e, he, hes⟩
      exact ⟨b.toFin, ⟨e, he, hes⟩, rfl⟩
  simpa using hperm.length_eq

/-- TREE_BUILD, from an empty arena and a table with no negative entry, makes a tree that keeps the invariant. -/
theorem builtOk_builtTree {freq : FreqTable} (hf : firstNegative freq = none) :
    BuiltOk (builtTree freq Tree.empty.nodes) := by
  have hl := leafQueue_ok hf
  obtain ⟨hk, hlen⟩ := mergedLeaves_ok hl
  have hleaf := getElem_leafTable hl.ix
  have hL : leavesOf (builtTree freq Tree.empty.nodes) = (leafQueue freq).length := leavesOf_leafTable hl rfl
  have hroot : ∀ r, (builtTree freq Tree.empty.nodes).root = some r ↔
      r ∈ (mergedLeaves (leafQueue freq) Tree.empty.nodes).2.map QueueNode.ix := by
    intro r
    show (mergedLeaves (leafQueue freq) Tree.empty.nodes).2.head?.map QueueNode.ix = some r ↔ _
    generalize (mergedLeaves (leafQueue freq) Tree.empty.nodes).2 = q at hlen
    match q, hlen with
    | [], _ => simp
    | [e], _ => simp [eq_comm]
    | _ :: _ :: _, h => simp only [List.length_cons] at h; omega
  refine ⟨?_, ?_, ?_, hk.inner, hk.up, ?_, ?_⟩
  · intro sym n hn
    have hn : (leafTable (leafQueue freq))[(symIx sym).val]'(symIx sym).isLt = some n := hn
    rw [hleaf] at hn
    split at hn
    · rename_i hmem
      cases hn
      obtain ⟨e, he, rfl⟩ := List.mem_map.1 hmem
      obtain ⟨nd, hnd⟩ := Option.isSome_iff_exists.1 (hk.leaves e he)
      have hix := hl.ix e he
      rw [hix] at hnd
      obtain ⟨e', he', hix', hw, hs, h0, h1⟩ := hk.leaf _ nd (leafIx_lt _) hnd
      have hse : e'.symbol = e.symbol := leafIx_inj ((hl.ix e' he').symm.trans hix')
      exact ⟨rfl, nd, hnd, hs.trans hse, h0, h1, hw ▸ (hl.weight e' he').1, hw ▸ (hl.weight e' he').2⟩
    · cases hn
  · intro sym hn
    have hn : (leafTable (leafQueue freq))[(symIx sym).val]'(symIx sym).isLt = none := hn
    rw [hleaf] at hn
    split at hn
    · cases hn
    · rename_i hmem
      by_contra hne
      obtain ⟨nd, hnd⟩ := Option.ne_none_iff_exists'.1 hne
      obtain ⟨e, he, hix, -⟩ := hk.leaf _ nd (leafIx_lt _) hnd
      exact hmem (List.mem_map.2 ⟨e, he, leafIx_inj ((hl.ix e he).symm.trans hix)⟩)
  · intro p hp
    rw [hL]
    have := hk.used p hp
    rw [show (builtTree freq Tree.empty.nodes).nodes = (mergedLeaves (leafQueue freq) Tree.empty.nodes).1 from rfl, this]
    omega
  · intro n nd hn
    rw [hroot]
    refine ⟨hk.tops n nd hn, fun hmem => ?_⟩
    obtain ⟨e, he, rfl⟩ := List.mem_map.1 hmem
    obtain ⟨nd', hnd', -, -, hp⟩ := hk.entry e he
    have hn : nodeAt (mergedLeaves (leafQueue freq) Tree.empty.nodes).1 e.ix = some nd := hn
    rw [hnd'] at hn
    cases hn
    exact hp
  · intro r hr
    obtain ⟨e, he, rfl⟩ := List.mem_map.1 ((hroot r).1 hr)
    obtain ⟨nd, hnd, -⟩ := hk.entry e he
    show (nodeAt (mergedLeaves (leafQueue freq) Tree.empty.nodes).1 e.ix).isSome = true
    rw [hnd]; rfl

end Sys2Proof.Machine
end

