-- ==== Sys2Proof/Laws/Builds.lean ====
section
/-! SUPPORT. What TREE_BUILD gives in terms of the frequency table: when it is refused, which symbols are present, how many
leaves there are and what their weights sum to (41_tree_build.md R140, R141, R147). -/

namespace Sys2Proof.Machine

/-- No entry is refused exactly if bit 31 of every entry is clear (41_tree_build.md R141). -/
theorem firstNegative_eq_none (s : State) : firstNegative s.freq = none ↔ ∀ sym, (freqAt sym s).getLsbD 31 = false := by
  rw [firstNegative, List.findIdx?_eq_none_iff]
  constructor
  · intro h sym
    exact h _ (by simp [freqAt])
  · intro h x hx
    obtain ⟨i, hi, rfl⟩ := List.mem_iff_getElem.1 hx
    have := h (BitVec.ofNat 8 i)
    simp at hi
    simpa [freqAt, symIx, Nat.mod_eq_of_lt hi, isNegative] using this

/-- The leaf count is the number of nonzero entries. -/
theorem length_leafQueue (freq : FreqTable) : (leafQueue freq).length = freq.toList.countP (fun w => w != 0) := by
  have h := congrArg List.length (leafQueue_symbols freq)
  rw [List.length_map, List.length_map] at h
  rw [h, ← List.countP_eq_length_filter]
  have : ∀ (l : List Word) (k : Nat), (l.zipIdx k).countP (fun e => e.1 != 0) = l.countP (fun w => w != 0) := by
    intro l
    induction l with
    | nil => intro k; rfl
    | cons x l ih => intro k; simp only [List.zipIdx_cons, List.countP_cons, ih]
  exact this _ _

/-- LEAF refers to exactly the symbols with a nonzero entry. -/
theorem builtTree_leaf (freq : FreqTable) (sym : Byte) :
    (builtTree freq Tree.empty.nodes).leaf[(symIx sym).val]'(symIx sym).isLt =
      if freq[(symIx sym).val]'(symIx sym).isLt = 0 then none else some (leafIx sym) := by
  have := getElem_leafTable (q := leafQueue freq) (fun e he => ((mem_leafQueue freq e).1 he).1) sym
  rw [show (builtTree freq Tree.empty.nodes).leaf = leafTable (leafQueue freq) from rfl, this]
  by_cases h : freq[(symIx sym).val]'(symIx sym).isLt = 0
  · rw [if_pos h, if_neg]
    intro hm
    obtain ⟨e, he, rfl⟩ := List.mem_map.1 hm
    exact ((mem_leafQueue freq e).1 he).2.2 h
  · rw [if_neg h, if_pos]
    exact List.mem_map.2 ⟨⟨leafIx sym, leafWeight (freq[(symIx sym).val]'(symIx sym).isLt), sym⟩,
      (mem_leafQueue freq _).2 ⟨rfl, rfl, h⟩, rfl⟩

/-- The leaves' weights sum to the sum of the table. -/
theorem sum_leafQueue (freq : FreqTable) :
    ((leafQueue freq).map fun e => e.weight.toNat).sum = (freq.toList.map BitVec.toNat).sum := by
  have : ∀ (l : List Word) k, ((l.zipIdx k).filterMap (fun e => leafEntry e.1 e.2)).map (fun e => e.weight.toNat) =
      (l.filter (fun w => w != 0)).map BitVec.toNat := by
    intro l
    induction l with
    | nil => intro k; rfl
    | cons x l ih =>
      intro k
      rw [List.zipIdx_cons, List.filterMap_cons]
      by_cases h : x = 0
      · have hf : (x != 0) = false := by simpa using h
        rw [List.filter_cons_of_neg (by rw [hf]; simp), leafEntry, if_pos h]; exact ih _
      · have hf : (x != 0) = true := by simpa using h
        rw [List.filter_cons_of_pos (p := fun w : Word => w != 0) hf, leafEntry, if_neg h]
        simp only [List.map_cons, ih, leafWeight]
        have := x.isLt
        rw [BitVec.toNat_setWidth, Nat.mod_eq_of_lt (by omega)]
  rw [leafQueue, this]
  generalize freq.toList = l
  induction l with
  | nil => rfl
  | cons x l ih =>
    by_cases h : x = 0
    · rw [List.filter_cons_of_neg (by subst h; decide), ih]; subst h; simp
    · rw [List.filter_cons_of_pos (by simpa using h), List.map_cons, List.map_cons, List.sum_cons, List.sum_cons, ih]

/-- A tree that keeps the invariant and shows any sign of a build is as TREE_BUILD leaves it. -/
theorem treeOk_built {t : Tree} (h : TreeOk t)
    (hr : t.root ≠ none ∨ t.built = true ∨ ∃ sym, t.leaf[(symIx sym).val]'(symIx sym).isLt ≠ none) : BuiltOk t := by
  rw [TreeOk] at h
  split at h
  · exact h
  · subst h
    rcases hr with hr | hr | ⟨sym, hr⟩
    · exact absurd rfl hr
    · cases hr
    · exfalso; apply hr; simp [Tree.empty]

/-- TREE_BUILD of an unbuilt tree with no entry refused. -/
theorem execTreeBuild_ok {s : State} (hi : BlockInv s) (hb : s.tree.built = false)
    (hn : ∀ sym, (freqAt sym s).getLsbD 31 = false) :
    execTreeBuild s =
        .next (complete .ok (natResult (leafCount s.freq)) (setTree (builtTree s.freq Tree.empty.nodes) s)) ∧
      BuiltOk (builtTree s.freq Tree.empty.nodes) := by
  have ht : s.tree = Tree.empty := by have := hi.tree; rw [TreeOk, hb, if_neg (by simp)] at this; exact this
  have hf := (firstNegative_eq_none s).2 hn
  refine ⟨?_, builtOk_builtTree hf⟩
  rw [execTreeBuild, hb, if_neg (by simp), hf, ht]

end Sys2Proof.Machine
end

