-- ==== Sys2Proof/Laws/Streams.lean ====
section
/-! SUPPORT. The bit actions as operations on bit sequences: a read takes the first of the bits still to come, a write adds
one to the bits accepted (20_memory.md R53, R54). -/

namespace Sys2Proof.Machine

/-! ### Bits of bytes -/

theorem byteBits_length (b : Byte) : (byteBits b).length = 8 := by simp [byteBits]

theorem byteBits_getElem (b : Byte) (i : Nat) (h : i < (byteBits b).length) : (byteBits b)[i] = bitAt b i := by
  simp [byteBits]

theorem byteBits_drop (b : Byte) {p : Nat} (hp : p < 8) :
    (byteBits b).drop p = bitAt b p :: (byteBits b).drop (p + 1) := by
  rw [List.drop_eq_getElem_cons (by rw [byteBits_length]; exact hp), byteBits_getElem]

theorem bitsOf_length (bs : List Byte) : (bitsOf bs).length = 8 * bs.length := by
  induction bs with
  | nil => rfl
  | cons b bs ih =>
    rw [bitsOf, List.flatMap_cons, List.length_append, byteBits_length, List.length_cons, ← bitsOf, ih]
    omega

theorem bitsOf_cons (b : Byte) (bs : List Byte) : bitsOf (b :: bs) = byteBits b ++ bitsOf bs := rfl

theorem bitsOf_append (bs cs : List Byte) : bitsOf (bs ++ cs) = bitsOf bs ++ bitsOf cs := by
  simp [bitsOf]

theorem bitsOf_nil : bitsOf [] = [] := rfl

/-! ### Reading -/

/-- The bits of the reader's cache that are still to be read (10_state.md R23). -/
def pendingBits (r : Reader) : List Bool := (byteBits r.byte).drop r.pos.val

theorem pendingBits_length (r : Reader) : (pendingBits r).length = 8 - r.pos.val := by
  rw [pendingBits, List.length_drop, byteBits_length]

theorem pendingBits_exhausted {r : Reader} (h : r.pos.val = 8) : pendingBits r = [] := by
  apply List.eq_nil_of_length_eq_zero
  rw [pendingBits_length, h]

/-- The state after `read` bytes have been taken from the source and the reader is `r`. -/
def afterReads (s : State) (r : Reader) (read left : List Byte) (rest : List (Option SrcAnswer)) : State :=
  { s with
    br := r
    src := dataAnswers left ++ rest
    trace := s.trace ++ read.map fun b => .srcRead (.data b) }

theorem takeBit_eq (s : State) (hp : s.br.pos.val < 8) :
    ∃ r : Reader, takeBit s = (.bit (bitAt s.br.byte s.br.pos.val), setBr r s) ∧ r.eos = s.br.eos ∧
      r.pos.val = s.br.pos.val + 1 ∧ pendingBits s.br = bitAt s.br.byte s.br.pos.val :: pendingBits r := by
  refine ⟨_, rfl, rfl, ?_, ?_⟩
  · rw [posNext_val]; omega
  · rw [pendingBits, byteBits_drop _ hp, pendingBits, posNext_val, Nat.min_eq_left (by omega)]

/-- A bit read takes the first of the bits in the cache and in the bytes to come, and asks for a byte only where the cache
is exhausted. -/
theorem readBitCore_bit {s : State} {bs : List Byte} {rest : List (Option SrcAnswer)} {v : Bool} {more : List Bool}
    (he : s.br.eos = false) (hs : s.src = dataAnswers bs ++ rest) (hb : pendingBits s.br ++ bitsOf bs = v :: more) :
    ∃ r read left, readBitCore s = (.bit v, afterReads s r read left rest) ∧ r.eos = false ∧ bs = read ++ left ∧
      read.length = (if s.br.pos.val = 8 then 1 else 0) ∧ pendingBits r ++ bitsOf left = more := by
  rcases Nat.lt_or_ge s.br.pos.val 8 with hp | hp
  · obtain ⟨r, hr, hre, -, hpend⟩ := takeBit_eq s hp
    rw [hpend, List.cons_append, List.cons.injEq] at hb
    refine ⟨r, [], bs, ?_, hre.trans he, rfl, by rw [if_neg (by omega)]; rfl, hb.2⟩
    rw [readBitCore_cached s he hp, hr, hb.1]
    simp [afterReads, setBr, hs]
  · have hp : s.br.pos.val = 8 := Nat.le_antisymm (pos_le _) hp
    rw [pendingBits_exhausted hp, List.nil_append] at hb
    cases bs with
    | nil => cases hb
    | cons b bs =>
      obtain ⟨r, hr, hre, -, hpend⟩ := takeBit_eq (setBr (refilled b s.br) (record (.srcRead (.data b)) (popSrc s)))
        (by decide : (0 : Pos).val < 8)
      have hfull : pendingBits (refilled b s.br) = byteBits b := rfl
      rw [setBr_br, hfull] at hpend
      rw [bitsOf_cons, hpend, List.cons_append, List.cons.injEq] at hb
      refine ⟨r, [b], bs, ?_, hre.trans he, rfl, by rw [if_pos hp]; rfl, hb.2⟩
      rcases readBitCore_cases s with ⟨he', -⟩ | ⟨-, hp', -⟩ | ⟨-, -, ⟨b', rest', hs', h⟩ | ⟨rest', hs', h⟩ |
        ⟨rest', hs', h⟩ | ⟨rest', hs', h⟩ | ⟨hs', h⟩⟩
      · rw [he] at he'; cases he'
      · omega
      · rw [hs] at hs'
        cases hs'
        rw [h, hr, ← hb.1]
        simp [afterReads, setBr, record, popSrc, hs, dataAnswers]
      all_goals rw [hs] at hs'; cases hs'

/-- With the cache exhausted, the answer the source gives to the refill decides. -/
theorem readBitCore_exhausted {s : State} {a : SrcAnswer} {rest : List (Option SrcAnswer)} (he : s.br.eos = false)
    (hp : s.br.pos.val = 8) (hs : s.src = some a :: rest) :
    (a = .atEnd → readBitCore s = (.eos, setBr (latched s.br) (record (.srcRead .atEnd) (popSrc s)))) ∧
      (a = .ioErr → readBitCore s = (.srcIo, record (.srcRead .ioErr) (popSrc s))) := by
  rcases readBitCore_cases s with ⟨he', -⟩ | ⟨-, hp', -⟩ | ⟨-, -, ⟨b', rest', hs', h⟩ | ⟨rest', hs', h⟩ |
    ⟨rest', hs', h⟩ | ⟨rest', hs', h⟩ | ⟨hs', h⟩⟩
  · rw [he] at he'; cases he'
  · omega
  all_goals rw [hs] at hs'; cases hs'
  · exact ⟨fun h => (by cases h), fun h => (by cases h)⟩
  · exact ⟨fun _ => h, fun h => (by cases h)⟩
  · exact ⟨fun h => (by cases h), fun _ => h⟩

/-- Successive bit reads take the bits to come, and ask for a byte only where its first bit is wanted. -/
theorem readMany_bits {rest : List (Option SrcAnswer)} : ∀ {c more : List Bool} {s : State} {bs : List Byte},
    s.br.eos = false → s.src = dataAnswers bs ++ rest → pendingBits s.br ++ bitsOf bs = c ++ more →
    ∃ r read left, readMany c.length s = (c.map .bit, afterReads s r read left rest) ∧ r.eos = false ∧ bs = read ++ left ∧
      pendingBits r ++ bitsOf left = more ∧ (r.pos.val = 0 → s.br.pos.val = 0) ∧
      8 * read.length + r.pos.val = c.length + s.br.pos.val
  | [], more, s, bs, he, hs, hb => ⟨s.br, [], bs, by simp [afterReads, ← hs, readMany], he, rfl, hb, id, by simp⟩
  | v :: c, more, s, bs, he, hs, hb => by
    rw [List.cons_append] at hb
    obtain ⟨r, read, left, hr, hre, rfl, hlen, hmore⟩ := readBitCore_bit he hs hb
    have hl1 := congrArg List.length hb
    have hl2 := congrArg List.length hmore
    rw [List.length_append, pendingBits_length, bitsOf_length] at hl1 hl2
    rw [List.length_append, hlen, List.length_cons] at hl1
    have hp := pos_le s.br.pos
    have hp' := pos_le r.pos
    have hpos : r.pos.val + 8 * read.length = s.br.pos.val + 1 + 8 * 0 := by
      rw [hlen]; split at hl1 <;> split <;> omega
    obtain ⟨r2, read2, left2, h2, hre2, rfl, hmore2, hz, hcount⟩ :=
      readMany_bits (s := afterReads s r read left rest) hre rfl hmore
    refine ⟨r2, read ++ read2, left2, ?_, hre2, (List.append_assoc ..).symm, hmore2, ?_, ?_⟩
    · rw [List.length_cons, readMany, hr]
      simp only [h2, List.map_cons]
      simp [afterReads]
    · intro h0
      have := hz h0
      have : r.pos.val = 0 := this
      split at hlen <;> omega
    · have hcount : 8 * read2.length + r2.pos.val = c.length + r.pos.val := hcount
      rw [List.length_append, List.length_cons]
      omega

/-! ### Writing -/

theorem cachedBits_length (w : Writer) : (cachedBits w).length = w.pos.val := by
  rw [cachedBits, List.length_take, byteBits_length]
  omega

theorem cachedBits_getElem (w : Writer) (i : Nat) (h : i < (cachedBits w).length) : (cachedBits w)[i] = bitAt w.byte i := by
  simp [cachedBits, byteBits_getElem]

theorem cachedBits_full {w : Writer} (h : w.pos.val = 8) : cachedBits w = byteBits w.byte := by
  rw [cachedBits, h, List.take_of_length_le (by rw [byteBits_length])]

theorem cachedBits_empty : cachedBits Writer.empty = [] := rfl

/-- A placed bit comes after the bits in the cache. -/
theorem cachedBits_placeBit (s : State) (v : Bool) (hp : s.bw.pos.val < 8) (hw : WriterOk s.bw) :
    cachedBits (placeBit v s).bw = cachedBits s.bw ++ [v] := by
  have hval : (placeBit v s).bw.pos.val = s.bw.pos.val + 1 := by
    rw [placeBit_bw, posNext_val]; omega
  apply List.ext_getElem
  · rw [List.length_append, cachedBits_length, cachedBits_length, hval, List.length_singleton]
  · intro i h1 h2
    rw [cachedBits_length, hval] at h1
    have hi8 : i < 8 := by omega
    have hlhs : (cachedBits (placeBit v s).bw)[i]'(by rw [cachedBits_length, hval]; exact h1) =
        (bitAt s.bw.byte i || (decide (i = s.bw.pos.val) && v)) := by
      rw [cachedBits_getElem, placeBit_bw, bitAt_or_bitMask _ _ hi8 hp]
    rw [hlhs]
    rcases Nat.lt_or_ge i s.bw.pos.val with hlt | hge
    · rw [List.getElem_append_left (by rw [cachedBits_length]; exact hlt)]
      have hne : decide (i = s.bw.pos.val) = false := decide_eq_false (by omega)
      rw [hne, Bool.false_and, Bool.or_false, cachedBits_getElem]
    · have hie : i = s.bw.pos.val := by omega
      rw [List.getElem_append_right (by rw [cachedBits_length]; exact hge), hw i hge hi8]
      simp [hie]

/-- The state after these bytes have been put at the sink and the writer is `w`. -/
def afterPuts (s : State) (w : Writer) (bs : List Byte) : State :=
  { s with
    bw := w
    snk := s.snk.drop bs.length
    trace := s.trace ++ bs.map fun b => .snkPut b .ok }

theorem afterPuts_afterPuts (s : State) (w w' : Writer) (bs bs' : List Byte) :
    afterPuts (afterPuts s w bs) w' bs' = afterPuts s w' (bs ++ bs') := by
  simp [afterPuts]

/-- The bytes these puts added at the sink. -/
theorem newSinkBytes_afterPuts (s : State) (w : Writer) (bs : List Byte) : newSinkBytes s (afterPuts s w bs) = bs := by
  simp [newSinkBytes, sinkBytes, afterPuts, List.filterMap_append, List.filterMap_map, Function.comp_def, putByte]

/-- A bit write that is accepted: a full cache is put first, and the bit comes after the bits accepted before. -/
theorem writeBitCore_ok {s t : State} {v : Bool} (hw : WriterOk s.bw) (h : writeBitCore v s = (.ok, t)) :
    ∃ w bs, t = afterPuts s w bs ∧ 8 * bs.length + w.pos.val = s.bw.pos.val + 1 ∧ 1 ≤ w.pos.val ∧
      bitsOf bs ++ cachedBits w = cachedBits s.bw ++ [v] ∧ WriterOk w := by
  have hok := writerOk_writeBitCore s v hw
  rcases writeBitCore_cases s v with ⟨hp, hr⟩ | ⟨hp, ⟨rest, hs, hr⟩ | ⟨rest, hs, hr⟩ | ⟨rest, hs, hr⟩ | ⟨hs, hr⟩⟩
  · rw [hr] at h hok
    cases h
    refine ⟨(placeBit v s).bw, [], ?_, ?_, ?_, cachedBits_placeBit s v hp hw, hok⟩
    · simp [afterPuts, placeBit, setBw]
    · rw [placeBit_bw, posNext_val, List.length_nil]; omega
    · rw [placeBit_bw, posNext_val]; omega
  · rw [hr] at h hok
    cases h
    refine ⟨_, [s.bw.byte], ?_, ?_, ?_, ?_, hok⟩
    · simp only [afterPuts, placeBit, setBw, record, popSnk, hs]
      rfl
    · show 8 * 1 + 1 = s.bw.pos.val + 1
      omega
    · show 1 ≤ 1
      omega
    · rw [cachedBits_placeBit _ v (by decide : (Writer.empty).pos.val < 8) writerOk_empty, cachedBits_full hp]
      show bitsOf [s.bw.byte] ++ (cachedBits Writer.empty ++ [v]) = _
      rw [cachedBits_empty, bitsOf_cons, bitsOf_nil]
      simp
  all_goals rw [hr] at h; cases h

/-- A bit sequence that is accepted whole. -/
theorem writeMany_ok : ∀ {vs : List Bool} {s t : State}, WriterOk s.bw → writeMany vs s = (.ok, t) →
    ∃ w bs, t = afterPuts s w bs ∧ 8 * bs.length + w.pos.val = s.bw.pos.val + vs.length ∧ (vs ≠ [] ∨ 1 ≤ s.bw.pos.val → 1 ≤ w.pos.val) ∧
      bitsOf bs ++ cachedBits w = cachedBits s.bw ++ vs ∧ WriterOk w
  | [], s, t, hw, h => by
    cases h
    exact ⟨s.bw, [], by simp [afterPuts], by simp, fun h => h.resolve_left (fun h => h rfl), by simp [bitsOf_nil], hw⟩
  | v :: vs, s, t, hw, h => by
    rw [writeMany] at h
    cases hr : writeBitCore v s with
    | mk res u =>
      rw [hr] at h
      cases res with
      | ok =>
        obtain ⟨w, bs, rfl, hlen, hpos, hbits, hw'⟩ := writeBitCore_ok hw hr
        obtain ⟨w2, bs2, rfl, hlen2, hpos2, hbits2, hw2⟩ := writeMany_ok (s := afterPuts s w bs) hw' h
        have hbw : (afterPuts s w bs).bw = w := rfl
        rw [hbw] at hlen2 hbits2
        refine ⟨w2, bs ++ bs2, afterPuts_afterPuts .., ?_, ?_, ?_, hw2⟩
        · rw [List.length_append, List.length_cons]; omega
        · exact fun _ => hpos2 (.inr hpos)
        · rw [bitsOf_append, List.append_assoc, hbits2, ← List.append_assoc, hbits, List.append_assoc]
          rfl
      | sinkIo => cases h
      | waits => cases h

theorem okAnswers_succ (m : Nat) : okAnswers (m + 1) = some .ok :: okAnswers m := rfl

/-- A sink that answers enough puts with OK accepts the whole sequence. -/
theorem writeMany_accepts : ∀ {vs : List Bool} {s : State} {m : Nat} {rest : List (Option SnkAnswer)},
    s.snk = okAnswers m ++ rest → s.bw.pos.val + vs.length ≤ 8 * (m + 1) → ∃ t, writeMany vs s = (.ok, t)
  | [], s, _, _, _, _ => ⟨s, rfl⟩
  | v :: vs, s, m, rest, hs, hm => by
    rw [List.length_cons] at hm
    rw [writeMany]
    rcases writeBitCore_cases s v with ⟨hp, hr⟩ | ⟨hp, hr⟩
    · rw [hr]
      refine writeMany_accepts (m := m) (rest := rest) hs ?_
      rw [placeBit_bw, posNext_val]
      omega
    · cases m with
      | zero => omega
      | succ m =>
        rw [okAnswers_succ, List.cons_append] at hs
        rcases hr with ⟨rest', hs', hr⟩ | ⟨rest', hs', hr⟩ | ⟨rest', hs', hr⟩ | ⟨hs', hr⟩
        · rw [hr]
          refine writeMany_accepts (m := m) (rest := rest) ?_ ?_
          · rw [placeBit_snk, setBw_snk, record_snk, popSnk_snk, hs]
            rfl
          · show 1 + vs.length ≤ 8 * (m + 1)
            omega
        all_goals rw [hs] at hs'; cases hs'

/-- A sequence written in two parts. -/
theorem writeMany_append {vs ws : List Bool} {s t : State} (h : writeMany vs s = (.ok, t)) :
    writeMany (vs ++ ws) s = writeMany ws t := by
  induction vs generalizing s with
  | nil => cases h; rfl
  | cons v vs ih =>
    rw [List.cons_append, writeMany]
    rw [writeMany] at h
    cases hr : writeBitCore v s with
    | mk res u =>
      rw [hr] at h
      cases res with
      | ok => exact ih h
      | sinkIo => cases h
      | waits => cases h

/-- ENC_SYM's loop goes on after the bits that are accepted. -/
theorem writeCode_append {sym : Byte} {c d : List Bool} {k : Nat} {s t : State} (h : writeMany c s = (.ok, t)) :
    writeCode sym (c ++ d) k s = writeCode sym d (k + c.length) t := by
  induction c generalizing s k with
  | nil => cases h; rfl
  | cons v c ih =>
    rw [List.cons_append, writeCode]
    rw [writeMany] at h
    cases hr : writeBitCore v s with
    | mk res u =>
      rw [hr] at h
      cases res with
      | ok =>
        have := ih (k := k + 1) h
        rw [List.length_cons]
        rw [show k + (c.length + 1) = k + 1 + c.length by omega]
        exact this
      | sinkIo => cases h
      | waits => cases h

/-! ### Transactions that are not answered -/

/-- A source that does not answer leaves the command waiting. -/
theorem srcRead_unanswered {s : State} {rest : List (Option SrcAnswer)} (h : Unanswered s.src rest) :
    srcRead s = (none, { s with src := rest, waiting := some .srcRead }) := by
  rcases h with ⟨h, rfl⟩ | h <;> simp [srcRead, h, waitOn, popSrc]

/-- A sink that does not answer a put leaves the command waiting. -/
theorem snkPut_unanswered {s : State} {b : Byte} {rest : List (Option SnkAnswer)} (h : Unanswered s.snk rest) :
    snkPut b s = (none, { s with snk := rest, waiting := some (.snkPut b) }) := by
  rcases h with ⟨h, rfl⟩ | h <;> simp [snkPut, h, waitOn, popSnk]

/-- A sink that does not answer a sync leaves the command waiting. -/
theorem snkSync_unanswered {s : State} {rest : List (Option SnkAnswer)} (h : Unanswered s.snk rest) :
    snkSync s = (none, { s with snk := rest, waiting := some .snkSync }) := by
  rcases h with ⟨h, rfl⟩ | h <;> simp [snkSync, h, waitOn, popSnk]

/-- A bit read that needs a byte waits where the source does not answer. -/
theorem readBitCore_unanswered {s : State} {rest : List (Option SrcAnswer)} (he : s.br.eos = false)
    (hp : s.br.pos.val = 8) (h : Unanswered s.src rest) :
    readBitCore s = (.waits, { s with src := rest, waiting := some .srcRead }) := by
  rw [readBitCore, he, if_neg (by simp), if_pos (by omega), srcRead_unanswered h]

/-- A bit write that must put the full cache waits where the sink does not answer. -/
theorem writeBitCore_unanswered {s : State} {v : Bool} {rest : List (Option SnkAnswer)} (hp : s.bw.pos.val = 8)
    (h : Unanswered s.snk rest) :
    writeBitCore v s = (.waits, { s with snk := rest, waiting := some (.snkPut s.bw.byte) }) := by
  rw [writeBitCore, if_pos (by omega), snkPut_unanswered h]

end Sys2Proof.Machine
end

