-- ==== Sys2Proof/Laws/Paths.lean ====
section
/-! SUPPORT. Paths in a tree that TREE_BUILD has left: the walk up and the walk down take the same path, it is the only
one, and it is short (10_state.md R34; 42_encode.md R171; 43_decode.md R191). -/

namespace Sys2Proof.Machine

/-! ### Descending -/

theorem descend_nil {nodes : Arena} {n : NodeIx} {nd : Node} (h : nodeAt nodes n = some nd) :
    descend nodes n [] = some n := by
  rw [descend, h]; rfl

theorem descend_cons {nodes : Arena} {n : NodeIx} {nd : Node} (h : nodeAt nodes n = some nd) (v : Bool)
    (c : List Bool) : descend nodes n (v :: c) = (childOf nd v).bind fun m => descend nodes m c := by
  rw [descend, h]
  cases hc : childOf nd v <;> simp [hc]

theorem descend_absent {nodes : Arena} {n : NodeIx} (h : nodeAt nodes n = none) (c : List Bool) :
    descend nodes n c = none := by
  cases c <;> simp [descend, h]

theorem descend_present {nodes : Arena} {n m : NodeIx} {c : List Bool} (h : descend nodes n c = some m) :
    ∃ nd, nodeAt nodes m = some nd := by
  induction c generalizing n with
  | nil =>
    rw [descend] at h
    obtain ⟨nd, hnd, rfl⟩ := Option.map_eq_some_iff.1 h
    exact ⟨nd, hnd⟩
  | cons v c ih =>
    cases hn : nodeAt nodes n with
    | none => rw [descend_absent hn] at h; cases h
    | some nd =>
      rw [descend_cons hn] at h
      obtain ⟨m', -, h⟩ := Option.bind_eq_some_iff.1 h
      exact ih h

theorem descend_append (nodes : Arena) (n : NodeIx) (c d : List Bool) :
    descend nodes n (c ++ d) = (descend nodes n c).bind fun m => descend nodes m d := by
  induction c generalizing n with
  | nil =>
    cases hn : nodeAt nodes n with
    | none => rw [descend_absent hn, descend_absent hn]; rfl
    | some nd => rw [descend_nil hn]; rfl
  | cons v c ih =>
    cases hn : nodeAt nodes n with
    | none => rw [descend_absent hn, descend_absent hn]; rfl
    | some nd =>
      rw [List.cons_append, descend_cons hn, descend_cons hn]
      cases childOf nd v with
      | none => rfl
      | some m => exact ih m

/-! ### The nodes of a built tree -/

variable {t : Tree}

/-- An entry below 256 that holds a value is the leaf of its symbol. -/
theorem BuiltOk.leaf_of_lt (h : BuiltOk t) {n : NodeIx} {nd : Node} (hn : nodeAt t.nodes n = some nd)
    (hlt : n.val < 256) : ∃ sym, t.leaf[(symIx sym).val]'(symIx sym).isLt = some n ∧ n = leafIx sym ∧ nd.symbol = sym ∧
      nd.child0 = none ∧ nd.child1 = none := by
  have hix : leafIx (BitVec.ofNat 8 n.val) = n := by
    apply Fin.ext
    rw [leafIx_val, BitVec.toNat_ofNat]
    omega
  cases hl : t.leaf[(symIx (BitVec.ofNat 8 n.val)).val]'(symIx (BitVec.ofNat 8 n.val)).isLt with
  | none =>
    have := h.leaf_none _ hl
    rw [hix, hn] at this
    cases this
  | some m =>
    obtain ⟨hm, nd', hnd', hs, h0, h1, -⟩ := h.leaf_some _ m hl
    rw [hix] at hm
    subst hm
    rw [hn] at hnd'
    cases hnd'
    exact ⟨_, hl, hix.symm, hs, h0, h1⟩

/-- A node with a child is internal, and its children are made before it and point back to it. -/
theorem BuiltOk.child (h : BuiltOk t) {p n : NodeIx} {nd : Node} {v : Bool} (hp : nodeAt t.nodes p = some nd)
    (hc : childOf nd v = some n) :
    256 ≤ p.val ∧ n.val < p.val ∧ ∃ nn, nodeAt t.nodes n = some nn ∧ nn.parent = some p := by
  have h256 : 256 ≤ p.val := by
    by_contra hlt
    obtain ⟨sym, -, -, -, h0, h1⟩ := h.leaf_of_lt hp (by omega)
    rw [childOf, h0, h1] at hc
    cases v <;> cases hc
  obtain ⟨a, b, na, nb, ha, hb, -, hap, hbp, hna, hnb, hpa, hpb, -⟩ := h.inner p nd h256 hp
  refine ⟨h256, ?_⟩
  cases v with
  | false =>
    have hc : nd.child0 = some n := hc
    rw [ha] at hc
    cases hc
    exact ⟨hap, na, hna, hpa⟩
  | true =>
    have hc : nd.child1 = some n := hc
    rw [hb] at hc
    cases hc
    exact ⟨hbp, nb, hnb, hpb⟩

/-- An internal node has a child for either bit. -/
theorem BuiltOk.child_exists (h : BuiltOk t) {p : NodeIx} {nd : Node} (hp : nodeAt t.nodes p = some nd)
    (h0 : nd.child0 ≠ none) (v : Bool) : ∃ n, childOf nd v = some n := by
  have h256 : 256 ≤ p.val := by
    by_contra hlt
    obtain ⟨sym, -, -, -, h0', -⟩ := h.leaf_of_lt hp (by omega)
    exact h0 h0'
  obtain ⟨a, b, na, nb, ha, hb, -⟩ := h.inner p nd h256 hp
  cases v
  · exact ⟨a, ha⟩
  · exact ⟨b, hb⟩

/-- The two children of a node differ, so a child tells the bit that leads to it. -/
theorem BuiltOk.bit_of_child (h : BuiltOk t) {p n : NodeIx} {nd : Node} {v w : Bool} (hp : nodeAt t.nodes p = some nd)
    (hv : childOf nd v = some n) (hw : childOf nd w = some n) : v = w := by
  obtain ⟨h256, -⟩ := h.child hp hv
  obtain ⟨a, b, na, nb, ha, hb, hab, -⟩ := h.inner p nd h256 hp
  cases v <;> cases w <;> simp_all [childOf]

/-- From a leaf only the empty sequence leads anywhere. -/
theorem descend_leaf {nodes : Arena} {n m : NodeIx} {c : List Bool} (hl : IsLeafAt nodes n)
    (h : descend nodes n c = some m) : c = [] := by
  obtain ⟨nd, hnd, h0, h1⟩ := hl
  cases c with
  | nil => rfl
  | cons v c =>
    rw [descend_cons hnd, childOf, h0, h1] at h
    cases v <;> cases h

/-- A path from an internal node is no longer than the internal nodes up to it. -/
theorem BuiltOk.path_length (h : BuiltOk t) {n m : NodeIx} {c : List Bool} (hd : descend t.nodes n c = some m) :
    c.length + 255 ≤ max n.val 255 := by
  induction c generalizing n with
  | nil => simp
  | cons v c ih =>
    cases hn : nodeAt t.nodes n with
    | none => rw [descend_absent hn] at hd; cases hd
    | some nd =>
      rw [descend_cons hn] at hd
      obtain ⟨x, hx, hd⟩ := Option.bind_eq_some_iff.1 hd
      obtain ⟨h256, hlt, -⟩ := h.child hn hx
      have := ih hd
      rw [List.length_cons]
      omega

/-- A node other than the root is reached over its parent only. -/
theorem BuiltOk.last_step (h : BuiltOk t) {r n : NodeIx} {c : List Bool} {v : Bool}
    (hd : descend t.nodes r (c ++ [v]) = some n) :
    ∃ p nd nn, descend t.nodes r c = some p ∧ nodeAt t.nodes p = some nd ∧ childOf nd v = some n ∧
      nodeAt t.nodes n = some nn ∧ nn.parent = some p := by
  rw [descend_append] at hd
  obtain ⟨p, hp, hd⟩ := Option.bind_eq_some_iff.1 hd
  obtain ⟨nd, hnd⟩ := descend_present hp
  rw [descend_cons hnd] at hd
  obtain ⟨m, hm, hd⟩ := Option.bind_eq_some_iff.1 hd
  obtain ⟨-, -, nn, hnn, hpar⟩ := h.child hnd hm
  rw [descend_nil hnn] at hd
  cases hd
  exact ⟨p, nd, nn, hp, hnd, hm, hnn, hpar⟩

/-- A node is reached from the root by at most one path. -/
theorem BuiltOk.path_unique (h : BuiltOk t) {r n : NodeIx} (hr : t.root = some r) {c d : List Bool}
    (hc : descend t.nodes r c = some n) (hd : descend t.nodes r d = some n) : c = d := by
  have hroot : ∀ {c : List Bool} {v : Bool}, descend t.nodes r (c ++ [v]) ≠ some r := by
    intro c v hcv
    obtain ⟨p, nd, nn, -, -, -, hnn, hpar⟩ := h.last_step hcv
    have := (h.top r nn hnn).2 hr
    rw [this] at hpar
    cases hpar
  have hnil : ∀ {n : NodeIx}, descend t.nodes r [] = some n → n = r := by
    intro n hn
    rw [descend] at hn
    obtain ⟨_, -, rfl⟩ := Option.map_eq_some_iff.1 hn
    rfl
  induction c using List.reverseRecOn generalizing n d with
  | nil =>
    have := hnil hc
    subst this
    rcases List.eq_nil_or_concat' d with rfl | ⟨d, v, rfl⟩
    · rfl
    · exact absurd hd hroot
  | append_singleton c v ih =>
    rcases List.eq_nil_or_concat' d with rfl | ⟨d, w, rfl⟩
    · have := hnil hd
      subst this
      exact absurd hc hroot
    · obtain ⟨p, nd, nn, hp, hnd, hv, hnn, hpar⟩ := h.last_step hc
      obtain ⟨p', nd', nn', hp', hnd', hw, hnn', hpar'⟩ := h.last_step hd
      rw [hnn] at hnn'
      cases hnn'
      rw [hpar] at hpar'
      cases hpar'
      rw [hnd] at hnd'
      cases hnd'
      rw [ih hp hp', h.bit_of_child hnd hv hw]

theorem walkUp_top {nodes : Arena} {n : NodeIx} {nd : Node} (hn : nodeAt nodes n = some nd) (hp : nd.parent = none)
    (fuel : Nat) (acc : List Bool) : walkUp nodes fuel n acc = .ok acc := by
  rw [walkUp.eq_def]
  simp only [hn, hp]

theorem walkUp_up {nodes : Arena} {n p : NodeIx} {nd np : Node} (hn : nodeAt nodes n = some nd)
    (hp : nd.parent = some p) (hnp : nodeAt nodes p = some np) (fuel : Nat) (acc : List Bool) :
    walkUp nodes (fuel + 1) n acc = walkUp nodes fuel p ((np.child0 != some n) :: acc) := by
  rw [walkUp.eq_def]
  simp only [hn, hp, hnp]

/-- The walk up from a node prepends the path from the root to it. -/
theorem BuiltOk.walkUp (h : BuiltOk t) : ∀ (fuel : Nat) (n : NodeIx) (nd : Node) (acc : List Bool),
    510 < fuel + n.val → nodeAt t.nodes n = some nd →
      ∃ r c, t.root = some r ∧ walkUp t.nodes fuel n acc = .ok (c ++ acc) ∧ descend t.nodes r c = some n
  | fuel, n, nd, acc, hf, hn => by
    cases hp : nd.parent with
    | none =>
      have hr := (h.top n nd hn).1 hp
      exact ⟨n, [], hr, walkUp_top hn hp fuel acc, descend_nil hn⟩
    | some p =>
      obtain ⟨h256, hlt, np, hnp, hc⟩ := h.up n nd p hn hp
      cases fuel with
      | zero => have := p.isLt; omega
      | succ fuel =>
        obtain ⟨r, c, hr, hw, hd⟩ := BuiltOk.walkUp h fuel p np ((np.child0 != some n) :: acc) (by omega) hnp
        refine ⟨r, c ++ [np.child0 != some n], hr, ?_, ?_⟩
        · rw [walkUp_up hn hp hnp, hw, List.append_assoc]
          rfl
        · rw [descend_append, hd]
          show descend t.nodes p [np.child0 != some n] = some n
          have hchild : childOf np (np.child0 != some n) = some n := by
            rcases hc with hc | hc
            · simp [childOf, hc]
            · by_cases h0 : np.child0 = some n
              · simp [childOf, h0]
              · have : (np.child0 != some n) = true := by simpa using h0
                rw [this]; exact hc
          rw [descend_cons hnp, hchild]
          exact descend_nil hn

/-- A leaf that LEAF refers to holds a node with the symbol and no children. -/
theorem BuiltOk.leaf_node (h : BuiltOk t) {sym : Byte} {n : NodeIx}
    (hl : t.leaf[(symIx sym).val]'(symIx sym).isLt = some n) :
    n = leafIx sym ∧ ∃ nd, nodeAt t.nodes n = some nd ∧ nd.symbol = sym ∧ nd.child0 = none ∧ nd.child1 = none := by
  obtain ⟨hn, nd, hnd, hs, h0, h1, -⟩ := h.leaf_some sym n hl
  exact ⟨hn, nd, hnd, hs, h0, h1⟩

/-- If the root is a leaf, it is the only node. -/
theorem BuiltOk.only_root (h : BuiltOk t) {r n : NodeIx} (hr : t.root = some r) (hl : IsLeafAt t.nodes r) {nd : Node}
    (hn : nodeAt t.nodes n = some nd) : n = r := by
  obtain ⟨r', c, hr', -, hd⟩ := h.walkUp 511 n nd [] (by omega) hn
  rw [hr] at hr'
  cases hr'
  have := descend_leaf hl hd
  subst this
  rw [descend] at hd
  obtain ⟨_, -, rfl⟩ := Option.map_eq_some_iff.1 hd
  rfl

/-- With two leaves or more the first internal entry holds a node. -/
theorem BuiltOk.inner_exists (h : BuiltOk t) (hL : 2 ≤ leavesOf t) : ∃ nd, nodeAt t.nodes 256 = some nd :=
  Option.isSome_iff_exists.1 ((h.inner_used 256 (by decide)).2 (by
    show 257 < 256 + leavesOf t
    omega))

theorem leavesOf_le (t : Tree) : leavesOf t ≤ 256 := by
  have := List.countP_le_length (p := Option.isSome) (l := t.leaf.toList)
  rwa [Vector.length_toList] at this

/-- With two leaves or more no leaf is the root. -/
theorem BuiltOk.leaf_has_parent (h : BuiltOk t) (hL : 2 ≤ leavesOf t) {n : NodeIx} {nd : Node}
    (hn : nodeAt t.nodes n = some nd) (h0 : nd.child0 = none) (h1 : nd.child1 = none) : ∃ p, nd.parent = some p := by
  cases hp : nd.parent with
  | some p => exact ⟨p, rfl⟩
  | none =>
    obtain ⟨x, hx⟩ := h.inner_exists hL
    have := h.only_root ((h.top n nd hn).1 hp) ⟨nd, hn, h0, h1⟩ hx
    subst this
    obtain ⟨a, b, na, nb, ha, -⟩ := h.inner 256 nd (by decide) hn
    rw [h0] at ha
    cases ha

/-- Every present symbol has a code: the path from the root where its leaf has a parent, and the bit 0 where it has none
(42_encode.md R171). -/
theorem BuiltOk.codeOf (h : BuiltOk t) {n : NodeIx} {nd : Node} (hn : nodeAt t.nodes n = some nd) :
    (nd.parent = none ∧ codeOf t.nodes n = .ok [false]) ∨
    (nd.parent ≠ none ∧ ∃ r c, t.root = some r ∧ codeOf t.nodes n = .ok c ∧ descend t.nodes r c = some n ∧ c ≠ []) := by
  cases hp : nd.parent with
  | none => exact .inl ⟨rfl, by simp [Machine.codeOf, hn, hp]⟩
  | some p =>
    obtain ⟨r, c, hr, hw, hd⟩ := h.walkUp 511 n nd [] (by omega) hn
    refine .inr ⟨by simp, r, c, hr, ?_, hd, ?_⟩
    · simp only [Machine.codeOf, hn, hp]
      rw [List.append_nil] at hw
      exact hw
    · rintro rfl
      rw [descend] at hd
      obtain ⟨_, -, rfl⟩ := Option.map_eq_some_iff.1 hd
      have := (h.top r nd hn).2 hr
      rw [hp] at this
      cases this

end Sys2Proof.Machine
end

