-- ==== Sys2Proof/Laws/Walks.lean ====
section
/-! SUPPORT. DEC_SYM's walk down, step by step and along a whole path (43_decode.md R191). -/

namespace Sys2Proof.Machine

variable {s : State}

theorem walkDown_leaf {n : NodeIx} {nd : Node} (hn : nodeAt s.tree.nodes n = some nd) (h0 : nd.child0 = none)
    (fuel k : Nat) : walkDown fuel n k s = .next (complete .ok (countResult k nd.symbol) s) := by
  rw [walkDown.eq_def]
  simp only [hn, h0]

/-- One step of the walk at an internal node: what the bit read answers decides. -/
theorem walkDown_inner {n c0 : NodeIx} {nd : Node} (hn : nodeAt s.tree.nodes n = some nd) (h0 : nd.child0 = some c0)
    (fuel k : Nat) {r : ReadResult} {t : State} (hr : readBitCore s = (r, t)) :
    (∀ v m, r = .bit v → childOf nd v = some m → walkDown (fuel + 1) n k s = walkDown fuel m (k + 1) t) ∧
      (r = .eos → walkDown (fuel + 1) n k s = .next (raise .eos (countResult k 0) t)) ∧
      (r = .srcIo → walkDown (fuel + 1) n k s = .next (raise .srcIo (countResult k 0) t)) ∧
      (r = .waits → walkDown (fuel + 1) n k s = .next t) := by
  have h : ∀ (P : Result → Prop), P (walkDown (fuel + 1) n k s) ↔
      P (match readBitCore s with
        | (.eos, t) => .next (raise .eos (countResult k 0) t)
        | (.srcIo, t) => .next (raise .srcIo (countResult k 0) t)
        | (.waits, t) => .next t
        | (.bit v, t) =>
          match childOf nd v with
          | none => .fault .absentNode
          | some c => walkDown fuel c (k + 1) t) := by
    intro P
    conv => lhs; rw [walkDown.eq_def]
    simp only [hn, h0]
    all_goals exact Iff.rfl
  refine ⟨fun v m hv hm => ?_, fun hv => ?_, fun hv => ?_, fun hv => ?_⟩ <;> subst hv <;> rw [h (· = _), hr]
  simp only [hm]

/-- The bit reads leave the tree alone. -/
theorem readBitCore_tree : (readBitCore s).2.tree = s.tree := (readBitCore_frame s).2.2.1

/-- Under the invariant the walk ends, and never in a fault. -/
theorem BuiltOk.walkDown_next : ∀ (fuel : Nat) (n : NodeIx) (k : Nat) (s : State), BuiltOk s.tree →
    n.val < fuel → (nodeAt s.tree.nodes n).isSome = true → ∃ t, walkDown fuel n k s = .next t
  | fuel, n, k, s, hb, hf, hn => by
    obtain ⟨nd, hn⟩ := Option.isSome_iff_exists.1 hn
    cases h0 : nd.child0 with
    | none => exact ⟨_, walkDown_leaf hn h0 fuel k⟩
    | some c0 =>
      cases fuel with
      | zero => omega
      | succ fuel =>
        cases hr : readBitCore s with
        | mk r t =>
          obtain ⟨hbit, heos, hio, hwait⟩ := walkDown_inner hn h0 fuel k hr
          cases r with
          | eos => exact ⟨_, heos rfl⟩
          | srcIo => exact ⟨_, hio rfl⟩
          | waits => exact ⟨_, hwait rfl⟩
          | bit v =>
            obtain ⟨m, hm⟩ := hb.child_exists hn (by rw [h0]; simp) v
            obtain ⟨-, hlt, nn, hnn, -⟩ := hb.child hn hm
            have ht : t.tree = s.tree := by
              have := readBitCore_tree (s := s)
              rwa [hr] at this
            rw [hbit v m rfl hm]
            exact BuiltOk.walkDown_next fuel m (k + 1) t (ht ▸ hb) (by omega) (by rw [ht, hnn]; rfl)

/-- Where the reader stands after one bit: one bit further, counting the byte read where the cache was exhausted. -/
theorem pos_after_bit {r r' : Reader} {v : Bool} {read left : List Byte} {more : List Bool}
    (hb : pendingBits r ++ bitsOf (read ++ left) = v :: more) (hm : pendingBits r' ++ bitsOf left = more)
    (hr : read.length = if r.pos.val = 8 then 1 else 0) :
    8 * read.length + r'.pos.val = r.pos.val + 1 ∧ 1 ≤ r'.pos.val := by
  have h1 := congrArg List.length hb
  have h2 := congrArg List.length hm
  rw [List.length_append, pendingBits_length, bitsOf_length] at h1 h2
  rw [List.length_append] at h1
  rw [List.length_cons] at h1
  have := pos_le r.pos
  have := pos_le r'.pos
  split at hr <;> omega

/-- The walk along a path whose bits are the next ones to be read: it goes on from the path's end, with those bits
consumed and no byte read ahead of them. -/
theorem walkDown_path {rest : List (Option SrcAnswer)} :
    ∀ {c more : List Bool} {s : State} {bs : List Byte} {n m : NodeIx} (fuel k : Nat), BuiltOk s.tree →
      descend s.tree.nodes n c = some m → s.br.eos = false → s.src = dataAnswers bs ++ rest →
      pendingBits s.br ++ bitsOf bs = c ++ more →
      ∃ r read left, walkDown (fuel + c.length) n k s = walkDown fuel m (k + c.length) (afterReads s r read left rest) ∧
        r.eos = false ∧ bs = read ++ left ∧ pendingBits r ++ bitsOf left = more ∧
        8 * read.length + r.pos.val = c.length + s.br.pos.val ∧ (c ≠ [] ∨ 1 ≤ s.br.pos.val → 1 ≤ r.pos.val)
  | [], more, s, bs, n, m, fuel, k, hb, hd, he, hs, hbits => by
    rw [descend] at hd
    obtain ⟨_, -, rfl⟩ := Option.map_eq_some_iff.1 hd
    exact ⟨s.br, [], bs, by simp [afterReads, ← hs], he, rfl, hbits, by simp, fun h => h.resolve_left (fun h => h rfl)⟩
  | v :: c, more, s, bs, n, m, fuel, k, hb, hd, he, hs, hbits => by
    cases hn : nodeAt s.tree.nodes n with
    | none => rw [descend_absent hn] at hd; cases hd
    | some nd =>
      rw [descend_cons hn] at hd
      obtain ⟨x, hx, hd⟩ := Option.bind_eq_some_iff.1 hd
      have h0 : ∃ c0, nd.child0 = some c0 := by
        obtain ⟨h256, -⟩ := hb.child hn hx
        obtain ⟨a, b, na, nb, ha, -⟩ := hb.inner n nd h256 hn
        exact ⟨a, ha⟩
      obtain ⟨c0, h0⟩ := h0
      rw [List.cons_append] at hbits
      obtain ⟨r, read, left, hr, hre, rfl, hread, hmore⟩ := readBitCore_bit he hs hbits
      have hpos := pos_after_bit hbits hmore hread
      obtain ⟨r2, read2, left2, hw, hre2, rfl, hmore2, hcount, h1⟩ := walkDown_path (s := afterReads s r read left rest)
        fuel (k + 1) hb hd hre rfl hmore
      have hcount : 8 * read2.length + r2.pos.val = c.length + r.pos.val := hcount
      have h1 : c ≠ [] ∨ 1 ≤ r.pos.val → 1 ≤ r2.pos.val := h1
      refine ⟨r2, read ++ read2, left2, ?_, hre2, (List.append_assoc ..).symm, hmore2, ?_, fun _ => h1 (.inr hpos.2)⟩
      rotate_left
      · rw [List.length_append, List.length_cons]
        omega
      rw [List.length_cons, ← Nat.add_assoc, (walkDown_inner hn h0 (fuel + c.length) k hr).1 v x rfl hx, hw]
      rw [show k + 1 + c.length = k + (c.length + 1) by omega]
      congr 1
      simp [afterReads]

end Sys2Proof.Machine
end

