-- ==== Sys2Proof/Laws/Exec.lean ====
section
/-! SUPPORT. What the runs of bit actions inside ENC_SYM and DEC_SYM can do, said once: a walk down is some accepted bit
reads and then an end, a code's writing some accepted bit writes and then an end. -/

namespace Sys2Proof.Machine

/-- The state after these bytes have been taken from the source and the reader is `r`. -/
def afterData (s : State) (r : Reader) (bs : List Byte) : State :=
  { s with
    br := r
    src := s.src.drop bs.length
    trace := s.trace ++ bs.map fun b => .srcRead (.data b) }

theorem afterData_afterData (s : State) (r r' : Reader) (bs bs' : List Byte) :
    afterData (afterData s r bs) r' bs' = afterData s r' (bs ++ bs') := by
  simp [afterData]

/-- A bit read that returns a bit changes the reader and takes at most one byte from the source. -/
theorem readBitCore_bit_frame {s t : State} {v : Bool} (h : readBitCore s = (.bit v, t)) :
    ∃ r bs, t = afterData s r bs ∧ r.eos = false := by
  rcases readBitCore_cases s with ⟨-, hr⟩ | ⟨he, -, hr⟩ | ⟨he, -, ⟨b, rest, hs, hr⟩ | ⟨rest, -, hr⟩ | ⟨rest, -, hr⟩ |
    ⟨rest, -, hr⟩ | ⟨-, hr⟩⟩ <;> rw [hr] at h
  · cases h
  · cases h
    exact ⟨(takeBit s).2.br, [], by simp [afterData, takeBit, setBr], he⟩
  · cases h
    exact ⟨(takeBit (setBr (refilled b s.br) s)).2.br, [b], by simp [afterData, takeBit, setBr, record, popSrc, hs], he⟩
  all_goals cases h

/-- Bit reads that all return a bit change the reader and take bytes from the source. -/
theorem readMany_frame : ∀ {c : List Bool} {s t : State}, readMany c.length s = (c.map .bit, t) →
    ∃ r bs, t = afterData s r bs ∧ (r = s.br ∨ r.eos = false)
  | [], s, t, h => by
    cases h
    exact ⟨s.br, [], by simp [afterData], .inl rfl⟩
  | v :: c, s, t, h => by
    rw [List.length_cons, readMany] at h
    obtain ⟨h1, h2⟩ := Prod.mk.injEq .. ▸ h
    rw [List.map_cons, List.cons.injEq] at h1
    obtain ⟨r, bs, hu, he⟩ := readBitCore_bit_frame (Prod.ext h1.1 rfl : readBitCore s = (.bit v, (readBitCore s).2))
    obtain ⟨r', bs', ht, he'⟩ := readMany_frame (Prod.ext h1.2 h2 : readMany c.length (readBitCore s).2 = (c.map .bit, t))
    rw [hu] at ht he'
    exact ⟨r', bs ++ bs', by rw [ht, afterData_afterData], .inr (he'.elim (fun h => h ▸ he) id)⟩

/-- The walk down: bit reads that return a bit, and then a leaf, or a bit read that returns none. -/
theorem walkDown_shape : ∀ {fuel : Nat} {n : NodeIx} {k : Nat} {s t : State}, walkDown fuel n k s = .next t →
    ∃ (c : List Bool) (u : State), readMany c.length s = (c.map .bit, u) ∧
      ((∃ sym, t = complete .ok (countResult (k + c.length) sym) u) ∨
       (∃ v, readBitCore u = (.eos, v) ∧ t = raise .eos (countResult (k + c.length) 0) v) ∨
       (∃ v, readBitCore u = (.srcIo, v) ∧ t = raise .srcIo (countResult (k + c.length) 0) v) ∨
       readBitCore u = (.waits, t))
  | fuel, n, k, s, t, h => by
    cases hn : nodeAt s.tree.nodes n with
    | none =>
      rw [walkDown.eq_def] at h
      simp only [hn] at h
      cases h
    | some nd =>
      cases h0 : nd.child0 with
      | none =>
        rw [walkDown_leaf hn h0] at h
        cases h
        exact ⟨[], s, rfl, .inl ⟨_, rfl⟩⟩
      | some c0 =>
        cases fuel with
        | zero =>
          rw [walkDown.eq_def] at h
          simp only [hn, h0] at h
          cases h
        | succ fuel =>
          cases hr : readBitCore s with
          | mk r u =>
            obtain ⟨hbit, heos, hio, hwait⟩ := walkDown_inner hn h0 fuel k hr
            cases r with
            | eos =>
              rw [heos rfl] at h
              cases h
              exact ⟨[], s, rfl, .inr (.inl ⟨u, hr, rfl⟩)⟩
            | srcIo =>
              rw [hio rfl] at h
              cases h
              exact ⟨[], s, rfl, .inr (.inr (.inl ⟨u, hr, rfl⟩))⟩
            | waits =>
              rw [hwait rfl] at h
              cases h
              exact ⟨[], s, rfl, .inr (.inr (.inr hr))⟩
            | bit v =>
              cases hm : childOf nd v with
              | none =>
                rw [walkDown.eq_def] at h
                simp only [hn, h0, hr, hm] at h
                cases h
              | some m =>
                rw [hbit v m rfl hm] at h
                obtain ⟨c, w, hc, hw⟩ := walkDown_shape h
                refine ⟨v :: c, w, ?_, ?_⟩
                · rw [List.length_cons, readMany, hr]
                  simp [hc]
                · rw [List.length_cons, show k + (c.length + 1) = k + 1 + c.length by omega]
                  exact hw

/-- A bit write that is accepted changes the writer and puts at most one byte, which the sink took. -/
theorem writeBitCore_ok_frame {s t : State} {v : Bool} (h : writeBitCore v s = (.ok, t)) : ∃ w bs, t = afterPuts s w bs := by
  rcases writeBitCore_cases s v with ⟨-, hr⟩ | ⟨-, ⟨rest, hs, hr⟩ | ⟨rest, -, hr⟩ | ⟨rest, -, hr⟩ | ⟨-, hr⟩⟩ <;> rw [hr] at h
  · cases h
    exact ⟨(placeBit v s).bw, [], by simp [afterPuts, placeBit, setBw]⟩
  · cases h
    exact ⟨(placeBit v (setBw Writer.empty s)).bw, [s.bw.byte], by simp [afterPuts, placeBit, setBw, record, popSnk, hs]⟩
  all_goals cases h

/-- Bit writes that are all accepted change the writer and put bytes that the sink took. -/
theorem writeMany_frame : ∀ {vs : List Bool} {s t : State}, writeMany vs s = (.ok, t) → ∃ w bs, t = afterPuts s w bs
  | [], s, t, h => by
    cases h
    exact ⟨s.bw, [], by simp [afterPuts]⟩
  | v :: vs, s, t, h => by
    rw [writeMany] at h
    cases hw : writeBitCore v s with
    | mk r u =>
      rw [hw] at h
      cases r with
      | ok =>
        obtain ⟨w, bs, rfl⟩ := writeBitCore_ok_frame hw
        obtain ⟨w', bs', rfl⟩ := writeMany_frame h
        exact ⟨w', bs ++ bs', afterPuts_afterPuts ..⟩
      | sinkIo => cases h
      | waits => cases h

/-- The writing of a code: bit writes that are accepted, and then the code's end, or a bit write that is not accepted. -/
theorem writeCode_shape {sym : Byte} : ∀ {c : List Bool} {k : Nat} {s t : State}, writeCode sym c k s = .next t →
    ∃ c1 c2 u, c = c1 ++ c2 ∧ writeMany c1 s = (.ok, u) ∧
      ((c2 = [] ∧ t = complete .ok (countResult (k + c1.length) sym) u) ∨
       (∃ v c3 w, c2 = v :: c3 ∧ writeBitCore v u = (.sinkIo, w) ∧ t = raise .sinkIo (countResult (k + c1.length) sym) w) ∨
       (∃ v c3, c2 = v :: c3 ∧ writeBitCore v u = (.waits, t)))
  | [], k, s, t, h => by
    cases h
    exact ⟨[], [], s, rfl, rfl, .inl ⟨rfl, rfl⟩⟩
  | v :: c, k, s, t, h => by
    rw [writeCode] at h
    cases hw : writeBitCore v s with
    | mk r u =>
      rw [hw] at h
      cases r with
      | ok =>
        obtain ⟨c1, c2, w, rfl, h1, h2⟩ := writeCode_shape h
        refine ⟨v :: c1, c2, w, rfl, by simp only [writeMany, hw, h1], ?_⟩
        rw [List.length_cons, show k + (c1.length + 1) = k + 1 + c1.length by omega]
        exact h2
      | sinkIo =>
        cases h
        exact ⟨[], v :: c, s, rfl, rfl, .inr (.inl ⟨v, c, u, rfl, hw, rfl⟩)⟩
      | waits =>
        cases h
        exact ⟨[], v :: c, s, rfl, rfl, .inr (.inr ⟨v, c, rfl, hw⟩)⟩

/-- A code's writing never stops. -/
theorem writeCode_next (sym : Byte) : ∀ (c : List Bool) (k : Nat) (s : State), ∃ t, writeCode sym c k s = .next t
  | [], _, _ => ⟨_, rfl⟩
  | v :: c, k, s => by
    rw [writeCode]
    cases writeBitCore v s with
    | mk r u =>
      cases r with
      | ok => exact writeCode_next sym c (k + 1) u
      | sinkIo => exact ⟨_, rfl⟩
      | waits => exact ⟨_, rfl⟩

/-- Everything a bit read can change: the reader, the source's coming answers, the transaction it waits on, and at most one
recorded read. -/
theorem readBitCore_all {s t : State} {r : ReadResult} (h : readBitCore s = (r, t)) :
    ∃ br src w added, t = { s with br := br, src := src, waiting := w, trace := s.trace ++ added } ∧
      (r ≠ .waits → w = s.waiting) ∧ (r = .waits → w ≠ none) ∧ (added = [] ∨ ∃ a, added = [.srcRead a]) := by
  rcases readBitCore_cases s with ⟨-, hr⟩ | ⟨he, -, hr⟩ | ⟨he, -, ⟨b, rest, hs, hr⟩ | ⟨rest, -, hr⟩ | ⟨rest, -, hr⟩ |
    ⟨rest, -, hr⟩ | ⟨-, hr⟩⟩ <;> rw [hr] at h <;> cases h
  · exact ⟨s.br, s.src, s.waiting, [], by simp, by simp, by simp, .inl rfl⟩
  · exact ⟨(takeBit s).2.br, s.src, s.waiting, [], by simp [takeBit, setBr], by simp, by simp, .inl rfl⟩
  · exact ⟨(takeBit (setBr (refilled b s.br) s)).2.br, s.src.tail, s.waiting, [.srcRead (.data b)],
      by simp [takeBit, setBr, record, popSrc], by simp, by simp, .inr ⟨_, rfl⟩⟩
  · exact ⟨latched s.br, s.src.tail, s.waiting, [.srcRead .atEnd],
      by simp [setBr, record, popSrc], by simp, by simp, .inr ⟨_, rfl⟩⟩
  · exact ⟨s.br, s.src.tail, s.waiting, [.srcRead .ioErr], by simp [record, popSrc], by simp, by simp, .inr ⟨_, rfl⟩⟩
  · exact ⟨s.br, s.src.tail, some .srcRead, [], by simp [waitOn, popSrc], by simp, by simp, .inl rfl⟩
  · exact ⟨s.br, s.src, some .srcRead, [], by simp [waitOn], by simp, by simp, .inl rfl⟩

/-- Everything a bit write can change: the writer, the sink's coming answers, the transaction it waits on, and at most one
recorded put. -/
theorem writeBitCore_all {s t : State} {v : Bool} {r : WriteResult} (h : writeBitCore v s = (r, t)) :
    ∃ bw snk w added, t = { s with bw := bw, snk := snk, waiting := w, trace := s.trace ++ added } ∧
      (r ≠ .waits → w = s.waiting) ∧ (r = .waits → w ≠ none) ∧ (added = [] ∨ ∃ b a, added = [.snkPut b a]) := by
  rcases writeBitCore_cases s v with ⟨-, hr⟩ | ⟨-, ⟨rest, hs, hr⟩ | ⟨rest, -, hr⟩ | ⟨rest, -, hr⟩ | ⟨-, hr⟩⟩ <;>
    rw [hr] at h <;> cases h
  · exact ⟨(placeBit v s).bw, s.snk, s.waiting, [], by simp [placeBit, setBw], by simp, by simp, .inl rfl⟩
  · exact ⟨(placeBit v (setBw Writer.empty s)).bw, s.snk.tail, s.waiting, [.snkPut s.bw.byte .ok],
      by simp [placeBit, setBw, record, popSnk], by simp, by simp, .inr ⟨_, _, rfl⟩⟩
  · exact ⟨s.bw, s.snk.tail, s.waiting, [.snkPut s.bw.byte .ioErr],
      by simp [record, popSnk], by simp, by simp, .inr ⟨_, _, rfl⟩⟩
  · exact ⟨s.bw, s.snk.tail, some (.snkPut s.bw.byte), [], by simp [waitOn, popSnk], by simp, by simp, .inl rfl⟩
  · exact ⟨s.bw, s.snk, some (.snkPut s.bw.byte), [], by simp [waitOn], by simp, by simp, .inl rfl⟩

end Sys2Proof.Machine
end

