-- ==== Sys2Proof/Laws/Codes.lean ====
section
/-! SUPPORT. The length of a code, the layouts that carry it, and runs of commands (42_encode.md R171, R172; 10_state.md
R36). -/

namespace Sys2Proof.Machine

/-- A present symbol shows a build. -/
theorem BlockInv.built_of_leaf {s : State} {sym : Byte} {n} (hi : BlockInv s) (h : leafAt sym s = some n) :
    BuiltOk s.tree :=
  treeOk_built hi.tree (.inr (.inr ⟨sym, by rw [leafAt] at h; rw [h]; simp⟩))

/-- A root shows a build. -/
theorem BlockInv.built_of_root {s : State} {r} (hi : BlockInv s) (h : s.tree.root = some r) : BuiltOk s.tree :=
  treeOk_built hi.tree (.inl (by rw [h]; simp))

/-- A code has between 1 and 255 bits. -/
theorem BuiltOk.codeOf_length {s : State} {n : NodeIx} {nd c} (hb : BuiltOk s.tree)
    (hn : nodeAt s.tree.nodes n = some nd) (hc : Machine.codeOf s.tree.nodes n = .ok c) : 1 ≤ c.length ∧ c.length ≤ 255 := by
  rcases hb.codeOf hn with ⟨hp, hc'⟩ | ⟨-, r, c', hr, hc', hd, hne⟩
  · rw [hc] at hc'; cases hc'; simp
  · rw [hc] at hc'; cases hc'
    have := hb.path_length hd
    have := r.isLt
    have := List.length_pos_iff.2 hne
    omega

/-- The result that carries a bit count and a symbol, as a number. -/
theorem countResult_eq (k : Nat) (sym : Byte) (h : k ≤ 255) : countResult k sym = BitVec.ofNat 32 (256 * k + sym.toNat) := by
  apply BitVec.eq_of_toNat_eq
  have := sym.isLt
  rw [countResult, BitVec.toNat_append, BitVec.toNat_append]
  simp only [BitVec.toNat_ofNat]
  rw [← Nat.shiftLeft_add_eq_or_of_lt (by omega : sym.toNat < 2^8)]
  simp
  rw [Nat.shiftLeft_eq, Nat.mod_eq_of_lt (by omega : k < 256)]
  omega

/-- A run of two command lists is the second's run from where the first ends. -/
theorem execAll_append (a b : List Instr) (s t : State) (h : execAll a s = .next t) :
    execAll (a ++ b) s = execAll b t := by
  induction a generalizing s with
  | nil => cases h; rfl
  | cons i a ih =>
    rw [execAll] at h
    rw [List.cons_append, execAll]
    cases hi : exec i s with
    | next u => rw [hi] at h; exact ih u h
    | fault f => rw [hi] at h; cases h
    | refused f => rw [hi] at h; cases h

/-- Every bit of STATUS (10_state.md R36). -/
theorem getLsbD_statusWord (s : State) (i : Nat) : (statusWord s).getLsbD i =
   if i < 1 then (BitVec.ofBool s.tree.built).getLsbD i else
   if i - 1 < 1 then (BitVec.ofBool s.tree.root.isSome).getLsbD (i-1) else
   if i - 1 - 1 < 1 then (BitVec.ofBool s.br.eos).getLsbD (i-1-1) else
   if i - 1 - 1 - 1 < 1 then (0 : BitVec 1).getLsbD (i-1-1-1) else
   if i - 1 - 1 - 1 - 1 < 4 then (posField s.br.pos).getLsbD (i-1-1-1-1) else
   if i - 1 - 1 - 1 - 1 - 4 < 4 then (posField s.bw.pos).getLsbD (i-1-1-1-1-4) else
   if i - 1 - 1 - 1 - 1 - 4 - 4 < 5 then (0 : BitVec 5).getLsbD (i-1-1-1-1-4-4) else
   if i - 1 - 1 - 1 - 1 - 4 - 4 - 5 < 8 then s.sticky.getLsbD (i-1-1-1-1-4-4-5) else
     (0 : BitVec 7).getLsbD (i-1-1-1-1-4-4-5-8) := by
  simp only [statusWord, BitVec.getLsbD_append]

end Sys2Proof.Machine
end

