-- ==== Sys2Proof/Laws/Decode.lean ====
section
/-! SUPPORT. A command word is its five fields, and selecting a row is a condition on each field (30_encoding.md R80, R84). -/

namespace Sys2Proof

theorem fieldsOf_wordOf (f : Fields) : fieldsOf (wordOf f) = f := by
  cases f with | mk a b c d e =>
  have h8 : ∀ (x : Byte) {i j : Nat} (hi : i < 8), j = i → x.getLsbD j = x[i] := by
    rintro x i j hi rfl
    exact BitVec.getLsbD_eq_getElem hi
  simp only [fieldsOf, wordOf, Fields.mk.injEq]
  refine ⟨?_, ?_, ?_, ?_, ?_⟩ <;>
  · ext i hi
    simp only [BitVec.getElem_extractLsb', BitVec.getLsbD_append]
    repeat' split
    all_goals first
      | omega
      | exact h8 _ hi (by omega)
      | simp [BitVec.getLsbD_eq_getElem, hi]

theorem wordOf_fieldsOf (w : CmdWord) : wordOf (fieldsOf w) = w := by
  simp only [fieldsOf, wordOf]
  ext i hi
  simp only [BitVec.getElem_append, BitVec.getElem_extractLsb']
  have : ∀ j, j = i → w.getLsbD j = w[i] := by rintro j rfl; exact BitVec.getLsbD_eq_getElem hi
  repeat' split
  all_goals exact this _ (by omega)

theorem wordOf_inj {f g : Fields} : wordOf f = wordOf g ↔ f = g :=
  ⟨fun h => by rw [← fieldsOf_wordOf f, h, fieldsOf_wordOf], congrArg wordOf⟩

theorem matchOf_eq (r : Row) : matchOf r = wordOf ⟨r.opc, 0, 0, 0, 0⟩ := by
  apply BitVec.eq_of_getLsbD_eq
  intro i hi
  simp only [matchOf, wordOf, BitVec.getLsbD_append, BitVec.getLsbD_shiftLeft, BitVec.getLsbD_setWidth]
  repeat' split
  all_goals first
    | (have : i < 56 := by omega
       simp [this])
    | (have h1 : ¬ i < 56 := by omega
       have h2 : i - 56 < 64 := by omega
       simp only [hi, h1, h2, decide_true, decide_false, Bool.not_false, Bool.true_and]
       congr 1; try omega)

/-- The mask of a format keeps OPC, RSV1 and RSV2 whole, and SYM and DATA where they are no operands. -/
def keptFields (fmt : Format) : Fields :=
  ⟨0xFF, 0xFF, if fmt.hasSym then 0 else 0xFF, 0xFF, if fmt.hasData then 0 else 0xFFFFFFFF⟩

theorem maskOf_eq (fmt : Format) : maskOf fmt = wordOf (keptFields fmt) := by
  cases fmt <;> decide

theorem wordOf_and (f g : Fields) : wordOf f &&& wordOf g =
    wordOf ⟨f.opc &&& g.opc, f.rsv1 &&& g.rsv1, f.sym &&& g.sym, f.rsv2 &&& g.rsv2, f.data &&& g.data⟩ := by
  simp only [wordOf]
  iterate 4 rw [← BitVec.and_append]

/-- A word selects a row exactly if its opcode is the row's and its fields are well-formed for the row's format. -/
theorem selects_iff (w : CmdWord) (r : Row) :
    selects w r = true ↔ r.opc = (fieldsOf w).opc ∧ (fieldsOf w).wellFormed r.format = true := by
  have h8 : ∀ x : Byte, x &&& 255#8 = x := fun x => BitVec.and_allOnes
  have h32 : ∀ x : Word, x &&& 4294967295#32 = x := fun x => BitVec.and_allOnes
  have hw : w &&& maskOf r.format = wordOf (fieldsOf w) &&& wordOf (keptFields r.format) := by
    rw [wordOf_fieldsOf, maskOf_eq]
  simp only [selects, beq_iff_eq]
  rw [hw, matchOf_eq, wordOf_and, wordOf_inj]
  rw [eq_comm (a := r.opc)]
  cases r.format <;>
    simp [keptFields, Format.hasSym, Format.hasData, Fields.wellFormed, Fields.rsv1Zero, Fields.rsv2Zero, Fields.symAllowed,
      Fields.dataAllowed, h8, h32, and_assoc, and_comm,
      and_left_comm]

/-- The row of an opcode stands in the map. -/
theorem rowOf_mem {opc : Byte} {r : Row} (h : rowOf opc = some r) : r ∈ opcodeMap ∧ r.opc = opc := by
  refine ⟨List.mem_of_find?_eq_some h, ?_⟩
  simpa using List.find?_some h

/-- A row of the map is the row of its opcode: no two rows have one opcode. -/
theorem rowOf_of_mem {r : Row} (h : r ∈ opcodeMap) : rowOf r.opc = some r := by
  revert r
  decide

/-- A word decodes to `i` exactly if it selects a row that makes `i`. -/
theorem decode_eq_ok (w : CmdWord) (i : Instr) :
    decode w = .ok i ↔ ∃ r ∈ opcodeMap, selects w r = true ∧ i = commandOf r.op (fieldsOf w).sym (fieldsOf w).data := by
  constructor
  · intro h
    simp only [decode] at h
    split at h
    · cases h
    · rename_i r hr
      split at h
      · rename_i hs
        cases h
        exact ⟨r, (rowOf_mem hr).1, hs, rfl⟩
      · cases h
  · rintro ⟨r, hr, hs, rfl⟩
    simp only [decode]
    rw [← ((selects_iff w r).1 hs).1, rowOf_of_mem hr]
    simp only [hs, if_true]

end Sys2Proof
end

