-- ==== Sys2Proof/Laws/Order.lean ====
section
/-! SUPPORT. TREE_BUILD merges the first two of the queue, each time (41_tree_build.md R131, R140, R143). -/

namespace Sys2Proof.Machine

/-- An extracted element comes before every other of a queue with no symbol twice (41_tree_build.md R132). -/
theorem extractFirst_before {e : QueueNode} {q : List QueueNode} {a : QueueNode} {rest : List QueueNode}
    (h : extractFirst e q = (a, rest)) (hs : ((a :: rest).map QueueNode.symbol).Nodup) :
    ∀ x ∈ rest, comesBefore a x = true := by
  intro x hx
  have hp := extractFirst_perm e q
  have hmin := extractFirst_minimal e q x
  rw [h] at hp hmin
  have hmin : comesBefore x a = false := hmin (hp.mem_iff.1 (List.mem_cons_of_mem _ hx))
  have hne : a.symbol ≠ x.symbol := by
    rw [List.map_cons, List.nodup_cons] at hs
    exact fun he => hs.1 (he ▸ List.mem_map_of_mem hx)
  have hne : a.symbol.toNat ≠ x.symbol.toNat := fun he => hne (BitVec.eq_of_toNat_eq he)
  rw [Bool.eq_false_iff, Ne, comesBefore_iff] at hmin
  rw [comesBefore_iff]
  omega

/-- The order of two queue elements is that of the nodes they stand for. -/
theorem nodeBefore_of_comesBefore {a b : QueueNode} {na nb : Node} (h : comesBefore a b = true)
    (hwa : na.weight = a.weight) (hsa : na.symbol = a.symbol) (hwb : nb.weight = b.weight) (hsb : nb.symbol = b.symbol) :
    NodeBefore na nb := by
  rw [NodeBefore, hwa, hsa, hwb, hsb]
  exact (comesBefore_iff a b).1 h

/-- What a later merge does to a node of the arena: it may get a parent, from 256 + k on, and nothing else changes. -/
def KeepsNodes (k : Nat) (nodes nodes' : Arena) : Prop :=
  (∀ n nd, nodeAt nodes n = some nd → ∃ nd', nodeAt nodes' n = some nd' ∧ nd'.weight = nd.weight ∧ nd'.symbol = nd.symbol ∧
    nd'.child0 = nd.child0 ∧ nd'.child1 = nd.child1 ∧ (∀ p, nd.parent = some p → nd'.parent = some p) ∧
    ∀ p, nd'.parent = some p → nd.parent = some p ∨ 256 + k ≤ p.val) ∧
  ∀ n nd', n.val < 256 + k → nodeAt nodes' n = some nd' → ∃ nd, nodeAt nodes n = some nd

/-- A merge made in order stays so through later merges. -/
theorem MergedInOrder.keep {j k : Nat} {nodes nodes' : Arena} (hjk : j < k) (hk : KeepsNodes k nodes nodes')
    (h : MergedInOrder nodes j) : MergedInOrder nodes' j := by
  obtain ⟨p, a, b, np, na, nb, hp, ⟨hnp, hc0, hc1⟩, hab, ⟨hna, hlta, -⟩, ⟨hnb, hltb, -⟩, hpa, hpb, hw, hs, hbef, hrest⟩ := h
  obtain ⟨np', hnp', hwp, hsp, hc0', hc1', -, -⟩ := hk.1 _ _ hnp
  obtain ⟨na', hna', hwa, hsa, -, -, hpa', -⟩ := hk.1 _ _ hna
  obtain ⟨nb', hnb', hwb, hsb, -, -, hpb', -⟩ := hk.1 _ _ hnb
  have hpa' := hpa' p hpa
  have hpb' := hpb' p hpb
  refine ⟨p, a, b, np', na', nb', hp, ⟨hnp', hc0'.trans hc0, hc1'.trans hc1⟩, hab, ⟨hna', hlta, ?_⟩, ⟨hnb', hltb, ?_⟩,
    hpa', hpb', by rw [hwp, hwa, hwb]; exact hw, by rw [hsp, hsa]; exact hs, by rw [NodeBefore, hwa, hwb, hsa, hsb]; exact hbef, ?_⟩
  · intro x hx
    rw [hpa'] at hx
    cases hx
    omega
  · intro x hx
    rw [hpb'] at hx
    cases hx
    omega
  · rintro n nd' ⟨hnd', hlt, hpar⟩ hna hnb
    obtain ⟨nd, hnd⟩ := hk.2 n nd' (by omega) hnd'
    obtain ⟨nd2, hnd2, hwn, hsn, -, -, hpn, -⟩ := hk.1 _ _ hnd
    rw [hnd'] at hnd2
    cases hnd2
    rw [NodeBefore, hwb, hsb, hwn, hsn]
    exact hrest n nd ⟨hnd, hlt, fun x hx => hpar x (hpn x hx)⟩ hna hnb

/-- The nodes before and after a merge. -/
theorem keepsNodes_merge {lq : List QueueNode} (hl : LeavesOk lq) {k : Nat} {nodes : Arena} {a b : QueueNode}
    {q2 : List QueueNode} (h : LoopOk lq k nodes (a :: b :: q2)) : KeepsNodes k nodes (mergeNodes k a b nodes) := by
  have hlen := leavesOk_length hl
  have hcount := h.count
  simp only [List.length_cons] at hcount
  have hm : (mergeIx k).val = 256 + k := mergeIx_val (by omega)
  have hfree : nodeAt nodes (mergeIx k) = none := by
    have := (h.used (mergeIx k) (by omega)).not.2 (by omega)
    simpa using this
  have hixs := h.ixs
  simp only [List.map_cons, List.nodup_cons, List.mem_cons, not_or] at hixs
  have hne : ∀ j nd, nodeAt nodes j = some nd → j ≠ mergeIx k := by
    rintro j nd hj rfl
    rw [hfree] at hj
    cases hj
  obtain ⟨na, hna, -, -, hpa⟩ := h.entry a (List.mem_cons_self ..)
  obtain ⟨nb, hnb, -, -, hpb⟩ := h.entry b (List.mem_cons_of_mem _ (List.mem_cons_self ..))
  have hat := nodeAt_mergeNodes (nodes := nodes) (hne _ _ hna) (hne _ _ hnb) hixs.1.1
  constructor
  · intro n nd hn
    rw [hat, if_neg (hne _ _ hn)]
    by_cases hc : n = a.ix ∨ n = b.ix
    · have hpar : nd.parent = none := by
        rcases hc with rfl | rfl
        · rw [hna] at hn; cases hn; exact hpa
        · rw [hnb] at hn; cases hn; exact hpb
      rw [if_pos hc, hn]
      refine ⟨_, rfl, rfl, rfl, rfl, rfl, fun p hp => (by rw [hpar] at hp; cases hp), fun p hp => .inr ?_⟩
      cases hp
      omega
    · rw [if_neg hc]
      exact ⟨nd, hn, rfl, rfl, rfl, rfl, fun p hp => hp, fun p hp => .inl hp⟩
  · intro n nd' hlt hn
    have hnm : n ≠ mergeIx k := fun hc => by rw [hc, hm] at hlt; omega
    rw [hat, if_neg hnm] at hn
    split at hn
    · obtain ⟨nd, hnd, -⟩ := Option.map_eq_some_iff.1 hn
      exact ⟨nd, hnd⟩
    · exact ⟨nd', hn⟩

/-- A merge of the first two of the queue is a merge in order. -/
theorem mergedInOrder_merge {lq : List QueueNode} (hl : LeavesOk lq) {k : Nat} {nodes : Arena} {a b : QueueNode}
    {q2 : List QueueNode} (h : LoopOk lq k nodes (a :: b :: q2)) (hab : comesBefore a b = true)
    (hb : ∀ x ∈ q2, comesBefore b x = true) : MergedInOrder (mergeNodes k a b nodes) k := by
  have hlen := leavesOk_length hl
  have hcount := h.count
  simp only [List.length_cons] at hcount
  have hm : (mergeIx k).val = 256 + k := mergeIx_val (by omega)
  have hkeep := keepsNodes_merge hl h
  have h' := loopOk_merge hl h
  obtain ⟨na, hna, hwa, hsa, -⟩ := h.entry a (List.mem_cons_self ..)
  obtain ⟨nb, hnb, hwb, hsb, -⟩ := h.entry b (List.mem_cons_of_mem _ (List.mem_cons_self ..))
  -- an entry in the queue at merge k is an element of the loop's queue
  have hin : ∀ n nd', InQueueAt (mergeNodes k a b nodes) k n nd' → ∃ e ∈ a :: b :: q2, e.ix = n ∧ nd'.weight = e.weight ∧
      nd'.symbol = e.symbol := by
    rintro n nd' ⟨hn', hlt, hpar⟩
    obtain ⟨nd, hn⟩ := hkeep.2 n nd' hlt hn'
    obtain ⟨nd2, hn2, hw, hs, -, -, hp, -⟩ := hkeep.1 _ _ hn
    rw [hn'] at hn2
    cases hn2
    have hnone : nd.parent = none := by
      cases hq : nd.parent with
      | none => rfl
      | some p =>
        obtain ⟨h256, -, np, hnp, -⟩ := h.up n nd p hn hq
        have := (h.used p h256).1 (by rw [hnp]; rfl)
        have := hpar p (hp p hq)
        omega
    obtain ⟨e, he, rfl⟩ := List.mem_map.1 (h.tops n nd hn hnone)
    obtain ⟨nd3, hn3, hw3, hs3, -⟩ := h.entry e he
    rw [hn] at hn3
    cases hn3
    exact ⟨e, he, rfl, hw.trans hw3, hs.trans hs3⟩
  obtain ⟨np, hnp⟩ := Option.isSome_iff_exists.1 ((h'.used (mergeIx k) (by omega)).2 (by omega))
  have hixs := h.ixs
  simp only [List.map_cons, List.nodup_cons, List.mem_cons, not_or] at hixs
  have hne : ∀ j nd, nodeAt nodes j = some nd → j ≠ mergeIx k := by
    rintro j nd hj rfl
    have := (h.used (mergeIx k) (by omega)).1 (by rw [hj]; rfl)
    omega
  have hat := nodeAt_mergeNodes (nodes := nodes) (hne _ _ hna) (hne _ _ hnb) hixs.1.1
  obtain ⟨x, y, nx, ny, hx, hy, -, hxlt, hylt, hnx, hny, hpx, hpy, hw, hs⟩ := h'.inner (mergeIx k) np (by omega) hnp
  have hnp2 := hnp
  rw [hat, if_pos rfl] at hnp2
  cases hnp2
  cases hx
  cases hy
  have hqa : InQueueAt (mergeNodes k a b nodes) k a.ix nx := ⟨hnx, by omega, fun p hp => by rw [hpx] at hp; cases hp; omega⟩
  have hqb : InQueueAt (mergeNodes k a b nodes) k b.ix ny := ⟨hny, by omega, fun p hp => by rw [hpy] at hp; cases hp; omega⟩
  have hfx : nx.weight = a.weight ∧ nx.symbol = a.symbol := by
    obtain ⟨nd, hnd, hw, hs, -⟩ := hkeep.1 _ _ hna
    rw [hnx] at hnd
    cases hnd
    exact ⟨hw.trans hwa, hs.trans hsa⟩
  have hfy : ny.weight = b.weight ∧ ny.symbol = b.symbol := by
    obtain ⟨nd, hnd, hw, hs, -⟩ := hkeep.1 _ _ hnb
    rw [hny] at hnd
    cases hnd
    exact ⟨hw.trans hwb, hs.trans hsb⟩
  refine ⟨mergeIx k, a.ix, b.ix, mergedNode a b, nx, ny, hm, ⟨hnp, rfl, rfl⟩, hixs.1.1, hqa, hqb, hpx, hpy, hw, hs,
    nodeBefore_of_comesBefore hab hfx.1 hfx.2 hfy.1 hfy.2, ?_⟩
  intro n nd hn hna hnb
  obtain ⟨e, he, rfl, hwe, hse⟩ := hin n nd hn
  rcases List.mem_cons.1 he with rfl | he
  · exact absurd rfl hna
  rcases List.mem_cons.1 he with rfl | he
  · exact absurd rfl hnb
  exact nodeBefore_of_comesBefore (hb e he) hfy.1 hfy.2 hwe hse

/-- Every merge of the loop, the `k` before it among them, is a merge in order. -/
theorem mergeLoop_inOrder {lq : List QueueNode} (hl : LeavesOk lq) :
    ∀ (fuel k : Nat) (nodes : Arena) (q : List QueueNode), q.length ≤ fuel → LoopOk lq k nodes q →
      (∀ j < k, MergedInOrder nodes j) → ∀ j, j + 1 < lq.length → MergedInOrder (mergeLoop fuel k nodes q).1 j
  | fuel, k, nodes, [], _, h, ho, j, hj => by
    have := h.count
    rw [List.length_nil] at this
    cases fuel <;> exact ho j (by omega)
  | fuel, k, nodes, [e], _, h, ho, j, hj => by
    have := h.count
    rw [List.length_singleton] at this
    cases fuel <;> exact ho j (by omega)
  | 0, k, nodes, e :: x :: q, hf, _, _, _, _ => absurd hf (by simp)
  | fuel + 1, k, nodes, e :: x :: q, hf, h, ho, j, hj => by
    have hp1 := extractFirst_perm e (x :: q)
    have hl1 := extractFirst_length e (x :: q)
    have hb1 := @extractFirst_before e (x :: q)
    simp only [mergeLoop]
    generalize extractFirst e (x :: q) = r1 at hp1 hl1 hb1
    obtain ⟨a, q1⟩ := r1
    cases q1 with
    | nil => simp at hl1
    | cons e1 q1 =>
      have hp2 := extractFirst_perm e1 q1
      have hl2 := extractFirst_length e1 q1
      have hb2 := @extractFirst_before e1 q1
      dsimp only
      generalize extractFirst e1 q1 = r2 at hp2 hl2 hb2
      obtain ⟨b, q2⟩ := r2
      have h1 : LoopOk lq k nodes (a :: e1 :: q1) := loopOk_perm hp1.symm h
      have h2 : LoopOk lq k nodes (a :: b :: q2) := loopOk_perm (hp2.symm.cons a) h1
      have hab : comesBefore a b = true := hb1 rfl h1.symbols b (hp2.mem_iff.1 (List.mem_cons_self ..))
      have hs2 : ((b :: q2).map QueueNode.symbol).Nodup := by
        have := h2.symbols
        rw [List.map_cons, List.nodup_cons] at this
        exact this.2
      simp only [List.length_cons] at hl1 hl2 hf
      refine mergeLoop_inOrder hl fuel (k + 1) _ _ (by simp only [List.length_cons]; omega) (loopOk_merge hl h2) ?_ j hj
      intro i hi
      rcases Nat.lt_or_ge i k with hik | hik
      · exact (ho i hik).keep hik (keepsNodes_merge hl h2)
      · obtain rfl : i = k := by omega
        exact mergedInOrder_merge hl h2 hab (hb2 rfl hs2)

/-- Every merge of a build is a merge in order. -/
theorem builtTree_inOrder {freq : FreqTable} (hf : firstNegative freq = none) {k : Nat}
    (hk : k + 1 < (leafQueue freq).length) : MergedInOrder (builtTree freq Tree.empty.nodes).nodes k := by
  have hl := leafQueue_ok hf
  exact mergeLoop_inOrder hl _ 0 _ _ (Nat.le_refl _) (loopOk_start hl) (fun j hj => absurd hj (Nat.not_lt_zero j)) k hk

end Sys2Proof.Machine
end

