-- ==== Sys2Proof/Laws/PerInstr.lean ====
section
/-! SUPPORT. Statements made per instruction: the fields of a command's word are the opcode of its row, its operands, and
zero elsewhere, and they are well-formed for its row's format (30_encoding.md R80, R81, R83). -/

namespace Sys2Proof.Laws.EncodedFields

/-- The command's row is in the opcode map under its operation, its word has the row's opcode and is well-formed for the
row's format, and the row makes the command from the word's operand fields. -/
def Statement (i : Instr) : Prop :=
  fieldsOf (encode i) = encodeFields i ∧
    ∃ r ∈ opcodeMap, r.op = i.op ∧ r.opc = (encodeFields i).opc ∧ (encodeFields i).wellFormed r.format = true ∧
      commandOf r.op (encodeFields i).sym (encodeFields i).data = i

theorem brReadbit : Statement .brReadbit := ⟨fieldsOf_wordOf _, _, .head _, rfl, rfl, rfl, rfl⟩
theorem brReset : Statement .brReset := ⟨fieldsOf_wordOf _, ⟨0x02, .brReset, .n⟩, by decide, rfl, rfl, rfl, rfl⟩
theorem bwWritebit (data : Word) : Statement (.bwWritebit data) :=
  ⟨fieldsOf_wordOf _, ⟨0x08, .bwWritebit, .d⟩, by decide, rfl, rfl, rfl, rfl⟩
theorem bwFlush : Statement .bwFlush := ⟨fieldsOf_wordOf _, ⟨0x09, .bwFlush, .n⟩, by decide, rfl, rfl, rfl, rfl⟩
theorem bwReset : Statement .bwReset := ⟨fieldsOf_wordOf _, ⟨0x0A, .bwReset, .n⟩, by decide, rfl, rfl, rfl, rfl⟩
theorem freqWr (sym : Byte) (data : Word) : Statement (.freqWr sym data) :=
  ⟨fieldsOf_wordOf _, ⟨0x10, .freqWr, .sd⟩, by decide, rfl, rfl, rfl, rfl⟩
theorem freqRd (sym : Byte) : Statement (.freqRd sym) :=
  ⟨fieldsOf_wordOf _, ⟨0x11, .freqRd, .s⟩, by decide, rfl, rfl, rfl, rfl⟩
theorem treeBuild : Statement .treeBuild := ⟨fieldsOf_wordOf _, ⟨0x18, .treeBuild, .n⟩, by decide, rfl, rfl, rfl, rfl⟩
theorem treeClear : Statement .treeClear := ⟨fieldsOf_wordOf _, ⟨0x19, .treeClear, .n⟩, by decide, rfl, rfl, rfl, rfl⟩
theorem encSym (sym : Byte) : Statement (.encSym sym) :=
  ⟨fieldsOf_wordOf _, ⟨0x20, .encSym, .s⟩, by decide, rfl, rfl, rfl, rfl⟩
theorem decSym : Statement .decSym := ⟨fieldsOf_wordOf _, ⟨0x28, .decSym, .n⟩, by decide, rfl, rfl, rfl, rfl⟩
theorem stRd : Statement .stRd := ⟨fieldsOf_wordOf _, ⟨0x30, .stRd, .n⟩, by decide, rfl, rfl, rfl, rfl⟩
theorem stClr : Statement .stClr := ⟨fieldsOf_wordOf _, ⟨0x31, .stClr, .n⟩, by decide, rfl, rfl, rfl, rfl⟩

end Sys2Proof.Laws.EncodedFields
end

