-- ==== Sys2Proof/Laws/Runs.lean ====
section
/-! SUPPORT. Runs of commands: a command neither reads nor changes the host's coming inputs, a run that ends with nothing
outstanding never waited, issuing commands runs them one by one, and the host's counting adds up. -/

namespace Sys2Proof.Machine

/-- The state with other coming inputs. -/
def setHost (h : List HostEvent) (s : State) : State := { s with host := h }

/-- A function of the next state. -/
def mapNext (f : State → State) : Result → Result
  | .next t => .next (f t)
  | .fault x => .fault x
  | .refused x => .refused x

/-- One bit read does not depend on the coming inputs. -/
theorem readBitCore_setHost (h s) : readBitCore (setHost h s) = ((readBitCore s).1, setHost h (readBitCore s).2) := by
  have he : (setHost h s).br = s.br := rfl
  have hs : (setHost h s).src = s.src := rfl
  unfold readBitCore srcRead
  rw [he, hs]
  cases s.br.eos
  · by_cases hp : s.br.pos.val > 7
    · rcases s.src with _ | ⟨_ | _ | _ | _, l⟩ <;> simp [hp, setHost, takeBit, setBr, record, popSrc, waitOn]
    · simp [hp, setHost, takeBit, setBr]
  · simp

/-- One bit write does not depend on the coming inputs. -/
theorem writeBitCore_setHost (h v s) : writeBitCore v (setHost h s) = ((writeBitCore v s).1, setHost h (writeBitCore v s).2) := by
  have he : (setHost h s).bw = s.bw := rfl
  have hs : (setHost h s).snk = s.snk := rfl
  unfold writeBitCore snkPut
  rw [he, hs]
  by_cases hp : s.bw.pos.val > 7
  · rcases s.snk with _ | ⟨_ | _ | _, l⟩ <;> simp [hp, setHost, placeBit, setBw, record, popSnk, waitOn]
  · simp [hp, setHost, placeBit, setBw]

/-- A decoder walk does not depend on the coming inputs. -/
theorem walkDown_setHost (h) : ∀ (fuel : Nat) (n : NodeIx) (k : Nat) (s : State),
    walkDown fuel n k (setHost h s) = mapNext (setHost h) (walkDown fuel n k s)
  | fuel, n, k, s => by
    have ht : (setHost h s).tree = s.tree := rfl
    cases hn : nodeAt s.tree.nodes n with
    | none =>
      rw [walkDown.eq_def, walkDown.eq_def fuel n k s]; simp only [ht, hn]; rfl
    | some nd =>
      cases h0 : nd.child0 with
      | none => rw [walkDown.eq_def, walkDown.eq_def fuel n k s]; simp only [ht, hn, h0]; rfl
      | some c0 =>
        cases fuel with
        | zero => rw [walkDown.eq_def, walkDown.eq_def 0 n k s]; simp only [ht, hn, h0]; rfl
        | succ fuel =>
          rw [walkDown.eq_def, walkDown.eq_def (fuel+1) n k s]; simp only [ht, hn, h0, readBitCore_setHost]
          rcases readBitCore s with ⟨r, t⟩
          cases r with
          | bit v =>
            simp only
            cases childOf nd v with
            | none => rfl
            | some c => exact walkDown_setHost h fuel c (k+1) t
          | _ => rfl

/-- Writing a code does not depend on the coming inputs. -/
theorem writeCode_setHost (h sym) : ∀ (c : List Bool) (k : Nat) (s : State),
    writeCode sym c k (setHost h s) = mapNext (setHost h) (writeCode sym c k s)
  | [], k, s => rfl
  | v :: c, k, s => by
    rw [writeCode, writeCode, writeBitCore_setHost]
    rcases writeBitCore v s with ⟨r, t⟩
    cases r with
    | ok => exact writeCode_setHost h sym c (k+1) t
    | _ => rfl

/-- No command depends on the coming inputs. -/
theorem exec_setHost (h) (i : Instr) (s : State) : exec i (setHost h s) = mapNext (setHost h) (exec i s) := by
  cases i with
  | brReadbit => simp only [exec, execBrReadbit, readBitCore_setHost]; rcases readBitCore s with ⟨r, t⟩; cases r <;> rfl
  | bwWritebit d => simp only [exec, execBwWritebit, writeBitCore_setHost]; rcases writeBitCore (dataBit d) s with ⟨r, t⟩; cases r <;> rfl
  | bwFlush =>
    show execBwFlush _ = mapNext _ (execBwFlush s)
    have he : (setHost h s).bw = s.bw := rfl
    have hs : (setHost h s).snk = s.snk := rfl
    unfold execBwFlush snkPut
    rw [he, hs]
    by_cases h0 : s.bw.pos.val = 0
    · simp only [if_pos h0]; rfl
    · simp only [if_neg h0]
      rcases hl : s.snk with _ | ⟨_ | _ | _, l⟩
      · rfl
      · rfl
      · have e1 : ∀ s : State, snkSync s = (match s.snk.head? with
            | some (some a) => (some a, record (.snkSync a) (popSnk s))
            | some none => (none, waitOn .snkSync (popSnk s))
            | none => (none, waitOn .snkSync s)) := fun _ => rfl
        have e2 : (setBw Writer.empty (record (.snkPut s.bw.byte .ok) (popSnk (setHost h s)))).snk = l := by
          show s.snk.tail = l; rw [hl]; rfl
        have e3 : (setBw Writer.empty (record (.snkPut s.bw.byte .ok) (popSnk s))).snk = l := by
          show s.snk.tail = l; rw [hl]; rfl
        simp only [List.head?_cons, e1, e2, e3]
        rcases l with _ | ⟨_ | _ | _, l⟩ <;> rfl
      · rfl
  | treeBuild =>
    show execTreeBuild _ = mapNext _ (execTreeBuild s)
    have h1 : (setHost h s).tree = s.tree := rfl
    have h2 : (setHost h s).freq = s.freq := rfl
    unfold execTreeBuild
    rw [h1, h2]
    cases s.tree.built
    · simp only [Bool.false_eq_true, if_false]
      cases firstNegative s.freq <;> rfl
    · rfl
  | encSym sym =>
    simp only [exec, execEncSym]
    have : leafAt sym (setHost h s) = leafAt sym s := rfl
    rw [this]
    cases leafAt sym s with
    | none => rfl
    | some n =>
      have : (setHost h s).tree = s.tree := rfl
      simp only [this]
      cases codeOf s.tree.nodes n with
      | error e => rfl
      | ok c => exact writeCode_setHost h sym c 0 s
  | decSym =>
    simp only [exec, execDecSym]
    have : (setHost h s).tree = s.tree := rfl
    rw [this]
    cases s.tree.root with
    | none => rfl
    | some r => exact walkDown_setHost h _ r 0 s
  | _ => rfl

/-- No run of commands depends on the coming inputs. -/
theorem execAll_setHost (h) : ∀ (is : List Instr) (s : State), execAll is (setHost h s) = mapNext (setHost h) (execAll is s)
  | [], s => rfl
  | i :: is, s => by
    rw [execAll, execAll, exec_setHost]
    cases exec i s with
    | next t => exact execAll_setHost h is t
    | fault f => rfl
    | refused f => rfl

/-- A bit read that ends with nothing outstanding began so. -/
theorem readBitCore_waiting {s t : State} {r} (h : readBitCore s = (r, t)) (hw : t.waiting = none) : s.waiting = none := by
  obtain ⟨br, src, w, added, rfl, h1, h2, -⟩ := readBitCore_all h
  by_cases hr : r = .waits
  · exact absurd hw (h2 hr)
  · rw [← h1 hr]; exact hw

/-- A bit write that ends with nothing outstanding began so. -/
theorem writeBitCore_waiting {s t : State} {v r} (h : writeBitCore v s = (r, t)) (hw : t.waiting = none) : s.waiting = none := by
  obtain ⟨br, src, w, added, rfl, h1, h2, -⟩ := writeBitCore_all h
  by_cases hr : r = .waits
  · exact absurd hw (h2 hr)
  · rw [← h1 hr]; exact hw

/-- A command that ends with nothing outstanding began so. -/
theorem exec_waiting {i : Instr} {s t : State} (h : exec i s = .next t) (hw : t.waiting = none) : s.waiting = none := by
  cases i with
  | brReadbit =>
    rw [exec, execBrReadbit] at h; rcases hh : readBitCore s with ⟨r, u⟩; rw [hh] at h
    cases r <;> cases h <;> exact readBitCore_waiting hh hw
  | bwWritebit d =>
    rw [exec, execBwWritebit] at h; rcases hh : writeBitCore (dataBit d) s with ⟨r, u⟩; rw [hh] at h
    cases r <;> cases h <;> exact writeBitCore_waiting hh hw
  | bwFlush =>
    rw [exec, execBwFlush] at h
    split at h
    · cases h; exact hw
    · rcases snkPut_cases s s.bw.byte with ⟨a, rest, hs, hp⟩ | ⟨rest, hs, hp⟩ | ⟨hs, hp⟩ <;> rw [hp] at h
      · cases a with
        | ok =>
          simp only at h
          rcases snkSync_cases (setBw Writer.empty (record (.snkPut s.bw.byte .ok) (popSnk s))) with ⟨a, rest, hs, hp⟩ | ⟨rest, hs, hp⟩ | ⟨hs, hp⟩ <;> rw [hp] at h
          · cases a <;> cases h <;> exact hw
          · cases h; cases hw
          · cases h; cases hw
        | ioErr => cases h; exact hw
      · cases h; cases hw
      · cases h; cases hw
  | treeBuild =>
    rw [exec, execTreeBuild] at h
    split at h
    · cases h; exact hw
    · split at h <;> cases h <;> exact hw
  | encSym sym =>
    rw [exec, execEncSym] at h
    split at h
    · cases h; exact hw
    · split at h
      · cases h
      · obtain ⟨c1, c2, u, -, hm, h⟩ := writeCode_shape h
        obtain ⟨w, bs, rfl⟩ := writeMany_frame hm
        rcases h with ⟨-, rfl⟩ | ⟨v, c3, x, -, hx, rfl⟩ | ⟨v, c3, -, hx⟩
        · exact hw
        · exact (writeBitCore_waiting hx hw : (afterPuts s w bs).waiting = none)
        · exact (writeBitCore_waiting hx hw : (afterPuts s w bs).waiting = none)
  | decSym =>
    rw [exec, execDecSym] at h
    split at h
    · cases h; exact hw
    · obtain ⟨c, u, hm, h⟩ := walkDown_shape h
      obtain ⟨r, bs, rfl, -⟩ := readMany_frame hm
      rcases h with ⟨sym, rfl⟩ | ⟨v, hx, rfl⟩ | ⟨v, hx, rfl⟩ | hx
      · exact hw
      all_goals exact (readBitCore_waiting hx hw : (afterData s r bs).waiting = none)
  | _ => cases h; exact hw

/-- A run that ends with nothing outstanding began so. -/
theorem execAll_waiting : ∀ {is : List Instr} {s t : State}, execAll is s = .next t → t.waiting = none → s.waiting = none
  | [], s, t, h, hw => by cases h; exact hw
  | i :: is, s, t, h, hw => by
    rw [execAll] at h
    cases hi : exec i s with
    | next u => rw [hi] at h; exact exec_waiting hi (execAll_waiting h hw)
    | fault f => rw [hi] at h; cases h
    | refused f => rw [hi] at h; cases h

/-- A run of one step more. -/
theorem core_run_succ (M : Host.Core) (n : Nat) (s : M.State) : M.run (n+1) s = (match M.step s with
          | .next s' => M.run n s'
          | .fault f => .fault f
          | .refused r => .refused r) := by
  rw [Host.Core.run]
  all_goals (cases M.step s <;> rfl)

/-- Commands issued on the channel run one by one, where none of them is left waiting. -/
theorem run_issue (hdec : ∀ i, decode (encode i) = .ok i) : ∀ (is : List Instr) (s t : State) (h : List HostEvent),
    s.host = issue is ++ h → execAll is s = .next t → t.waiting = none →
    Host.Core.run core is.length s = .next (setHost h t)
  | [], s, t, h, hh, he, hw => by
    cases he
    show Host.Outcome.next s = _
    congr 1
    have hh : s.host = h := hh
    rw [← hh]; rfl
  | i :: is, s, t, h, hh, he, hw => by
    have hsw : s.waiting = none := execAll_waiting he hw
    rw [execAll] at he
    cases hi : exec i s with
    | next u =>
      rw [hi] at he
      have hh : s.host = .command (encode i) :: (issue is ++ h) := hh
      have hst : step s = .next (setHost (issue is ++ h) u) := by
        have : popHost s = setHost (issue is ++ h) s := by rw [popHost, hh]; rfl
        simp only [step, runWord, nextActivity, hh, hsw, List.head?_cons, hdec, this, exec_setHost, hi]
        rfl
      have hc : core.step s = step s := rfl
      have hrun := fun n => core_run_succ core n s
      rw [List.length_cons, hrun, hc, hst]
      simp only
      have he2 : execAll is u = .next t := he
      have he' : execAll is (setHost (issue is ++ h) u) = .next (setHost (issue is ++ h) t) := by
        rw [execAll_setHost, he2]
        rfl
      rw [run_issue hdec is (setHost (issue is ++ h) u) (setHost (issue is ++ h) t) h rfl he' hw]
      rfl
    | fault f => rw [hi] at he; cases he
    | refused f => rw [hi] at he; cases he

/-- A count below 2^31 survives in a table word. -/
theorem toNat_count (b : Byte) (input : List Byte) (hl : input.length < 2^31) : (BitVec.ofNat 32 (input.count b)).toNat = input.count b := by
  rw [BitVec.toNat_ofNat]
  exact Nat.mod_eq_of_lt (Nat.lt_of_le_of_lt List.count_le_length (Nat.lt_trans hl (by decide)))

/-- The counts of the first `n` byte values add up to the number of bytes below `n`. -/
theorem sum_countP_lt (n : Nat) (input : List Byte) :
    (∑ s : Fin n, input.countP (fun b => b.toNat == s.val)) = input.countP (fun b => decide (b.toNat < n)) := by
  induction n with
  | zero => simp
  | succ n ih =>
    rw [Fin.sum_univ_castSucc]
    simp only [Fin.val_castSucc, Fin.val_last]
    rw [ih]
    clear ih
    induction input with
    | nil => rfl
    | cons b l ih2 =>
      simp only [List.countP_cons]
      rw [← ih2]
      have : (if decide (b.toNat < n + 1) = true then 1 else 0) = (if decide (b.toNat < n) = true then 1 else 0) + (if (b.toNat == n) = true then 1 else 0) := by
        simp only [decide_eq_true_eq, beq_iff_eq]
        split <;> split <;> split <;> omega
      omega

/-- The counts of all byte values add up to the number of bytes. -/
theorem sum_count_bytes (input : List Byte) : (List.ofFn fun s : Fin 256 => input.count (BitVec.ofNat 8 s.val)).sum = input.length := by
  rw [List.sum_ofFn]
  have h : ∀ s : Fin 256, input.count (BitVec.ofNat 8 s.val) = input.countP (fun b => b.toNat == s.val) := by
    intro s
    rw [List.count]
    apply List.countP_congr
    intro b _
    have hs := s.isLt
    rw [beq_iff_eq, beq_iff_eq]
    constructor
    · rintro rfl
      rw [BitVec.toNat_ofNat]; exact Nat.mod_eq_of_lt hs
    · intro h; rw [← h]; exact (BitVec.ofNat_toNat 8 b).symm ▸ rfl
  rw [Finset.sum_congr rfl (fun s _ => h s), sum_countP_lt 256]
  rw [List.countP_eq_length]
  intro b _
  exact decide_eq_true b.isLt

/-- The table counted from an input sums to its length (20_memory.md R64). -/
theorem symbolCount_countTable (input : List Byte) (hl : input.length < 2^31) : symbolCount (countTable input) = input.length := by
  have h1 : (countTable input).toList = List.ofFn fun s : Fin 256 => BitVec.ofNat 32 (input.count (BitVec.ofNat 8 s.val)) := by
    rw [countTable, Vector.toList_ofFn]
  rw [symbolCount, h1, List.map_ofFn]
  have : (BitVec.toNat ∘ fun s : Fin 256 => BitVec.ofNat 32 (input.count (BitVec.ofNat 8 s.val))) = fun s : Fin 256 => input.count (BitVec.ofNat 8 s.val) := by
    funext s
    exact toNat_count _ _ hl
  rw [this, sum_count_bytes]


end Sys2Proof.Machine
end

