-- ==== Sys2Proof/Tests/Slice0.lean ====
section
/-! SUPPORT. Tests: the checks of WellFormed refuse ill-formed fields, the decoder reads words written out from
30_encoding.md, single steps give what 95_test_vectors.md says, and every obligation with hypotheses has a witness. The
expected values are the spec's; the name of each vector stands beside its test. -/

namespace Sys2Proof.Tests

open Sys2Proof Sys2Proof.Machine

/-! ### Well-formed fields (30_encoding.md R80, R81, R85) -/

theorem test_fields_of_legal_word : (Fields.mk 0x10 0 0x41 0 10).wellFormed .sd = true := by decide
theorem test_rsv1_must_be_zero : (Fields.mk 0x10 1 0x41 0 10).wellFormed .sd = false := by decide
theorem test_rsv2_must_be_zero : (Fields.mk 0x10 0 0x41 1 10).wellFormed .sd = false := by decide
theorem test_sym_must_be_zero_in_format_d : (Fields.mk 0x08 0 1 0 1).wellFormed .d = false := by decide
theorem test_sym_must_be_zero_in_format_n : (Fields.mk 0x01 0 1 0 0).wellFormed .n = false := by decide
theorem test_data_must_be_zero_in_format_s : (Fields.mk 0x20 0 0x41 0 1).wellFormed .s = false := by decide
theorem test_data_must_be_zero_in_format_n : (Fields.mk 0x31 0 0 0 1).wellFormed .n = false := by decide

/-! ### Decoding, by row of the opcode map (30_encoding.md R83, R89; 95_test_vectors.md section 2.7) -/

theorem test_decode_brReadbit : decodeTableWord 64 0x0100000000000000 = some .brReadbit := by decide
theorem test_decode_brReset : decodeTableWord 64 0x0200000000000000 = some .brReset := by decide
theorem test_decode_bwWritebit : decodeTableWord 64 0x08000000FFFFFFFF = some (.bwWritebit 0xFFFFFFFF) := by decide
theorem test_decode_bwFlush : decodeTableWord 64 0x0900000000000000 = some .bwFlush := by decide
theorem test_decode_bwReset : decodeTableWord 64 0x0A00000000000000 = some .bwReset := by decide
theorem test_decode_freqWr : decodeTableWord 64 0x100041000000000A = some (.freqWr 0x41 10) := by decide
theorem test_decode_freqRd : decodeTableWord 64 0x1100410000000000 = some (.freqRd 0x41) := by decide
theorem test_decode_treeBuild : decodeTableWord 64 0x1800000000000000 = some .treeBuild := by decide
theorem test_decode_treeClear : decodeTableWord 64 0x1900000000000000 = some .treeClear := by decide
theorem test_decode_encSym : decodeTableWord 64 0x2000FF0000000000 = some (.encSym 0xFF) := by decide
theorem test_decode_decSym : decodeTableWord 64 0x2800000000000000 = some .decSym := by decide
theorem test_decode_stRd : decodeTableWord 64 0x3000000000000000 = some .stRd := by decide
theorem test_decode_stClr : decodeTableWord 64 0x3100000000000000 = some .stClr := by decide

/-- The illegal words of 95_test_vectors.md section 2.7. -/
def illegalWords : List CmdWord :=
  [0x0000000000000000, 0x0300000000000000, 0xFF00000000000000, 0x0101000000000000, 0x0100000000000001,
   0x0100010000000000, 0x0800010000000001, 0x1000000100000005, 0x2000410000000001, 0x3100000000000001]

theorem test_illegal_words : illegalWords.all (fun w => opcodeMap.all fun r => !selects w r) = true := by decide
theorem test_unassigned_opcode : (match decode 0x0300000000000000 with | .error e => some e | .ok _ => none) =
    some .unassignedOpcode := by decide
theorem test_nonzero_field : (match decode 0x1800000000000001 with | .error e => some e | .ok _ => none) =
    some .nonzeroField := by decide

/-! ### Small states -/

/-- The frequency table with these entries and zeros elsewhere. -/
def table (l : List (Byte × Word)) : FreqTable :=
  l.foldl (fun f e => f.set (symIx e.1).val e.2 (symIx e.1).isLt) (Vector.replicate 256 0)

/-- The table of tree T4 of 95_test_vectors.md: A 10, B 5, C 3, D 2. -/
def freq4 : FreqTable := table [(0x41, 10), (0x42, 5), (0x43, 3), (0x44, 2)]

/-- The state right after reset, with this table loaded. -/
def loaded (f : FreqTable) : State := { State.reset with freq := f }

/-- The state right after reset, with this table loaded and its tree built. -/
def built (f : FreqTable) : State := { loaded f with tree := builtTree f Tree.empty.nodes }

/-- Tree T4 built (vector B2). -/
def t4 : State := built freq4

/-- The reader, the source's answers and nothing else set. -/
def withReader (r : Reader) (src : List (Option SrcAnswer)) (s : State) : State := { s with br := r, src := src }

/-- The writer, the sink's answers and nothing else set. -/
def withWriter (w : Writer) (snk : List (Option SnkAnswer)) (s : State) : State := { s with bw := w, snk := snk }

/-- The next state of a result. -/
def nextOf : Result → Option State
  | .next t => some t
  | .fault _ => none
  | .refused _ => none

/-- One step with this command word placed on the channel. -/
def stepOn (w : Nat) (s : State) : Option State := nextOf (step (s.withFetchWord 64 w))

/-- What a test looks at: the responses given, the reader, the writer, and STATUS. -/
def seen (s : Option State) : Option (List Response × Reader × Writer × Word) :=
  s.map fun s => (s.responses, s.br, s.bw, statusWord s)

/-- The responses given and the transactions recorded. -/
def ports (s : Option State) : Option (List Response × List Transaction) := s.map fun s => (s.responses, s.trace)

/-! ### Single steps (95_test_vectors.md sections 2.1 to 2.8) -/

/-- BR5: a refill at position 8 loads a new byte first. -/
theorem test_brReadbit_refill : seen (stepOn 0x0100000000000000 (withReader ⟨0x55, 8, false⟩ [some (.data 0x01)] State.reset)) =
    some ([⟨.ok, 0⟩], ⟨0x01, 1, false⟩, ⟨0x00, 0⟩, 0x00000010) := by decide +kernel
/-- BR6: the source is not asked once the latch is set. -/
theorem test_brReadbit_latched : ports (stepOn 0x0100000000000000 (withReader ⟨0xA5, 8, true⟩ [some (.data 0xFF)] State.reset)) =
    some ([⟨.eos, 0⟩], []) := by decide +kernel
/-- BR3: the unread bits are dropped. -/
theorem test_brReset : seen (stepOn 0x0200000000000000 (withReader ⟨0xF0, 1, true⟩ [] State.reset)) =
    some ([⟨.ok, 0⟩], ⟨0x00, 8, false⟩, ⟨0x00, 0⟩, 0x00000080) := by decide +kernel
/-- BW4: only bit 0 of DATA counts. -/
theorem test_bwWritebit_ignores_high_bits : seen (stepOn 0x0800000000000002 State.reset) =
    some ([⟨.ok, 0⟩], ⟨0x00, 8, false⟩, ⟨0x00, 1⟩, 0x00000180) := by decide +kernel
/-- BW5: a failed put leaves the full cache and drops the bit. -/
theorem test_bwWritebit_put_fails : seen (stepOn 0x0800000000000001 (withWriter ⟨0xFF, 8⟩ [some .ioErr] State.reset)) =
    some ([⟨.sinkIo, 0⟩], ⟨0x00, 8, false⟩, ⟨0xFF, 8⟩, 0x00200880) := by decide +kernel
/-- BW7: the put succeeds and the sync fails. -/
theorem test_bwFlush_sync_fails : seen (stepOn 0x0900000000000000 (withWriter ⟨0x80, 1⟩ [some .ok, some .ioErr] State.reset)) =
    some ([⟨.sinkIo, 1⟩], ⟨0x00, 8, false⟩, ⟨0x00, 0⟩, 0x00200080) := by decide +kernel
/-- BW9: an empty cache puts nothing and syncs nothing. -/
theorem test_bwFlush_empty : ports (stepOn 0x0900000000000000 State.reset) = some ([⟨.ok, 0⟩], []) := by decide +kernel
/-- BW8: the bit is discarded. -/
theorem test_bwReset : seen (stepOn 0x0A00000000000000 (withWriter ⟨0x80, 1⟩ [] State.reset)) =
    some ([⟨.ok, 0⟩], ⟨0x00, 8, false⟩, ⟨0x00, 0⟩, 0x00000080) := by decide +kernel
/-- B16: FREQ_WR 'A', 10. -/
theorem test_freqWr : (stepOn 0x100041000000000A State.reset).map (fun s => (s.responses, freqAt 0x41 s, freqAt 0x42 s)) =
    some ([⟨.ok, 0⟩], 10, 0) := by decide +kernel
/-- B13: FREQ_RD returns all 32 bits of a refused entry. -/
theorem test_freqRd : (stepOn 0x1100030000000000 (loaded (table [(0x03, 0x80000000)]))).map State.responses =
    some [⟨.ok, 0x80000000⟩] := by decide +kernel
/-- B5: the weight tie at the second merge, and the symbol of an internal node. -/
theorem test_treeBuild_ties :
    ((stepOn 0x1800000000000000 (loaded (table [(0x41, 1), (0x42, 2), (0x43, 1)]))).map fun s =>
      (s.responses, s.tree.root, nodeAt s.tree.nodes 256, nodeAt s.tree.nodes 257)) =
    some ([⟨.ok, 3⟩], some 257, some ⟨2, 0x43, some 0x43, some 0x41, some 257⟩, some ⟨4, 0x43, some 256, some 0x42, none⟩) := by
  decide +kernel
/-- PR1: REBUILD comes before BAD_FREQ. -/
theorem test_treeBuild_rebuild : seen (stepOn 0x1800000000000000 { t4 with freq := table [(0x03, 0x80000000)] }) =
    some ([⟨.rebuild, 0⟩], ⟨0x00, 8, false⟩, ⟨0x00, 0⟩, 0x00400083) := by decide +kernel
/-- B12: TREE_CLEAR empties the built tree. -/
theorem test_treeClear : (stepOn 0x1900000000000000 t4).map (fun s =>
      (s.responses, s.tree.root, leafAt 0x41 s, nodeAt s.tree.nodes 258, freqAt 0x41 s)) =
    some ([⟨.ok, 0⟩], none, none, none, 10) := by decide +kernel
/-- E5: the full cache goes out inside ENC_SYM 'D'. -/
theorem test_encSym_puts : (seen (stepOn 0x2000440000000000 (withWriter ⟨0xFE, 7⟩ [some .ok] t4)),
      (stepOn 0x2000440000000000 (withWriter ⟨0xFE, 7⟩ [some .ok] t4)).map sinkBytes) =
    (some ([⟨.ok, 0x00000344⟩], ⟨0x00, 8, false⟩, ⟨0x00, 2⟩, 0x00000283), some [0xFE]) := by decide +kernel
/-- E9: two bits are accepted before the failed put. -/
theorem test_encSym_put_fails : seen (stepOn 0x2000440000000000 (withWriter ⟨0xFC, 6⟩ [some .ioErr] t4)) =
    some ([⟨.sinkIo, 0x00000244⟩], ⟨0x00, 8, false⟩, ⟨0xFC, 8⟩, 0x00200883) := by decide +kernel
/-- DE1: 'C' is decoded from the first three bits of 0x20. -/
theorem test_decSym : seen (stepOn 0x2800000000000000 (withReader ⟨0x00, 8, false⟩ [some (.data 0x20)] t4)) =
    some ([⟨.ok, 0x00000343⟩], ⟨0x20, 3, false⟩, ⟨0x00, 0⟩, 0x00000033) := by decide +kernel
/-- DE8: two bits are consumed, then the source ends. -/
theorem test_decSym_ends : seen (stepOn 0x2800000000000000 (withReader ⟨0x00, 6, false⟩ [some .atEnd] t4)) =
    some ([⟨.eos, 0x00000200⟩], ⟨0x00, 8, true⟩, ⟨0x00, 0⟩, 0x00020087) := by decide +kernel
/-- ST1: STATUS right after reset. -/
theorem test_stRd : (stepOn 0x3000000000000000 State.reset).map State.responses = some [⟨.ok, 0x00000080⟩] := by
  decide +kernel
/-- ST5: ST_CLR after ST4. -/
theorem test_stClr : seen (stepOn 0x3100000000000000 { t4 with sticky := 0x24 }) =
    some ([⟨.ok, 0⟩], ⟨0x00, 8, false⟩, ⟨0x00, 0⟩, 0x00000083) := by decide +kernel
/-- PR5: an illegal word is found before the command's own errors. -/
theorem test_illegal_step : seen (stepOn 0x1800000000000001 t4) =
    some ([⟨.illegalCmd, 0⟩], ⟨0x00, 8, false⟩, ⟨0x00, 0⟩, 0x01000083) := by decide +kernel

/-! ### Codes (95_test_vectors.md section 2.3) -/

/-- The code of a symbol in the tree of a table; none for an absent symbol. -/
def codeIn (f : FreqTable) (sym : Byte) : Option (List Bool) :=
  match leafAt sym (built f) with
  | none => none
  | some n =>
    match codeOf (built f).tree.nodes n with
    | .ok c => some c
    | .error _ => none

/-- B2. -/
theorem test_codes_B2 : [0x41, 0x42, 0x43, 0x44, 0x45].map (codeIn freq4) =
    [some [true], some [false, true], some [false, false, true], some [false, false, false], none] := by decide +kernel
/-- B3. -/
theorem test_code_B3 : codeIn (table [(0x41, 100)]) 0x41 = some [false] := by decide +kernel
/-- B8. -/
theorem test_codes_B8 : [0x61, 0x62, 0x63, 0x64, 0x65].map
      (codeIn (table [(0x61, 1), (0x62, 1), (0x63, 1), (0x64, 1), (0x65, 1)])) =
    [some [true, false], some [false, true], some [false, false], some [true, true, true], some [true, true, false]] := by
  decide +kernel
/-- B14: the root's weight needs 33 bits. -/
theorem test_weight_B14 : (nodeAt (built (table [(0, 0x7FFFFFFF), (1, 0x7FFFFFFF), (2, 0x7FFFFFFF)])).tree.nodes 257).map
    Node.weight = some 0x17FFFFFFD := by decide +kernel

/-! ### The host's side (30_encoding.md R89, R90) -/

theorem test_assemble_freqWr : (assemble "FREQ_WR 'A', 10 ; load".toList).map (·.map encode) = some [0x100041000000000A] := by
  decide +kernel

/-- Log 17 and log 21: no blank between tokens, hexadecimal digits in either case, no copies of DEC_SYM. -/
theorem test_assemble_choices : assemble "FREQ_WR'A',10\nFREQ_RD 0xfF\nDEC_N 0".toList =
    some [.freqWr 0x41 10, .freqRd 0xFF] := by decide +kernel

theorem test_assemble_text : assemble "ENC_STR \"AB\"\nBW_FLUSH".toList = some [.encSym 0x41, .encSym 0x42, .bwFlush] := by
  decide +kernel

/-! ### Witnesses: concrete states and operands that meet an obligation's hypotheses together -/

/-- The invariant from its three parts. -/
theorem inv_of {s : State} (hr : ReaderOk s.br) (hw : WriterOk s.bw) (ht : TreeOk s.tree) : BlockInv s := ⟨hr, hw, ht⟩

theorem reset_inv : BlockInv State.reset :=
  inv_of (fun h => by cases h) writerOk_empty (by rw [TreeOk]; rfl)

theorem loaded_inv (f : FreqTable) : BlockInv (loaded f) := inv_of reset_inv.reader reset_inv.writer reset_inv.tree

theorem built_inv {f : FreqTable} (h : firstNegative f = none) : BlockInv (built f) :=
  inv_of reset_inv.reader reset_inv.writer (by rw [TreeOk]; exact builtOk_builtTree h)

theorem t4_inv : BlockInv t4 := built_inv (by decide +kernel)

/-- The invariant does not depend on the ports. -/
theorem withReader_inv {s : State} (h : BlockInv s) {r : Reader} (hr : ReaderOk r) (src : List (Option SrcAnswer)) :
    BlockInv (withReader r src s) := inv_of hr h.writer h.tree

theorem withWriter_inv {s : State} (h : BlockInv s) {w : Writer} (hw : WriterOk w) (snk : List (Option SnkAnswer)) :
    BlockInv (withWriter w snk s) := inv_of h.reader hw h.tree

/-- A cache whose unplaced bits are zero, checked bit by bit. -/
theorem writerOk_of {w : Writer} (h : (List.range 8).all (fun i => decide (i < w.pos.val) || !bitAt w.byte i) = true) :
    WriterOk w := by
  intro i hi h8
  have := List.all_eq_true.1 h i (List.mem_range.2 h8)
  simpa [Nat.not_lt.2 hi] using this

/-- The state with these inputs of the host. -/
def withHost (host : List HostEvent) (s : State) : State := { s with host := host }

theorem witness_EncodeOfDecodedGivesTheWord : decode 0x10004100FFFFFFFF = .ok (.freqWr 0x41 0xFFFFFFFF) := by decide

theorem witness_NoWordMatchesTwoRows : (⟨0x10, .freqWr, .sd⟩ : Row) ∈ opcodeMap ∧
    selects 0x1000FF00FFFFFFFF ⟨0x10, .freqWr, .sd⟩ = true := by decide

/-- Both kinds of illegal word: an unassigned opcode, and a nonzero field of each kind. -/
theorem witness_IllegalWordSetsOnlySticky8 : ∀ w ∈ illegalWords,
    (withHost [.command w] State.reset).waiting = none ∧ (withHost [.command w] State.reset).host = .command w :: [] ∧
      ∀ r ∈ opcodeMap, r.opc = (fieldsOf w).opc → (fieldsOf w).wellFormed r.format = false :=
  fun w hw => by
  refine ⟨rfl, rfl, fun r hr ho => ?_⟩
  have h := List.all_eq_true.1 (List.all_eq_true.1 test_illegal_words w hw) r hr
  rw [Bool.not_eq_true'] at h
  have := mt (selects_iff w r).2 (by rw [h]; decide)
  simpa [ho] using this

theorem witness_StepRunsTheDecodedCommand :
    (withHost [.command 0x2000410000000000, .reset] t4).waiting = none ∧
      (withHost [.command 0x2000410000000000, .reset] t4).host = .command 0x2000410000000000 :: [.reset] ∧
      decode 0x2000410000000000 = .ok (.encSym 0x41) := ⟨rfl, rfl, by decide⟩

/-- Reset while a command waits, reset as the last input, and reset that cuts BR_READBIT off, and the all-zero word,
before a response. -/
theorem witness_ResetInputResetsTheBlock :
    (withHost [.reset, .command 0x3000000000000000] { t4 with waiting := some .srcRead }).host =
      .reset :: [.command 0x3000000000000000] ∧ (withHost [.reset] t4).host = .reset :: [] ∧
    (withHost [.commandThenReset 0x0100000000000000] (withReader Reader.empty [some (.data 0xFF)] t4)).host =
      .commandThenReset 0x0100000000000000 :: [] ∧
    (withHost [.commandThenReset 0x0100000000000000] (withReader Reader.empty [some (.data 0xFF)] t4)).waiting = none ∧
    decode 0x0100000000000000 = .ok .brReadbit ∧
    (nextOf (exec .brReadbit (withReader Reader.empty [some (.data 0xFF)] t4))).isSome = true ∧
    ((withHost [.commandThenReset 0] t4).waiting = none ∧
      (withHost [.commandThenReset 0] t4).host = .commandThenReset 0 :: [] ∧ ∀ i, decode 0 ≠ .ok i) :=
  ⟨rfl, rfl, rfl, rfl, by decide, by decide +kernel, rfl, rfl, fun i h => by
    obtain ⟨r, hm, hs, -⟩ := (decode_eq_ok _ _).1 h
    have := List.all_eq_true.1 (List.all_eq_true.1 test_illegal_words 0 (by decide)) r hm
    rw [hs] at this
    cases this⟩

/-- R251: the byte read stays consumed, and there is no response. -/
theorem test_reset_cuts_a_command_off :
    (nextOf (step (withHost [.commandThenReset 0x0100000000000000]
      (withReader Reader.empty [some (.data 0xFF)] t4)))).map (fun t => (t.src, t.trace, t.responses, t.br, t.tree.built)) =
    some ([], [.srcRead (.data 0xFF)], [], Reader.empty, false) := by decide +kernel

/-- A waiting block with a command behind it, and an idle one. -/
theorem witness_WaitingAndIdleBlocksKeepTheirState :
    ((withHost [.command 0x3000000000000000] { t4 with waiting := some .snkSync }).host.head? ≠ some .reset ∧
      (withHost [.command 0x3000000000000000] { t4 with waiting := some .snkSync }).waiting ≠ none) ∧
    (State.reset.host.head? ≠ some .reset ∧ State.reset.host = []) :=
  ⟨⟨by decide, by decide⟩, by decide, rfl⟩

/-- Every clause, the cached bits at the first and the last position. -/
theorem witness_BrReadbitEffect :
    (withReader ⟨0xA5, 8, true⟩ [] State.reset).br.eos = true ∧
    (∀ p : Pos, p.val < 8 → (withReader ⟨0xA5, p, false⟩ [] State.reset).br.pos.val < 8) ∧
    (∀ a : SrcAnswer, (withReader ⟨0xA5, 8, false⟩ [some a] State.reset).br.eos = false ∧
      (withReader ⟨0xA5, 8, false⟩ [some a] State.reset).br.pos = 8 ∧
      (withReader ⟨0xA5, 8, false⟩ [some a] State.reset).src = some a :: []) :=
  ⟨rfl, fun _ h => h, fun _ => ⟨rfl, rfl, rfl⟩⟩

/-- The first read that returns EOS, and one that returns it from the latch; and commands on a latched reader that give a
next state. -/
theorem witness_EndOfStreamIsIdempotent :
    ((readBitCore (withReader Reader.empty [some .atEnd] State.reset)).1 = .eos ∧
    (readBitCore (withReader ⟨0xA5, 8, true⟩ [some (.data 0xFF)] State.reset)).1 = .eos) ∧
    ∀ i ∈ [Instr.brReadbit, .decSym, .treeClear],
      (nextOf (exec i (withReader ⟨0xA5, 8, true⟩ [some (.data 0xFF)] t4))).isSome = true := by decide +kernel

theorem witness_ReaderReturnsTheSourceBitsInOrder : ∀ n ≤ 16,
    (withReader Reader.empty (dataAnswers [0xA5, 0x01] ++ [some .atEnd]) State.reset).br.pos = 8 ∧
    (withReader Reader.empty (dataAnswers [0xA5, 0x01] ++ [some .atEnd]) State.reset).br.eos = false ∧
    (withReader Reader.empty (dataAnswers [0xA5, 0x01] ++ [some .atEnd]) State.reset).src =
      dataAnswers [0xA5, 0x01] ++ [some .atEnd] ∧
    n ≤ 8 * ([0xA5, 0x01] : List Byte).length := fun _ h => ⟨rfl, rfl, rfl, h⟩

/-- Room at the first and the last position, and a full cache with either answer. -/
theorem witness_BwWritebitEffect :
    (∀ p : Pos, p.val < 8 → (withWriter ⟨0x00, p⟩ [] State.reset).bw.pos.val < 8) ∧
    (∀ a : SnkAnswer, (withWriter ⟨0xFF, 8⟩ [some a] State.reset).bw.pos = 8 ∧
      (withWriter ⟨0xFF, 8⟩ [some a] State.reset).snk = some a :: []) :=
  ⟨fun _ h => h, fun _ => ⟨rfl, rfl⟩⟩

/-- The empty cache, and a cache with one bit and with eight and every answer. -/
theorem witness_BwFlushEffect :
    State.reset.bw.pos = 0 ∧
    (∀ p : Pos, p ≠ 0 → ∀ l : List (Option SnkAnswer),
      l = [some .ioErr] ∨ l = [some .ok, some .ioErr] ∨ l = [some .ok, some .ok] →
      (withWriter ⟨0x80, p⟩ l State.reset).bw.pos ≠ 0 ∧ (withWriter ⟨0x80, p⟩ l State.reset).snk = l) :=
  ⟨rfl, fun _ h _ _ => ⟨h, rfl⟩⟩

/-- Nine one bits (BW1): one byte is put. -/
def nine : State := withWriter Writer.empty [some .ok, some .ok, some .ok] State.reset

/-- The state after the nine bits. -/
def nineWritten : State := (writeMany (List.replicate 9 true) nine).2

/-- The state after the flush. -/
def nineFlushed : State := (nextOf (exec .bwFlush nineWritten)).getD State.reset

theorem witness_WriterEmitsLazily : nine.bw = ⟨0x00, 0⟩ ∧ List.replicate 9 true ≠ [] ∧
    writeMany (List.replicate 9 true) nine = (.ok, nineWritten) := ⟨rfl, by decide, Prod.ext (by decide +kernel) rfl⟩

theorem nineFlushed_next : exec .bwFlush nineWritten = .next nineFlushed := by
  have h : (nextOf (exec .bwFlush nineWritten)).isSome = true := by decide +kernel
  unfold nineFlushed
  cases he : exec .bwFlush nineWritten with
  | next t => rfl
  | fault f => rw [he] at h; cases h
  | refused r => rw [he] at h; cases h

theorem witness_FlushedStreamIsTheBitsPaddedWithZeros : nine.bw = ⟨0x00, 0⟩ ∧
    writeMany (List.replicate 9 true) nine = (.ok, nineWritten) ∧ exec .bwFlush nineWritten = .next nineFlushed ∧
    nineFlushed.responses = nineWritten.responses ++ [⟨.ok, 1⟩] :=
  ⟨rfl, witness_WriterEmitsLazily.2.2, nineFlushed_next, by decide +kernel⟩

theorem witness_BitsSurviveTheRoundTrip :
    (withReader Reader.empty (dataAnswers (newSinkBytes nine nineFlushed) ++ some .atEnd :: []) State.reset).br =
      ⟨0x00, 8, false⟩ ∧ newSinkBytes nine nineFlushed = [0xFF, 0x80] := ⟨rfl, by decide +kernel⟩

/-- Nine bits read across a byte boundary, and nine written. -/
theorem witness_BitCommandsRunTheBitActions :
    (readMany 9 (withReader Reader.empty (dataAnswers [0xA5, 0x80]) State.reset)).1 =
      [true, false, true, false, false, true, false, true, true].map .bit ∧
    writeMany (List.replicate 9 true) nine = (.ok, nineWritten) :=
  ⟨by decide +kernel, witness_WriterEmitsLazily.2.2⟩

/-- The first merge of a queue, and the last one a build can make. -/
theorem witness_MergeWiresTheFirstTwoExtracted :
    (∃ a b q1 q2 e1, extractFirst ⟨0x44, 2, 0x44⟩ [⟨0x43, 3, 0x43⟩] = (a, e1 :: q1) ∧ extractFirst e1 q1 = (b, q2) ∧
      a.ix ≠ b.ix ∧ a.ix.val < 256 + 0 ∧ b.ix.val < 256 + 0 ∧
      (nodeAt (writeLeaves (leafQueue freq4) Tree.empty.nodes) a.ix).isSome = true ∧
      (nodeAt (writeLeaves (leafQueue freq4) Tree.empty.nodes) b.ix).isSome = true) ∧ 254 < 255 :=
  ⟨⟨⟨0x44, 2, 0x44⟩, ⟨0x43, 3, 0x43⟩, [], [], ⟨0x43, 3, 0x43⟩, by decide +kernel⟩, by decide⟩

/-- The table of B13: entries 3 and 7 have bit 31 set. -/
def freq13 : FreqTable := table [(0x03, 0x80000000), (0x07, 0xFFFFFFFF)]

/-- A built tree with a refused entry (PR1), and the refused entries 3 (B13), 0 and 255. -/
theorem witness_TreeBuildErrorsChangeOnlySticky :
    t4.tree.built = true ∧
    ((loaded freq13).tree.built = false ∧ (freqAt 0x03 (loaded freq13)).getLsbD 31 = true ∧
      ∀ sym' : Byte, sym' < 0x03 → (freqAt sym' (loaded freq13)).getLsbD 31 = false) ∧
    ((loaded (table [(0, 0x80000000)])).tree.built = false ∧
      (freqAt 0 (loaded (table [(0, 0x80000000)]))).getLsbD 31 = true) ∧
    ((freqAt 0xFF (loaded (table [(0xFF, 0x80000000)]))).getLsbD 31 = true ∧
      ∀ sym' : Byte, sym' < 0xFF → (freqAt sym' (loaded (table [(0xFF, 0x80000000)]))).getLsbD 31 = false) := by
  decide +kernel

/-- Every entry zero, one nonzero entry at the largest value, and T4. -/
theorem witness_TreeBuildCompletesWithTheLeafCount :
    (∀ sym, (freqAt sym (loaded (table []))).getLsbD 31 = false) ∧
    (∀ sym, (freqAt sym (loaded (table [(0x41, 0x7FFFFFFF)]))).getLsbD 31 = false) ∧
    (∀ sym, (freqAt sym (loaded freq4)).getLsbD 31 = false) ∧
    ∀ f, BlockInv (loaded f) ∧ (loaded f).tree.built = false :=
  ⟨(firstNegative_eq_none _).1 (by decide +kernel), (firstNegative_eq_none _).1 (by decide +kernel),
    (firstNegative_eq_none _).1 (by decide +kernel), fun f => ⟨loaded_inv f, rfl⟩⟩

theorem witness_TreeBuildUsesTheseEntries : exec .treeBuild (loaded freq4) =
    .next (complete .ok (natResult (leafCount freq4)) (setTree (builtTree freq4 Tree.empty.nodes) (loaded freq4))) :=
  (execTreeBuild_ok (loaded_inv freq4) rfl witness_TreeBuildCompletesWithTheLeafCount.2.2.1).1

/-- An empty table, one leaf, and T4 with its three merges. -/
theorem witness_TreeBuildMergesTheQueueInOrder :
    (∀ f, BlockInv (loaded f) ∧ (loaded f).tree.built = false) ∧
    (∀ sym, (freqAt sym (loaded (table []))).getLsbD 31 = false) ∧
    (∀ sym, (freqAt sym (loaded (table [(0x41, 0x7FFFFFFF)]))).getLsbD 31 = false) ∧
    (∀ sym, (freqAt sym (loaded freq4)).getLsbD 31 = false) ∧
    freq4.toList.countP (fun w => w != 0) = 4 :=
  ⟨witness_TreeBuildCompletesWithTheLeafCount.2.2.2, witness_TreeBuildCompletesWithTheLeafCount.1,
    witness_TreeBuildCompletesWithTheLeafCount.2.1, witness_TreeBuildCompletesWithTheLeafCount.2.2.1, by decide +kernel⟩

/-- The example of R140: the three merges of T4. -/
theorem test_treeBuild_merges : [256, 257, 258].map (fun i => nodeAt t4.tree.nodes (Fin.ofNat 511 i)) =
    [some ⟨5, 0x44, some 0x44, some 0x43, some 257⟩, some ⟨10, 0x44, some 256, some 0x42, some 258⟩,
      some ⟨20, 0x44, some 257, some 0x41, none⟩] := by decide +kernel

theorem witness_RootWeightIsTheSymbolCount : (builtTree freq4 Tree.empty.nodes).root = some 258 ∧
    nodeAt (builtTree freq4 Tree.empty.nodes).nodes 258 = some ⟨20, 0x44, some 257, some 0x41, none⟩ := by
  decide +kernel

/-- Two states with one table that differ elsewhere. -/
theorem witness_TreeBuildIsDeterministic :
    BlockInv (loaded freq4) ∧ BlockInv (withReader ⟨0xA5, 3, false⟩ [] (loaded freq4)) ∧
    (withReader ⟨0xA5, 3, false⟩ [] (loaded freq4)).tree.built = false ∧
    (withReader ⟨0xA5, 3, false⟩ [] (loaded freq4)).freq = (loaded freq4).freq :=
  ⟨loaded_inv _, withReader_inv (loaded_inv _) (fun h => by cases h) [], rfl, rfl⟩

theorem witness_TreeRulesHoldAfterEveryStep : BlockInv t4 ∧ step t4 = .next t4 ∧ t4.tree.built = true :=
  ⟨t4_inv, rfl, rfl⟩

theorem witness_EveryStepKeepsTheInvariant : BlockInv (withHost [.command 0x2800000000000000] t4) ∧
    (nextOf (step (withHost [.command 0x2800000000000000] t4))).isSome = true :=
  ⟨inv_of t4_inv.reader t4_inv.writer t4_inv.tree, by decide +kernel⟩

theorem witness_NoStepStopsUnderTheInvariant : BlockInv State.reset ∧ BlockInv t4 := ⟨reset_inv, t4_inv⟩

/-- A command of each unit that gives a next state, and one that waits. -/
theorem witness_CommandsWriteOnlyTheirUnit : ∀ i ∈ [Instr.brReadbit, .bwWritebit 1, .freqWr 0x41 1, .treeBuild,
    .encSym 0x41, .decSym, .stClr], (nextOf (exec i t4)).isSome = true := by decide +kernel

/-- A completing command and one that waits. -/
theorem witness_OneResponseAndItsStickyBit :
    (nextOf (exec .decSym (withReader ⟨0x00, 6, false⟩ [some .atEnd] t4))).isSome = true ∧
    (nextOf (exec .brReadbit State.reset)).map State.waiting = some (some .srcRead) := by decide +kernel

/-- A command with two transactions, the second an IOERR. -/
theorem witness_TransactionsOfACommand :
    (nextOf (exec .bwFlush (withWriter ⟨0x80, 1⟩ [some .ok, some .ioErr] State.reset))).map State.trace =
      some [.snkPut 0x80 .ok, .snkSync .ioErr] := by decide +kernel

/-- One command for each completion code: BR1, DE6, E7, BR2, BW5, PR1, B13. -/
theorem witness_CompletionCodesHaveTheirCauses :
    ([(Instr.brReadbit, withReader Reader.empty [some .atEnd] State.reset), (.decSym, State.reset), (.encSym 0x45, t4),
      (.brReadbit, withReader Reader.empty [some .ioErr] State.reset),
      (.bwWritebit 1, withWriter ⟨0xFF, 8⟩ [some .ioErr] State.reset), (.treeBuild, t4),
      (.treeBuild, loaded freq13)].map fun e => (nextOf (exec e.1 e.2)).map State.responses) =
    [some [⟨.eos, 0⟩], some [⟨.emptyTree, 0⟩], some [⟨.absentSym, 0x45⟩], some [⟨.srcIo, 0⟩], some [⟨.sinkIo, 0⟩],
      some [⟨.rebuild, 0⟩], some [⟨.badFreq, 3⟩]] := by decide +kernel

theorem witness_CodeIsThePathFromTheRoot : BlockInv t4 ∧ leafAt 0x43 t4 = some 0x43 ∧ t4.tree.root = some 258 ∧
    2 ≤ leavesOf t4.tree := ⟨t4_inv, by decide +kernel⟩

theorem code_C : codeOf t4.tree.nodes 0x43 = .ok [false, false, true] := by
  have h : (match codeOf t4.tree.nodes 0x43 with | .ok c => some c | .error _ => none) = some [false, false, true] := by
    decide +kernel
  split at h
  · rename_i c hc; rw [hc, Option.some.inj h]
  · cases h

theorem code_D : codeOf t4.tree.nodes 0x44 = .ok [false, false, false] := by
  have h : (match codeOf t4.tree.nodes 0x44 with | .ok c => some c | .error _ => none) = some [false, false, false] := by
    decide +kernel
  split at h
  · rename_i c hc; rw [hc, Option.some.inj h]
  · cases h

theorem leaf_C : leafAt 0x43 t4 = some 0x43 := by decide +kernel
theorem leaf_D : leafAt 0x44 t4 = some 0x44 := by decide +kernel

theorem witness_CodesArePrefixFree : BlockInv t4 ∧ (0x43 : Byte) ≠ 0x44 ∧ leafAt 0x43 t4 = some 0x43 ∧
    leafAt 0x44 t4 = some 0x44 ∧ codeOf t4.tree.nodes 0x43 = .ok [false, false, true] ∧
    codeOf t4.tree.nodes 0x44 = .ok [false, false, false] := ⟨t4_inv, by decide, leaf_C, leaf_D, code_C, code_D⟩

theorem witness_CodeLengthBound : BlockInv t4 ∧ 2 ≤ leavesOf t4.tree ∧ leafAt 0x43 t4 = some 0x43 ∧
    codeOf t4.tree.nodes 0x43 = .ok [false, false, true] := ⟨t4_inv, by decide +kernel, leaf_C, code_C⟩

/-- E3 (no put) and E5 (one put): the code of 'D' after none, and after seven bits in the cache. -/
theorem witness_EncSymWritesTheCode :
    (BlockInv t4 ∧ t4.snk = okAnswers ((t4.bw.pos.val + 3 + 7) / 8 - 1) ++ []) ∧
    (BlockInv (withWriter ⟨0xFE, 7⟩ [some .ok] t4) ∧ leafAt 0x44 (withWriter ⟨0xFE, 7⟩ [some .ok] t4) = some 0x44 ∧
      codeOf (withWriter ⟨0xFE, 7⟩ [some .ok] t4).tree.nodes 0x44 = .ok [false, false, false] ∧
      (withWriter ⟨0xFE, 7⟩ [some .ok] t4).snk = okAnswers ((7 + 3 + 7) / 8 - 1) ++ []) :=
  ⟨⟨t4_inv, rfl⟩, withWriter_inv t4_inv (writerOk_of (by decide)) _, leaf_D, code_D, rfl⟩

/-- E7, E8 and E10. -/
theorem witness_EncSymOfAbsentSymbolIsANoOp : leafAt 0x45 t4 = none ∧
    (BlockInv State.reset ∧ State.reset.tree.built = false) ∧
    (BlockInv (built (table [(0x41, 100)])) ∧ leafAt 0x41 (built (table [(0x41, 100)])) = some 0x41 ∧
      leavesOf (built (table [(0x41, 100)])).tree = 1) :=
  ⟨by decide +kernel, ⟨reset_inv, rfl⟩, built_inv (by decide +kernel), by decide +kernel, by decide +kernel⟩

/-- E9. -/
theorem witness_EncSymSinkErrorKeepsTheAcceptedBits :
    BlockInv (withWriter ⟨0xFC, 6⟩ [some .ioErr] t4) ∧ leafAt 0x44 (withWriter ⟨0xFC, 6⟩ [some .ioErr] t4) = some 0x44 ∧
    codeOf (withWriter ⟨0xFC, 6⟩ [some .ioErr] t4).tree.nodes 0x44 = .ok [false, false, false] ∧
    0 < (6 + 3 + 7) / 8 - 1 ∧ (withWriter ⟨0xFC, 6⟩ [some .ioErr] t4).snk = okAnswers 0 ++ some .ioErr :: [] :=
  ⟨withWriter_inv t4_inv (writerOk_of (by decide)) _, leaf_D, code_D, by decide, rfl⟩

/-- Every clause, with the answers at an end and with an entry `none`: E9's writer and DE8's reader with no answer. -/
theorem witness_UnansweredTransactionLeavesTheBlockWaiting :
    (∀ l : List (Option SrcAnswer), Unanswered (none :: l) l) ∧ Unanswered ([] : List (Option SrcAnswer)) [] ∧
    (∀ l : List (Option SnkAnswer), Unanswered (none :: l) l) ∧ Unanswered ([] : List (Option SnkAnswer)) [] ∧
    (State.reset.br.eos = false ∧ State.reset.br.pos = 8 ∧ State.reset.src = []) ∧
    (withWriter ⟨0xFF, 8⟩ [none] State.reset).bw.pos = 8 ∧
    ((withWriter ⟨0x80, 1⟩ [some .ok, none] State.reset).bw.pos ≠ 0 ∧
      (withWriter ⟨0x80, 1⟩ [some .ok, none] State.reset).snk = some .ok :: [none]) ∧
    (BlockInv (withWriter ⟨0xFC, 6⟩ [none] t4) ∧ leafAt 0x44 (withWriter ⟨0xFC, 6⟩ [none] t4) = some 0x44 ∧
      codeOf (withWriter ⟨0xFC, 6⟩ [none] t4).tree.nodes 0x44 = .ok [false, false, false] ∧
      0 < (6 + 3 + 7) / 8 - 1 ∧ (withWriter ⟨0xFC, 6⟩ [none] t4).snk = okAnswers 0 ++ [none]) ∧
    BlockInv (withReader ⟨0x00, 6, false⟩ [none] t4) ∧ t4.tree.root = some 258 ∧
    (byteBits 0x00).drop 6 ++ bitsOf [] = [false, false] ∧ descend t4.tree.nodes 258 [false, false] = some 256 ∧
    nodeAt t4.tree.nodes 256 = some ⟨5, 0x44, some 0x44, some 0x43, some 257⟩ ∧
    (withReader ⟨0x00, 6, false⟩ [none] t4).src = dataAnswers [] ++ [none] :=
  ⟨fun _ => .inr rfl, .inl ⟨rfl, rfl⟩, fun _ => .inr rfl, .inl ⟨rfl, rfl⟩, by decide, rfl, by decide,
    ⟨withWriter_inv t4_inv (writerOk_of (by decide)) _, leaf_D, code_D, by decide, rfl⟩,
    withReader_inv t4_inv (fun h => by cases h) _, by decide +kernel, by decide, by decide +kernel, by decide +kernel, rfl⟩

/-- R233, R12: the bits an ENC_SYM has placed before the put it waits on stay; there is no response. -/
theorem test_encSym_waits : (nextOf (exec (.encSym 0x44) (withWriter ⟨0xFC, 6⟩ [] t4))).map
    (fun t => (t.bw, t.waiting, t.responses)) = some (⟨0xFC, 8⟩, some (.snkPut 0xFC), []) := by decide +kernel

/-- DE6 and DE4. -/
theorem witness_DecSymReadsNoBitWithoutAnInnerRoot : State.reset.tree.root = none ∧
    (built (table [(0x41, 100)])).tree.root = some 0x41 ∧
    nodeAt (built (table [(0x41, 100)])).tree.nodes 0x41 = some ⟨100, 0x41, none, none, none⟩ := by decide +kernel

/-- DE1: the first three bits of 0x20 are the code of 'C'; and a cache whose last three bits are the code. -/
theorem witness_DecSymReturnsTheSymbolOfTheCode :
    BlockInv (withReader Reader.empty (dataAnswers [0x20] ++ [some .atEnd]) t4) ∧
    2 ≤ leavesOf (withReader Reader.empty (dataAnswers [0x20] ++ [some .atEnd]) t4).tree ∧
    leafAt 0x43 (withReader Reader.empty (dataAnswers [0x20] ++ [some .atEnd]) t4) = some 0x43 ∧
    codeOf (withReader Reader.empty (dataAnswers [0x20] ++ [some .atEnd]) t4).tree.nodes 0x43 =
      .ok [false, false, true] ∧
    (byteBits Reader.empty.byte).drop Reader.empty.pos.val ++ bitsOf [0x20] =
      [false, false, true] ++ [false, false, false, false, false] ∧
    BlockInv (withReader ⟨0x01, 5, false⟩ (dataAnswers [] ++ [some .atEnd]) t4) ∧
    (byteBits 0x01).drop 5 ++ bitsOf [] = [false, false, true] ++ [] :=
  ⟨withReader_inv t4_inv (fun h => by cases h) _, by decide +kernel, leaf_C, code_C, by decide,
    withReader_inv t4_inv (fun h => by cases h) _, by decide⟩

/-- DE8 and its IOERR form: the two bits left in the cache lead to an internal node; and a latched reader. -/
theorem witness_DecSymStopsInsideACode :
    BlockInv (withReader ⟨0x00, 6, false⟩ [some .atEnd] t4) ∧ BlockInv (withReader ⟨0x00, 6, false⟩ [some .ioErr] t4) ∧
    t4.tree.root = some 258 ∧ (byteBits 0x00).drop 6 ++ bitsOf [] = [false, false] ∧
    descend t4.tree.nodes 258 [false, false] = some 256 ∧
    nodeAt t4.tree.nodes 256 = some ⟨5, 0x44, some 0x44, some 0x43, some 257⟩ ∧
    (withReader ⟨0x00, 8, true⟩ [] t4).br.eos = true ∧
    nodeAt t4.tree.nodes 258 = some ⟨20, 0x44, some 257, some 0x41, none⟩ :=
  ⟨withReader_inv t4_inv (fun h => by cases h) _, withReader_inv t4_inv (fun h => by cases h) _, by decide +kernel,
    by decide, by decide +kernel, by decide +kernel, rfl, by decide +kernel⟩

theorem witness_EveryBitSequenceStartsWithOneCode : BlockInv t4 ∧ t4.tree.root = some 258 ∧
    255 ≤ (List.replicate 255 false).length := ⟨t4_inv, by decide +kernel⟩

/-- E12 and DE2: "AAAB" encoded on T4, its payload 0xE8 decoded. -/
def encoder : State := withWriter Writer.empty (okAnswers (32 * 4 + 2)) t4

theorem witness_DecodingTheEncodedBytesGivesThemBack :
    BlockInv encoder ∧ BlockInv (withReader Reader.empty (dataAnswers [0xE8]) t4) ∧ encoder.tree.built = true ∧
    (∀ b ∈ ([0x41, 0x41, 0x41, 0x42] : List Byte), (leafAt b encoder).isSome = true) ∧ encoder.bw = ⟨0x00, 0⟩ ∧
    encoder.snk = okAnswers (32 * ([0x41, 0x41, 0x41, 0x42] : List Byte).length + 2) ++ [] ∧
    (nextOf (execAll (encStr [0x41, 0x41, 0x41, 0x42] ++ [.bwFlush]) encoder)).map (newSinkBytes encoder) =
      some [0xE8] :=
  ⟨withWriter_inv t4_inv writerOk_empty _, withReader_inv t4_inv (fun h => by cases h) _, rfl, by decide +kernel, rfl,
    by simp [encoder, withWriter], by decide +kernel⟩

/-- The input "A": the compressing block, and a decompressing block for any bytes the first one put. -/
theorem witness_DecompressionGivesTheInputBack : ∀ bytes : List Byte,
    ([0x41] : List Byte).length < 2 ^ 31 ∧
    (withHost (compression [0x41]) (withWriter Writer.empty (okAnswers (32 * 1 + 2) ++ []) State.reset)).host =
      compression [0x41] ∧
    (withHost (compression [0x41]) (withWriter Writer.empty (okAnswers (32 * 1 + 2) ++ []) State.reset)).snk =
      okAnswers (32 * 1 + 2) ++ [] ∧
    (withHost (decompression (countTable [0x41])) (withReader Reader.empty (dataAnswers bytes ++ []) State.reset)).host =
      decompression (countTable [0x41]) ∧
    (withHost (decompression (countTable [0x41])) (withReader Reader.empty (dataAnswers bytes ++ []) State.reset)).src =
      dataAnswers bytes ++ [] := fun _ => ⟨by decide, rfl, rfl, rfl, rfl⟩

end Sys2Proof.Tests
end

section
/-! SUPPORT. Which unit of the state each command can write (10_state.md R40), and with it what every step keeps (R26, R34,
R41, R42; 40_bit_io.md R101). -/

namespace Sys2Proof.Machine

/-! ### Moves: what a command of one unit may do to the state -/

/-- Of the units and the coming inputs at most the bit reader differs, and the reader's rule is kept. -/
structure ReaderMove (s t : State) : Prop where
  bw     : t.bw = s.bw
  freq   : t.freq = s.freq
  tree   : t.tree = s.tree
  host   : t.host = s.host
  reader : ReaderOk s.br → ReaderOk t.br

/-- Of the units and the coming inputs at most the bit writer differs, and the writer's rule is kept. -/
structure WriterMove (s t : State) : Prop where
  br     : t.br = s.br
  freq   : t.freq = s.freq
  tree   : t.tree = s.tree
  host   : t.host = s.host
  writer : WriterOk s.bw → WriterOk t.bw

/-- The bit reader, the bit writer and the coming inputs are as before. -/
structure BitIoKept (s t : State) : Prop where
  br   : t.br = s.br
  bw   : t.bw = s.bw
  host : t.host = s.host

/-- What command `i` did where it gave the next state `t`: a unit's commands write that unit, the others none (10_state.md
R40); the tree is written by TREE_CLEAR, and by a TREE_BUILD that is not refused (41_tree_build.md R141, R142). -/
inductive ExecMove (i : Instr) (s t : State) : Prop
  | reader (hi : i = .brReadbit ∨ i = .brReset ∨ i = .decSym) (hm : ReaderMove s t)
  | writer (hi : (∃ data, i = .bwWritebit data) ∨ i = .bwFlush ∨ i = .bwReset ∨ ∃ sym, i = .encSym sym)
      (hm : WriterMove s t)
  | table (hi : ∃ sym data, i = .freqWr sym data) (hio : BitIoKept s t) (htree : t.tree = s.tree)
  | clears (hi : i = .treeClear) (hio : BitIoKept s t) (hfreq : t.freq = s.freq) (htree : t.tree = Tree.empty)
  | builds (hi : i = .treeBuild) (hb : s.tree.built = false) (hf : firstNegative s.freq = none) (hio : BitIoKept s t)
      (hfreq : t.freq = s.freq) (htree : t.tree = builtTree s.freq s.tree.nodes)
  | nothing (hio : BitIoKept s t) (hfreq : t.freq = s.freq) (htree : t.tree = s.tree)

theorem ReaderMove.refl (s : State) : ReaderMove s s := ⟨rfl, rfl, rfl, rfl, id⟩

theorem ReaderMove.trans {s t u : State} (h : ReaderMove s t) (h' : ReaderMove t u) : ReaderMove s u :=
  ⟨h'.bw.trans h.bw, h'.freq.trans h.freq, h'.tree.trans h.tree, h'.host.trans h.host, h'.reader ∘ h.reader⟩

theorem ReaderMove.complete {s t : State} (h : ReaderMove s t) (cc : CC) (res : Word) :
    ReaderMove s (complete cc res t) := h.trans ⟨rfl, rfl, rfl, rfl, id⟩

theorem ReaderMove.raise {s t : State} (h : ReaderMove s t) (cc : CC) (res : Word) :
    ReaderMove s (raise cc res t) := h.complete cc res

theorem WriterMove.refl (s : State) : WriterMove s s := ⟨rfl, rfl, rfl, rfl, id⟩

theorem WriterMove.trans {s t u : State} (h : WriterMove s t) (h' : WriterMove t u) : WriterMove s u :=
  ⟨h'.br.trans h.br, h'.freq.trans h.freq, h'.tree.trans h.tree, h'.host.trans h.host, h'.writer ∘ h.writer⟩

theorem WriterMove.complete {s t : State} (h : WriterMove s t) (cc : CC) (res : Word) :
    WriterMove s (complete cc res t) := h.trans ⟨rfl, rfl, rfl, rfl, id⟩

theorem WriterMove.raise {s t : State} (h : WriterMove s t) (cc : CC) (res : Word) :
    WriterMove s (raise cc res t) := h.complete cc res

/-! ### The bit actions and the stream transactions are moves -/

theorem readerOk_empty : ReaderOk Reader.empty := fun _ => rfl

theorem readBitCore_move {s t : State} {r : ReadResult} (h : readBitCore s = (r, t)) : ReaderMove s t := by
  obtain ⟨hbw, hfreq, htree, -, hhost, -⟩ := readBitCore_frame s
  have hr := readerOk_readBitCore s
  rw [h] at hbw hfreq htree hhost hr
  exact ⟨hbw, hfreq, htree, hhost, hr⟩

theorem readMany_move : ∀ (n : Nat) (s : State), ReaderMove s (readMany n s).2
  | 0, s => .refl s
  | n + 1, _ => (readBitCore_move rfl).trans (readMany_move n _)

theorem walkDown_move {fuel k : Nat} {n : NodeIx} {s t : State} (h : walkDown fuel n k s = .next t) : ReaderMove s t := by
  obtain ⟨c, u, hm, hend⟩ := walkDown_shape h
  have hu : ReaderMove s u := by simpa [hm] using readMany_move c.length s
  rcases hend with ⟨sym, rfl⟩ | ⟨v, hv, rfl⟩ | ⟨v, hv, rfl⟩ | hv
  · exact hu.complete _ _
  · exact (hu.trans (readBitCore_move hv)).raise _ _
  · exact (hu.trans (readBitCore_move hv)).raise _ _
  · exact hu.trans (readBitCore_move hv)

theorem writeBitCore_move {s t : State} {v : Bool} {r : WriteResult} (h : writeBitCore v s = (r, t)) :
    WriterMove s t := by
  obtain ⟨hbr, hfreq, htree, -, hhost, -⟩ := writeBitCore_frame s v
  have hw := writerOk_writeBitCore s v
  rw [h] at hbr hfreq htree hhost hw
  exact ⟨hbr, hfreq, htree, hhost, hw⟩

theorem writeMany_move : ∀ {vs : List Bool} {s t : State}, writeMany vs s = (.ok, t) → WriterMove s t
  | [], s, t, h => by cases h; exact .refl s
  | v :: vs, s, t, h => by
    rw [writeMany] at h
    rcases hw : writeBitCore v s with ⟨r, u⟩
    rw [hw] at h
    cases r with
    | ok => exact (writeBitCore_move hw).trans (writeMany_move h)
    | sinkIo | waits => cases h

theorem writeCode_move {sym : Byte} {c : List Bool} {k : Nat} {s t : State} (h : writeCode sym c k s = .next t) :
    WriterMove s t := by
  obtain ⟨c1, c2, u, -, hm, hend⟩ := writeCode_shape h
  have hu : WriterMove s u := writeMany_move hm
  rcases hend with ⟨-, rfl⟩ | ⟨v, c3, w, -, hw, rfl⟩ | ⟨v, c3, -, hw⟩
  · exact hu.complete _ _
  · exact (hu.trans (writeBitCore_move hw)).raise _ _
  · exact hu.trans (writeBitCore_move hw)

theorem snkPut_move {b : Byte} {s t : State} {a : Option SnkAnswer} (h : snkPut b s = (a, t)) : WriterMove s t := by
  rcases snkPut_cases s b with ⟨_, _, -, hp⟩ | ⟨_, -, hp⟩ | ⟨-, hp⟩ <;> rw [hp] at h <;> cases h <;>
    exact ⟨rfl, rfl, rfl, rfl, id⟩

theorem snkSync_move {s t : State} {a : Option SnkAnswer} (h : snkSync s = (a, t)) : WriterMove s t := by
  rcases snkSync_cases s with ⟨_, _, -, hp⟩ | ⟨_, -, hp⟩ | ⟨-, hp⟩ <;> rw [hp] at h <;> cases h <;>
    exact ⟨rfl, rfl, rfl, rfl, id⟩

theorem setBr_empty_move (s : State) : ReaderMove s (setBr Reader.empty s) := ⟨rfl, rfl, rfl, rfl, fun _ => readerOk_empty⟩

theorem setBw_empty_move (s : State) : WriterMove s (setBw Writer.empty s) := ⟨rfl, rfl, rfl, rfl, fun _ => writerOk_empty⟩

/-! ### The commands are moves -/

theorem execBrReadbit_move {s t : State} (h : execBrReadbit s = .next t) : ReaderMove s t := by
  rw [execBrReadbit] at h
  rcases hr : readBitCore s with ⟨r, u⟩
  rw [hr] at h
  cases r with
  | bit v => cases h; exact (readBitCore_move hr).complete _ _
  | eos | srcIo => cases h; exact (readBitCore_move hr).raise _ _
  | waits => cases h; exact readBitCore_move hr

theorem execDecSym_move {s t : State} (h : execDecSym s = .next t) : ReaderMove s t := by
  rw [execDecSym] at h
  cases hr : s.tree.root with rw [hr] at h
  | none => cases h; exact (ReaderMove.refl s).raise _ _
  | some r => exact walkDown_move h

theorem execBwWritebit_move {data : Word} {s t : State} (h : execBwWritebit data s = .next t) : WriterMove s t := by
  rw [execBwWritebit] at h
  rcases hw : writeBitCore (dataBit data) s with ⟨r, u⟩
  rw [hw] at h
  cases r with
  | ok => cases h; exact (writeBitCore_move hw).complete _ _
  | sinkIo => cases h; exact (writeBitCore_move hw).raise _ _
  | waits => cases h; exact writeBitCore_move hw

theorem execBwFlush_move {s t : State} (h : execBwFlush s = .next t) : WriterMove s t := by
  rw [execBwFlush] at h
  split at h
  case isTrue => cases h; exact (WriterMove.refl s).complete _ _
  case isFalse =>
    rcases hp : snkPut s.bw.byte s with ⟨_ | a, u⟩ <;> rw [hp] at h
    case none => cases h; exact snkPut_move hp
    case some =>
      cases a with
      | ioErr => cases h; exact (snkPut_move hp).raise _ _
      | ok =>
        have hu : WriterMove s (setBw Writer.empty u) := (snkPut_move hp).trans (setBw_empty_move u)
        rcases hy : snkSync (setBw Writer.empty u) with ⟨_ | a, v⟩ <;> simp only [hy] at h
        case none => cases h; exact hu.trans (snkSync_move hy)
        case some =>
          cases a with
          | ok => cases h; exact (hu.trans (snkSync_move hy)).complete _ _
          | ioErr => cases h; exact (hu.trans (snkSync_move hy)).raise _ _

theorem execEncSym_move {sym : Byte} {s t : State} (h : execEncSym sym s = .next t) : WriterMove s t := by
  rw [execEncSym] at h
  cases hl : leafAt sym s with simp only [hl] at h
  | none => cases h; exact (WriterMove.refl s).raise _ _
  | some n =>
    cases hc : codeOf s.tree.nodes n with rw [hc] at h
    | error e => cases h
    | ok c => exact writeCode_move h

theorem execTreeBuild_move {s t : State} (h : execTreeBuild s = .next t) : ExecMove .treeBuild s t := by
  rw [execTreeBuild] at h
  split at h
  case isTrue => cases h; exact .nothing ⟨rfl, rfl, rfl⟩ rfl rfl
  case isFalse hb =>
    cases hf : firstNegative s.freq with rw [hf] at h
    | some k => cases h; exact .nothing ⟨rfl, rfl, rfl⟩ rfl rfl
    | none => cases h; exact .builds rfl (Bool.eq_false_of_not_eq_true hb) hf ⟨rfl, rfl, rfl⟩ rfl rfl

/-- A command that gives a next state writes at most the unit it belongs to (10_state.md R40). -/
theorem exec_move {i : Instr} {s t : State} (h : exec i s = .next t) : ExecMove i s t := by
  cases i with
  | brReadbit => exact .reader (by simp) (execBrReadbit_move h)
  | brReset => cases h; exact .reader (by simp) ((setBr_empty_move s).complete _ _)
  | decSym => exact .reader (by simp) (execDecSym_move h)
  | bwWritebit data => exact .writer (by simp) (execBwWritebit_move h)
  | bwFlush => exact .writer (by simp) (execBwFlush_move h)
  | bwReset => cases h; exact .writer (by simp) ((setBw_empty_move s).complete _ _)
  | encSym sym => exact .writer (by simp) (execEncSym_move h)
  | freqWr sym data => cases h; exact .table ⟨sym, data, rfl⟩ ⟨rfl, rfl, rfl⟩ rfl
  | treeClear => cases h; exact .clears rfl ⟨rfl, rfl, rfl⟩ rfl rfl
  | treeBuild => exact execTreeBuild_move h
  | freqRd | stRd | stClr => cases h; exact .nothing ⟨rfl, rfl, rfl⟩ rfl rfl

/-! ### The invariant, command by command and step by step -/

/-- An unbuilt tree that keeps the invariant is empty (10_state.md R41, R42). -/
theorem TreeOk.eq_empty {t : Tree} (h : TreeOk t) (hb : t.built = false) : t = Tree.empty := by
  rwa [TreeOk, hb, if_neg (by decide)] at h

theorem TreeOk.builtOk {t : Tree} (h : TreeOk t) (hb : t.built = true) : BuiltOk t := treeOk_built h (.inr (.inl hb))

theorem treeOk_empty : TreeOk Tree.empty := by
  rw [TreeOk, if_neg (by decide)]

/-- TREE_BUILD on an unbuilt tree that keeps the invariant makes one that keeps it. -/
theorem treeOk_builtTree {t : Tree} {freq : FreqTable} (h : TreeOk t) (hb : t.built = false)
    (hf : firstNegative freq = none) : TreeOk (builtTree freq t.nodes) := by
  rw [h.eq_empty hb, TreeOk, if_pos (by rfl)]
  exact builtOk_builtTree hf

theorem ExecMove.blockInv {i : Instr} {s t : State} (h : ExecMove i s t) (hs : BlockInv s) : BlockInv t := by
  obtain ⟨hr, hw, ht⟩ := hs
  cases h with
  | reader _ hm => exact ⟨hm.reader hr, hm.bw ▸ hw, hm.tree ▸ ht⟩
  | writer _ hm => exact ⟨hm.br ▸ hr, hm.writer hw, hm.tree ▸ ht⟩
  | table _ hio htree => exact ⟨hio.br ▸ hr, hio.bw ▸ hw, htree ▸ ht⟩
  | clears _ hio _ htree => exact ⟨hio.br ▸ hr, hio.bw ▸ hw, htree ▸ treeOk_empty⟩
  | builds _ hb hf hio _ htree => exact ⟨hio.br ▸ hr, hio.bw ▸ hw, htree ▸ treeOk_builtTree ht hb hf⟩
  | nothing hio _ htree => exact ⟨hio.br ▸ hr, hio.bw ▸ hw, htree ▸ ht⟩

/-- A command word, legal or not, keeps the invariant (30_encoding.md R85, R87). -/
theorem runWord_blockInv {w : CmdWord} {s t : State} (h : runWord w s = .next t) (hs : BlockInv s) : BlockInv t := by
  rw [runWord] at h
  cases hd : decode w with rw [hd] at h
  | error e => cases h; exact ⟨hs.reader, hs.writer, hs.tree⟩
  | ok i => exact (exec_move h).blockInv hs

/-- Reset gives every state element its reset value (10_state.md R22; 70_reset_and_hazards.md R250). -/
theorem resetBlock_holdsResetValues (s : State) : HoldsResetValues (resetBlock s) where
  reader := rfl
  writer := rfl
  freq _ := Vector.getElem_replicate _
  built := rfl
  root := rfl
  leaf _ := Vector.getElem_replicate _
  nodes _ := Vector.getElem_replicate _
  sticky := rfl
  waiting := rfl

theorem resetBlock_blockInv (s : State) : BlockInv (resetBlock s) := ⟨readerOk_empty, writerOk_empty, treeOk_empty⟩

/-- The state right after reset is one that a reset input gives. -/
theorem resetBlock_reset : resetBlock State.reset = State.reset := rfl

theorem nextActivity_resets {s u : State} (h : nextActivity s = .resets u) :
    s.host.head? = some .reset ∧ u = popHost s := by
  rw [nextActivity] at h
  split at h <;> cases h
  exact ⟨‹_›, rfl⟩

theorem nextActivity_takes {s u : State} {w : CmdWord} (h : nextActivity s = .takes w u) :
    s.host.head? = some (.command w) ∧ s.waiting = none ∧ u = popHost s := by
  rw [nextActivity] at h
  split at h <;> cases h
  exact ⟨‹_›, ‹_›, rfl⟩

theorem nextActivity_takesThenResets {s u : State} {w : CmdWord} (h : nextActivity s = .takesThenResets w u) :
    s.host.head? = some (.commandThenReset w) ∧ s.waiting = none ∧ u = popHost s := by
  rw [nextActivity] at h
  split at h <;> cases h
  exact ⟨‹_›, ‹_›, rfl⟩

/-- Everything a step that gives a next state can have done: wait or idle, take a reset, run a command word, or run one
that a reset cuts off before its response (60_exceptions.md R233, R238; 70_reset_and_hazards.md R251). -/
theorem step_cases {s t : State} (h : step s = .next t) :
    ((nextActivity s = .waits ∨ nextActivity s = .idles) ∧ t = s) ∨
    (s.host.head? = some .reset ∧ t = resetBlock (popHost s)) ∨
    (∃ w, s.host.head? = some (.command w) ∧ s.waiting = none ∧ runWord w (popHost s) = .next t) ∨
    (∃ w u, s.host.head? = some (.commandThenReset w) ∧ s.waiting = none ∧ runWord w (popHost s) = .next u ∧
      t = abandoned (popHost s) u) := by
  rw [step] at h
  cases ha : nextActivity s with rw [ha] at h
  | resets u =>
    obtain ⟨hh, rfl⟩ := nextActivity_resets ha
    cases h
    exact .inr (.inl ⟨hh, rfl⟩)
  | waits => cases h; exact .inl ⟨.inl rfl, rfl⟩
  | idles => cases h; exact .inl ⟨.inr rfl, rfl⟩
  | takes w u =>
    obtain ⟨hh, hw, rfl⟩ := nextActivity_takes ha
    exact .inr (.inr (.inl ⟨w, hh, hw, h⟩))
  | takesThenResets w u =>
    obtain ⟨hh, hw, rfl⟩ := nextActivity_takesThenResets ha
    cases hr : runWord w (popHost s) with simp only [hr] at h
    | next v => cases h; exact .inr (.inr (.inr ⟨w, v, hh, hw, hr, rfl⟩))
    | fault f => cases h
    | refused r => cases h

/-- Every step keeps the invariant. -/
theorem step_blockInv {s t : State} (h : step s = .next t) (hs : BlockInv s) : BlockInv t := by
  have hpop : BlockInv (popHost s) := ⟨hs.reader, hs.writer, hs.tree⟩
  rcases step_cases h with ⟨-, rfl⟩ | ⟨-, rfl⟩ | ⟨w, -, -, hw⟩ | ⟨w, u, -, -, -, rfl⟩
  · exact hs
  · exact resetBlock_blockInv _
  · exact runWord_blockInv hw hpop
  · exact resetBlock_blockInv _

/-! ### The tree rules of 10_state.md R34 -/

section
variable {t : Tree}

/-- The children of an internal node hold values, point back to it, and have its weight as the sum of theirs. -/
theorem BuiltOk.inner_children (h : BuiltOk t) {p a b : NodeIx} {nd : Node} (hin : IsInnerAt t.nodes p nd a b) :
    ∃ na nb, nodeAt t.nodes a = some na ∧ nodeAt t.nodes b = some nb ∧ na.parent = some p ∧ nb.parent = some p ∧
      nd.weight.toNat = na.weight.toNat + nb.weight.toNat := by
  obtain ⟨hp, ha, hb⟩ := hin
  have h256 : 256 ≤ p.val := (h.child (v := false) hp ha).1
  obtain ⟨a', b', na, nb, ha', hb', -, -, -, hna, hnb, hpa, hpb, hw, -⟩ := h.inner p nd h256 hp
  cases ha.symm.trans ha'
  cases hb.symm.trans hb'
  exact ⟨na, nb, hna, hnb, hpa, hpb, hw⟩

/-- Every entry that holds a value is reached from the root. -/
theorem BuiltOk.reached (h : BuiltOk t) {n : NodeIx} {nd : Node} (hn : nodeAt t.nodes n = some nd) :
    ∃ r c, t.root = some r ∧ descend t.nodes r c = some n := by
  obtain ⟨r, c, hr, -, hd⟩ := h.walkUp 511 n nd [] (by omega) hn
  exact ⟨r, c, hr, hd⟩

/-- A tree as TREE_BUILD leaves it meets the five tree invariants. -/
theorem BuiltOk.treeRules (h : BuiltOk t) : TreeRules t where
  leaf_reached sym n hl := by
    obtain ⟨-, nd, hn, -, h0, h1⟩ := h.leaf_node hl
    obtain ⟨r, c, hr, hd⟩ := h.reached hn
    exact ⟨⟨nd, hn, h0, h1⟩, r, hr, c, hd, fun _ hd' => h.path_unique hr hd' hd⟩
  children_point_back p nd a b hin := by
    obtain ⟨na, nb, hna, hnb, hpa, hpb, -⟩ := h.inner_children hin
    exact ⟨na, nb, hna, hnb, hpa, hpb⟩
  root_has_no_parent r hr := by
    obtain ⟨nd, hn⟩ := Option.isSome_iff_exists.1 (h.root_present r hr)
    exact ⟨nd, hn, (h.top r nd hn).2 hr⟩
  weight_is_sum p nd a b hin := by
    obtain ⟨na, nb, hna, hnb, -, -, hw⟩ := h.inner_children hin
    exact ⟨na, nb, hna, hnb, hw⟩
  reached_iff n := by
    constructor
    · rintro ⟨r, c, -, hd⟩
      obtain ⟨nd, hn⟩ := descend_present hd
      rcases Nat.lt_or_ge n.val 256 with hlt | hge
      · obtain ⟨sym, hl, -⟩ := h.leaf_of_lt hn hlt
        exact .inl ⟨sym, hl⟩
      · exact .inr ⟨hge, by rw [hn]; rfl⟩
    · rintro (⟨sym, hl⟩ | ⟨-, hs⟩)
      · obtain ⟨-, nd, hn, -⟩ := h.leaf_node hl
        exact h.reached hn
      · obtain ⟨nd, hn⟩ := Option.isSome_iff_exists.1 hs
        exact h.reached hn

end

/-! ### The obligations -/

/-- Settles O31: a built tree that keeps the invariant is as TREE_BUILD leaves it, and such a tree meets the rules. -/
theorem treeRulesHoldAfterEveryStep : Obligations.TreeRulesHoldAfterEveryStep := by
  intro s t hs h hb
  exact ((step_blockInv h hs).tree.builtOk hb).treeRules

/-- Settles O33, by the cases of a step and, for a command, by the unit it writes. -/
theorem everyStepKeepsTheInvariant : Obligations.EveryStepKeepsTheInvariant :=
  fun _ _ hs h => step_blockInv h hs

/-- Settles O35, by the unit the command writes. -/
theorem commandsWriteOnlyTheirUnit : Obligations.CommandsWriteOnlyTheirUnit := by
  intro i s t h
  cases exec_move h with
  | reader hi hm =>
    refine ⟨fun h1 h2 h3 => ?_, fun _ _ _ _ => hm.bw, fun _ _ => hm.tree, fun _ => hm.freq, hm.host⟩
    rcases hi with hi | hi | hi
    exacts [absurd hi h1, absurd hi h2, absurd hi h3]
  | writer hi hm =>
    refine ⟨fun _ _ _ => hm.br, fun h1 h2 h3 h4 => ?_, fun _ _ => hm.tree, fun _ => hm.freq, hm.host⟩
    rcases hi with ⟨data, hi⟩ | hi | hi | ⟨sym, hi⟩
    exacts [absurd hi (h1 data), absurd hi h2, absurd hi h3, absurd hi (h4 sym)]
  | table hi hio htree =>
    obtain ⟨sym, data, hi⟩ := hi
    exact ⟨fun _ _ _ => hio.br, fun _ _ _ _ => hio.bw, fun _ _ => htree, fun hne => absurd hi (hne sym data), hio.host⟩
  | clears hi hio hfreq =>
    exact ⟨fun _ _ _ => hio.br, fun _ _ _ _ => hio.bw, fun hne _ => absurd hi hne, fun _ => hfreq, hio.host⟩
  | builds hi hb _ hio hfreq =>
    refine ⟨fun _ _ _ => hio.br, fun _ _ _ _ => hio.bw, fun _ hne => ?_, fun _ => hfreq, hio.host⟩
    rcases hne with hne | hbuilt
    · exact absurd hi hne
    · rw [hb] at hbuilt; cases hbuilt
  | nothing hio hfreq htree =>
    exact ⟨fun _ _ _ => hio.br, fun _ _ _ _ => hio.bw, fun _ _ => htree, fun _ => hfreq, hio.host⟩

/-- Settles O7: the reset state is what a reset input gives, and STATUS is computed from it. -/
theorem resetStateHoldsTheResetValues : Obligations.ResetStateHoldsTheResetValues := by
  have hv : HoldsResetValues State.reset := resetBlock_reset ▸ resetBlock_holdsResetValues State.reset
  refine ⟨hv.reader, hv.writer, hv.freq, hv.built, hv.root, hv.leaf, hv.nodes, fun c _ _ => ?_, rfl⟩
  rw [stickyBit, hv.sticky, BitVec.ofNat_eq_ofNat, BitVec.getLsbD_zero]

/-- Settles O32: the reset state is what a reset input gives. -/
theorem resetStateMeetsTheInvariant : Obligations.ResetStateMeetsTheInvariant :=
  resetBlock_blockInv State.reset

end Sys2Proof.Machine
end

section
/-! SUPPORT. The byte streams and the container file (20_memory.md): what a run of bit reads returns up to and past the end
of the source, what a flush puts, which transactions a command records, and how header bytes read back. -/

namespace Sys2Proof.Machine

/-! ### Reading a stream to its end and past it -/

/-- The bits of delivered bytes, written with the library's numbering of bits (20_memory.md R53). -/
theorem bitsOf_eq_getLsbD (bs : List Byte) :
    bitsOf bs = bs.flatMap fun b => (List.range 8).map fun i => b.getLsbD (7 - i) :=
  List.flatMap_congr fun b _ => List.map_congr_left fun i _ => bitAt_eq b i

/-- A run of reads is a shorter run and then the reads that remain. -/
theorem readMany_add (k : Nat) : ∀ (n : Nat) (s : State), readMany (n + k) s =
    ((readMany n s).1 ++ (readMany k (readMany n s).2).1, (readMany k (readMany n s).2).2)
  | 0, s => by rw [Nat.zero_add]; rfl
  | n + 1, s => by
    rw [Nat.succ_add, readMany, readMany_add k n]
    rfl

/-- Once the latch is set, every read returns EOS and changes nothing (40_bit_io.md R103). -/
theorem readMany_latched {s : State} (he : s.br.eos = true) : ∀ n, readMany n s = (List.replicate n .eos, s)
  | 0 => rfl
  | n + 1 => by
    rw [readMany, readBitCore_latched s he, readMany_latched he n]
    rfl

/-- With the cache exhausted and the source at its end, every read returns EOS. -/
theorem readMany_atEnd {s : State} {rest : List (Option SrcAnswer)} (he : s.br.eos = false) (hp : s.br.pos.val = 8)
    (hs : s.src = some .atEnd :: rest) (k : Nat) : (readMany k s).1 = List.replicate k .eos := by
  cases k with
  | zero => rfl
  | succ k =>
    rw [readMany, (readBitCore_exhausted he hp hs).1 rfl, readMany_latched rfl k]
    rfl

/-- From an exhausted cache, reads return the delivered bits in order, and `n` of them ask for `ceil(n/8)` bytes
(20_memory.md R52, R53). -/
theorem readMany_exhausted {s : State} {bs : List Byte} {rest : List (Option SrcAnswer)} {n : Nat}
    (hp : s.br.pos.val = 8) (he : s.br.eos = false) (hs : s.src = dataAnswers bs ++ rest) (hn : n ≤ 8 * bs.length) :
    ∃ r, readMany n s = (((bitsOf bs).take n).map .bit,
        afterReads s r (bs.take ((n + 7) / 8)) (bs.drop ((n + 7) / 8)) rest) ∧
      r.eos = false ∧ 8 * ((n + 7) / 8) + r.pos.val = n + 8 := by
  have hlen : ((bitsOf bs).take n).length = n := by rw [List.length_take, bitsOf_length, Nat.min_eq_left hn]
  have hbits : pendingBits s.br ++ bitsOf bs = (bitsOf bs).take n ++ (bitsOf bs).drop n := by
    rw [pendingBits_exhausted hp, List.nil_append, List.take_append_drop]
  obtain ⟨r, read, left, hrun, hre, rfl, -, hpos, hcount⟩ := readMany_bits he hs hbits
  rw [hlen] at hrun hcount
  have hceil : read.length = (n + 7) / 8 := by
    have := pos_le r.pos
    omega
  refine ⟨r, ?_, hre, by omega⟩
  rw [hrun, ← hceil, List.take_left, List.drop_left]

/-! ### Flushing the writer -/

/-- Everything BW_FLUSH can do, by the answers to its put and its sync (40_bit_io.md R113). -/
theorem execBwFlush_cases (s : State) :
    (s.bw.pos.val = 0 ∧ execBwFlush s = .next (complete .ok 0 s)) ∨
    (s.bw.pos.val ≠ 0 ∧ ∃ u,
      ((snkPut s.bw.byte s = (none, u) ∧ execBwFlush s = .next u) ∨
       (snkPut s.bw.byte s = (some .ioErr, u) ∧ execBwFlush s = .next (raise .sinkIo 0 u)) ∨
       (snkPut s.bw.byte s = (some .ok, u) ∧ ∃ v,
        ((snkSync (setBw Writer.empty u) = (none, v) ∧ execBwFlush s = .next v) ∨
         (snkSync (setBw Writer.empty u) = (some .ioErr, v) ∧ execBwFlush s = .next (raise .sinkIo 1 v)) ∨
         (snkSync (setBw Writer.empty u) = (some .ok, v) ∧ execBwFlush s = .next (complete .ok 1 v)))))) := by
  rw [execBwFlush]
  by_cases h0 : s.bw.pos.val = 0
  · exact .inl ⟨h0, if_pos h0⟩
  rw [if_neg h0]
  rcases hp : snkPut s.bw.byte s with ⟨_ | _ | _, u⟩
  · exact .inr ⟨h0, u, .inl ⟨rfl, rfl⟩⟩
  · refine .inr ⟨h0, u, .inr (.inr ⟨rfl, ?_⟩)⟩
    rcases hy : snkSync (setBw Writer.empty u) with ⟨_ | _ | _, v⟩
    · exact ⟨v, .inl ⟨rfl, by simp only [hy]⟩⟩
    · exact ⟨v, .inr (.inr ⟨rfl, by simp only [hy]⟩)⟩
    · exact ⟨v, .inr (.inl ⟨rfl, by simp only [hy]⟩)⟩
  · exact .inr ⟨h0, u, .inr (.inl ⟨rfl, rfl⟩)⟩

/-- A put gives no response. -/
theorem snkPut_responses {b : Byte} {s t : State} {a : Option SnkAnswer} (h : snkPut b s = (a, t)) :
    t.responses = s.responses := by
  rcases snkPut_cases s b with ⟨_, _, -, hp⟩ | ⟨_, -, hp⟩ | ⟨-, hp⟩ <;> rw [hp] at h <;> cases h <;> rfl

/-- A sync gives no response. -/
theorem snkSync_responses {s t : State} {a : Option SnkAnswer} (h : snkSync s = (a, t)) :
    t.responses = s.responses := by
  rcases snkSync_cases s with ⟨_, _, -, hp⟩ | ⟨_, -, hp⟩ | ⟨-, hp⟩ <;> rw [hp] at h <;> cases h <;> rfl

/-- A put that the sink accepts appends its byte (20_memory.md R59). -/
theorem sinkBytes_snkPut_ok {b : Byte} {s t : State} (h : snkPut b s = (some .ok, t)) :
    sinkBytes t = sinkBytes s ++ [b] := by
  rcases snkPut_cases s b with ⟨_, _, -, hp⟩ | ⟨_, -, hp⟩ | ⟨-, hp⟩ <;> rw [hp] at h <;> cases h
  simp [sinkBytes, putByte]

/-- A sync appends no byte (20_memory.md R59). -/
theorem sinkBytes_snkSync {s t : State} {a : Option SnkAnswer} (h : snkSync s = (a, t)) : sinkBytes t = sinkBytes s := by
  rcases snkSync_cases s with ⟨a', _, -, hp⟩ | ⟨_, -, hp⟩ | ⟨-, hp⟩ <;> rw [hp] at h <;> cases h <;>
    simp [sinkBytes, putByte]

/-- The bytes a successful flush puts: the cache where it holds a bit (40_bit_io.md R113). -/
def flushedBytes (w : Writer) : List Byte := if w.pos.val = 0 then [] else [w.byte]

/-- A flush that answers OK has put the cache, where it held a bit, and nothing else. -/
theorem sinkBytes_bwFlush_ok {t u : State} {n : Word} (h : exec .bwFlush t = .next u)
    (hr : u.responses = t.responses ++ [⟨.ok, n⟩]) : sinkBytes u = sinkBytes t ++ flushedBytes t.bw := by
  have h : execBwFlush t = .next u := h
  rcases execBwFlush_cases t with ⟨h0, hf⟩ | ⟨h0, x, ⟨hp, hf⟩ | ⟨hp, hf⟩ | ⟨hp, v, hy⟩⟩
  · cases hf.symm.trans h
    rw [flushedBytes, if_pos h0, List.append_nil]
    rfl
  · cases hf.symm.trans h
    simp [snkPut_responses hp] at hr
  · cases hf.symm.trans h
    simp [snkPut_responses hp] at hr
  · have hx : x.responses = t.responses := snkPut_responses hp
    rcases hy with ⟨hy, hf⟩ | ⟨hy, hf⟩ | ⟨hy, hf⟩ <;> cases hf.symm.trans h
    · simp [snkSync_responses hy, hx] at hr
    · simp [snkSync_responses hy, hx] at hr
    · rw [flushedBytes, if_neg h0, ← sinkBytes_snkPut_ok hp]
      show sinkBytes v = sinkBytes (setBw Writer.empty x)
      exact sinkBytes_snkSync hy

/-- The bytes a run added, where they are known to stand at the sink after those before it. -/
theorem newSinkBytes_eq {s t : State} {bs : List Byte} (h : sinkBytes t = sinkBytes s ++ bs) : newSinkBytes s t = bs := by
  rw [newSinkBytes, h, List.drop_left]

theorem sinkBytes_afterPuts (s : State) (w : Writer) (bs : List Byte) :
    sinkBytes (afterPuts s w bs) = sinkBytes s ++ bs := by
  simp [sinkBytes, afterPuts, List.filterMap_append, List.filterMap_map, Function.comp_def, putByte]

/-- The bits of the writer's byte are the bits accepted and then zeros (10_state.md R26). -/
theorem byteBits_writer {w : Writer} (hw : WriterOk w) :
    byteBits w.byte = cachedBits w ++ List.replicate (8 - w.pos.val) false := by
  rw [cachedBits]
  conv => lhs; rw [← List.take_append_drop w.pos.val (byteBits w.byte)]
  congr 1
  refine List.eq_replicate_iff.2 ⟨by rw [List.length_drop, byteBits_length], fun v hv => ?_⟩
  obtain ⟨i, hi, rfl⟩ := List.mem_iff_getElem.1 hv
  rw [List.length_drop, byteBits_length] at hi
  rw [List.getElem_drop, byteBits_getElem]
  exact hw _ (Nat.le_add_right ..) (by omega)

/-- Bits written to an empty writer and then flushed: the bytes put, and that the flush put one of them exactly if there
was a bit to write (20_memory.md R54; 40_bit_io.md R114, R115). -/
theorem flushed_stream {s t u : State} {vs : List Bool} {n : Word} (hs : s.bw = Writer.empty)
    (hw : writeMany vs s = (.ok, t)) (hf : exec .bwFlush t = .next u) (hr : u.responses = t.responses ++ [⟨.ok, n⟩]) :
    (newSinkBytes s u).length = (vs.length + 7) / 8 ∧
    bitsOf (newSinkBytes s u) = vs ++ List.replicate (8 * ((vs.length + 7) / 8) - vs.length) false ∧
    (newSinkBytes t u).length = if vs = [] then 0 else 1 := by
  obtain ⟨w, bs, rfl, hlen, hpos, hbits, hok⟩ := writeMany_ok (hs ▸ writerOk_empty) hw
  have hflush := sinkBytes_bwFlush_ok hf hr
  have hbw : (afterPuts s w bs).bw = w := rfl
  have hempty : s.bw.pos.val = 0 := by rw [hs]; rfl
  rw [hs, cachedBits_empty, List.nil_append] at hbits
  rw [hempty, Nat.zero_add] at hlen
  rw [hbw] at hflush
  rw [newSinkBytes_eq hflush]
  rw [sinkBytes_afterPuts, List.append_assoc] at hflush
  rw [newSinkBytes_eq hflush, bitsOf_append, List.length_append]
  have hle := pos_le w.pos
  by_cases hvs : vs = []
  · have hz : w.pos.val = 0 ∧ bs = [] := by
      rw [hvs, List.length_nil] at hlen
      exact ⟨by omega, List.length_eq_zero_iff.1 (by omega)⟩
    simp [flushedBytes, hz.1, hz.2, hvs, bitsOf_nil]
  · have h1 : 1 ≤ w.pos.val := hpos (.inl hvs)
    have hone : flushedBytes w = [w.byte] := if_neg (by omega)
    rw [hone, if_neg hvs, bitsOf_cons, bitsOf_nil, List.append_nil, byteBits_writer hok, ← List.append_assoc, hbits]
    refine ⟨by rw [List.length_singleton]; omega, ?_, rfl⟩
    congr 2
    omega

/-! ### The transactions a command records -/

/-- The transaction was not answered with IOERR. -/
def NotIoErr (x : Transaction) : Prop := x ≠ .srcRead .ioErr ∧ (∀ b, x ≠ .snkPut b .ioErr) ∧ x ≠ .snkSync .ioErr

/-- Between the two states only transactions of this kind were recorded, and none after one that answered IOERR. -/
def Records (P : Transaction → Prop) (s t : State) : Prop :=
  ∃ added, t.trace = s.trace ++ added ∧ (∀ x ∈ added, P x) ∧ ∀ x ∈ added.dropLast, NotIoErr x

/-- Between the two states only transactions of this kind were recorded, and none of them answered IOERR. -/
def RecordsOk (P : Transaction → Prop) (s t : State) : Prop :=
  ∃ added, t.trace = s.trace ++ added ∧ ∀ x ∈ added, P x ∧ NotIoErr x

section
variable {P : Transaction → Prop} {s t u : State}

theorem records_of_trace_eq (h : t.trace = s.trace) : Records P s t := ⟨[], by simp [h], by simp, by simp⟩

theorem records_one {x : Transaction} (h : t.trace = s.trace ++ [x]) (hx : P x) : Records P s t :=
  ⟨[x], h, by simpa using hx, by simp⟩

theorem RecordsOk.trans_records (h : RecordsOk P s t) (h' : Records P t u) : Records P s u := by
  obtain ⟨xs, ht, hxs⟩ := h
  obtain ⟨ys, hu, hys, hlast⟩ := h'
  refine ⟨xs ++ ys, by rw [hu, ht, List.append_assoc], fun x hx => ?_, fun x hx => ?_⟩
  · exact (List.mem_append.1 hx).elim (fun hx => (hxs x hx).1) (hys x)
  · by_cases hne : ys = []
    · rw [hne, List.append_nil] at hx
      exact (hxs x (List.mem_of_mem_dropLast hx)).2
    · rw [List.dropLast_append_of_ne_nil hne] at hx
      exact (List.mem_append.1 hx).elim (fun hx => (hxs x hx).2) (hlast x)

theorem RecordsOk.records (h : RecordsOk P s t) : Records P s t := h.trans_records (records_of_trace_eq rfl)

/-- A completion records no transaction. -/
theorem Records.complete (h : Records P s t) (cc : CC) (res : Word) : Records P s (complete cc res t) := h

theorem Records.raise (h : Records P s t) (cc : CC) (res : Word) : Records P s (raise cc res t) := h

theorem readBitCore_records (hP : ∀ a, P (.srcRead a)) {r : ReadResult} (h : readBitCore s = (r, t)) : Records P s t := by
  obtain ⟨_, _, _, added, rfl, -, -, rfl | ⟨a, rfl⟩⟩ := readBitCore_all h
  · exact records_of_trace_eq (List.append_nil _)
  · exact records_one rfl (hP a)

theorem readMany_recordsOk (hP : ∀ a, P (.srcRead a)) {c : List Bool} (h : readMany c.length s = (c.map .bit, t)) :
    RecordsOk P s t := by
  obtain ⟨r, bs, rfl, -⟩ := readMany_frame h
  refine ⟨bs.map fun b => .srcRead (.data b), rfl, fun x hx => ?_⟩
  obtain ⟨b, -, rfl⟩ := List.mem_map.1 hx
  exact ⟨hP _, by simp [NotIoErr]⟩

theorem walkDown_records (hP : ∀ a, P (.srcRead a)) {fuel k : Nat} {n : NodeIx} (h : walkDown fuel n k s = .next t) :
    Records P s t := by
  obtain ⟨c, u, hm, hend⟩ := walkDown_shape h
  have hu : RecordsOk P s u := readMany_recordsOk hP hm
  rcases hend with ⟨sym, rfl⟩ | ⟨v, hv, rfl⟩ | ⟨v, hv, rfl⟩ | hv
  · exact hu.records.complete _ _
  · exact (hu.trans_records (readBitCore_records hP hv)).raise _ _
  · exact (hu.trans_records (readBitCore_records hP hv)).raise _ _
  · exact hu.trans_records (readBitCore_records hP hv)

theorem writeBitCore_records (hP : ∀ b a, P (.snkPut b a)) {v : Bool} {r : WriteResult} (h : writeBitCore v s = (r, t)) :
    Records P s t := by
  obtain ⟨_, _, _, added, rfl, -, -, rfl | ⟨b, a, rfl⟩⟩ := writeBitCore_all h
  · exact records_of_trace_eq (List.append_nil _)
  · exact records_one rfl (hP b a)

theorem writeMany_recordsOk (hP : ∀ b a, P (.snkPut b a)) {vs : List Bool} (h : writeMany vs s = (.ok, t)) :
    RecordsOk P s t := by
  obtain ⟨w, bs, rfl⟩ := writeMany_frame h
  refine ⟨bs.map fun b => .snkPut b .ok, rfl, fun x hx => ?_⟩
  obtain ⟨b, -, rfl⟩ := List.mem_map.1 hx
  exact ⟨hP _ _, by simp [NotIoErr]⟩

theorem writeCode_records (hP : ∀ b a, P (.snkPut b a)) {sym : Byte} {c : List Bool} {k : Nat}
    (h : writeCode sym c k s = .next t) : Records P s t := by
  obtain ⟨c1, c2, u, -, hm, hend⟩ := writeCode_shape h
  have hu : RecordsOk P s u := writeMany_recordsOk hP hm
  rcases hend with ⟨-, rfl⟩ | ⟨v, c3, w, -, hw, rfl⟩ | ⟨v, c3, -, hw⟩
  · exact hu.records.complete _ _
  · exact (hu.trans_records (writeBitCore_records hP hw)).raise _ _
  · exact hu.trans_records (writeBitCore_records hP hw)

theorem snkPut_records (hP : ∀ b a, P (.snkPut b a)) {b : Byte} {a : Option SnkAnswer} (h : snkPut b s = (a, t)) :
    Records P s t := by
  rcases snkPut_cases s b with ⟨a', _, -, hp⟩ | ⟨_, -, hp⟩ | ⟨-, hp⟩ <;> rw [hp] at h <;> cases h
  · exact records_one rfl (hP b a')
  · exact records_of_trace_eq rfl
  · exact records_of_trace_eq rfl

theorem snkPut_recordsOk (hP : ∀ b a, P (.snkPut b a)) {b : Byte} (h : snkPut b s = (some .ok, t)) : RecordsOk P s t := by
  rcases snkPut_cases s b with ⟨_, _, -, hp⟩ | ⟨_, -, hp⟩ | ⟨-, hp⟩ <;> rw [hp] at h <;> cases h
  exact ⟨[.snkPut b .ok], rfl, by simp [hP, NotIoErr]⟩

theorem snkSync_records (hP : ∀ a, P (.snkSync a)) {a : Option SnkAnswer} (h : snkSync s = (a, t)) : Records P s t := by
  rcases snkSync_cases s with ⟨a', _, -, hp⟩ | ⟨_, -, hp⟩ | ⟨-, hp⟩ <;> rw [hp] at h <;> cases h
  · exact records_one rfl (hP a')
  · exact records_of_trace_eq rfl
  · exact records_of_trace_eq rfl

theorem execBrReadbit_records (hP : ∀ a, P (.srcRead a)) (h : execBrReadbit s = .next t) : Records P s t := by
  rw [execBrReadbit] at h
  rcases hr : readBitCore s with ⟨r, u⟩
  have hu : Records P s u := readBitCore_records hP hr
  rw [hr] at h
  cases r with
  | bit v => cases h; exact hu.complete _ _
  | eos | srcIo => cases h; exact hu.raise _ _
  | waits => cases h; exact hu

theorem execDecSym_records (hP : ∀ a, P (.srcRead a)) (h : execDecSym s = .next t) : Records P s t := by
  rw [execDecSym] at h
  cases hr : s.tree.root with rw [hr] at h
  | none => cases h; exact records_of_trace_eq rfl
  | some r => exact walkDown_records hP h

theorem execBwWritebit_records (hP : ∀ b a, P (.snkPut b a)) {data : Word} (h : execBwWritebit data s = .next t) :
    Records P s t := by
  rw [execBwWritebit] at h
  rcases hw : writeBitCore (dataBit data) s with ⟨r, u⟩
  have hu : Records P s u := writeBitCore_records hP hw
  rw [hw] at h
  cases r with
  | ok => cases h; exact hu.complete _ _
  | sinkIo => cases h; exact hu.raise _ _
  | waits => cases h; exact hu

/-- BW_FLUSH syncs only after a put that was accepted, and makes no transaction after the sync (40_bit_io.md R113). -/
theorem execBwFlush_records (hP : ∀ b a, P (.snkPut b a)) (hQ : ∀ a, P (.snkSync a)) (h : execBwFlush s = .next t) :
    Records P s t := by
  rcases execBwFlush_cases s with ⟨-, hf⟩ | ⟨-, x, ⟨hp, hf⟩ | ⟨hp, hf⟩ | ⟨hp, v, hy⟩⟩
  · cases hf.symm.trans h; exact records_of_trace_eq rfl
  · cases hf.symm.trans h; exact snkPut_records hP hp
  · cases hf.symm.trans h; exact (snkPut_records hP hp).raise _ _
  · have hx : RecordsOk P s (setBw Writer.empty x) := (snkPut_recordsOk hP hp : RecordsOk P s x)
    rcases hy with ⟨hy, hf⟩ | ⟨hy, hf⟩ | ⟨hy, hf⟩ <;> cases hf.symm.trans h
    · exact hx.trans_records (snkSync_records hQ hy)
    · exact (hx.trans_records (snkSync_records hQ hy)).raise _ _
    · exact (hx.trans_records (snkSync_records hQ hy)).complete _ _

theorem execEncSym_records (hP : ∀ b a, P (.snkPut b a)) {sym : Byte} (h : execEncSym sym s = .next t) :
    Records P s t := by
  rw [execEncSym] at h
  cases hl : leafAt sym s with simp only [hl] at h
  | none => cases h; exact records_of_trace_eq rfl
  | some n =>
    cases hc : codeOf s.tree.nodes n with rw [hc] at h
    | error e => cases h
    | ok c => exact writeCode_records hP h

theorem execTreeBuild_trace (h : execTreeBuild s = .next t) : t.trace = s.trace := by
  rw [execTreeBuild] at h
  split at h
  case isTrue => cases h; rfl
  case isFalse =>
    cases hf : firstNegative s.freq with rw [hf] at h
    | some k => cases h; rfl
    | none => cases h; rfl

end

/-- The commands that make a transaction of this kind (20_memory.md R50, R61). -/
def MadeBy (i : Instr) : Transaction → Prop
  | .srcRead _ => i = .brReadbit ∨ i = .decSym
  | .snkPut _ _ => i = .bwFlush ∨ (∃ data, i = .bwWritebit data) ∨ ∃ sym, i = .encSym sym
  | .snkSync _ => i = .bwFlush

/-- A command records only transactions that it is one to make, and none after one that answered IOERR. -/
theorem exec_records {i : Instr} {s t : State} (h : exec i s = .next t) : Records (MadeBy i) s t := by
  cases i with
  | brReadbit => exact execBrReadbit_records (fun _ => .inl rfl) h
  | decSym => exact execDecSym_records (fun _ => .inr rfl) h
  | bwWritebit data => exact execBwWritebit_records (fun _ _ => .inr (.inl ⟨data, rfl⟩)) h
  | bwFlush => exact execBwFlush_records (fun _ _ => .inl rfl) (fun _ => rfl) h
  | encSym sym => exact execEncSym_records (fun _ _ => .inr (.inr ⟨sym, rfl⟩)) h
  | treeBuild => exact records_of_trace_eq (execTreeBuild_trace h)
  | brReset | bwReset | freqWr | freqRd | treeClear | stRd | stClr => cases h; exact records_of_trace_eq rfl

/-! ### The container header -/

theorem length_entryBytes (w : Word) : (entryBytes w).length = 4 := rfl

/-- The four bytes of an entry give it back (20_memory.md R62). -/
theorem entryOf_entryBytes (w : Word) :
    entryOf (w.extractLsb' 0 8) (w.extractLsb' 8 8) (w.extractLsb' 16 8) (w.extractLsb' 24 8) = w := by
  have join : ∀ i m n, w.extractLsb' (i + m) n ++ w.extractLsb' i m = w.extractLsb' i (n + m) :=
    fun _ _ _ => BitVec.extractLsb'_append_extractLsb'_eq_extractLsb' rfl
  rw [entryOf, join 16 8 8, join 8 8 16, join 0 8 24]
  exact BitVec.extractLsb'_eq_self

/-- Header bytes read back as the entries they were made of. -/
theorem entriesIn_flatMap (ws : List Word) : entriesIn (ws.flatMap entryBytes) = ws := by
  induction ws with
  | nil => rfl
  | cons w ws ih =>
    rw [List.flatMap_cons]
    show entryOf _ _ _ _ :: entriesIn (ws.flatMap entryBytes) = _
    rw [entryOf_entryBytes, ih]

/-- Byte `4i + j` of the header bytes is byte `j` of entry `i`. -/
theorem getElem?_flatMap_entryBytes {j : Nat} (hj : j < 4) : ∀ (ws : List Word) (i : Nat),
    (ws.flatMap entryBytes)[4 * i + j]? = ws[i]?.bind fun w => (entryBytes w)[j]?
  | [], _ => rfl
  | w :: ws, 0 => by
    rw [List.flatMap_cons, List.getElem?_append_left (by rw [length_entryBytes]; omega), Nat.mul_zero, Nat.zero_add]
    rfl
  | w :: ws, i + 1 => by
    rw [List.flatMap_cons, List.getElem?_append_right (by rw [length_entryBytes]; omega), length_entryBytes,
      show 4 * (i + 1) + j - 4 = 4 * i + j by omega, getElem?_flatMap_entryBytes hj ws i, List.getElem?_cons_succ]

theorem length_headerOf (f : FreqTable) : (headerOf f).length = Config.headerBytes := by
  rw [headerOf, List.length_flatMap, List.map_congr_left (fun w _ => length_entryBytes w), List.map_const',
    Vector.length_toList, List.sum_replicate_nat]

/-- Byte `4s + j` of the header is byte `j` of the entry of symbol `s` (20_memory.md R62). -/
theorem getElem?_headerOf (f : FreqTable) (s : Fin 256) {j : Nat} (hj : j < 4) :
    (headerOf f)[4 * s.val + j]? = (entryBytes f[s.val])[j]? := by
  rw [headerOf, getElem?_flatMap_entryBytes hj, List.getElem?_eq_getElem (by simp)]
  simp

/-! ### The obligations -/

/-- Settles O13: the bits of the bytes stand pending behind an exhausted cache, and each read takes the first of them. -/
theorem readerReturnsTheSourceBitsInOrder : Obligations.ReaderReturnsTheSourceBitsInOrder := by
  intro s bs rest n hp he hs hn
  obtain ⟨r, hrun, -⟩ := readMany_exhausted (by rw [hp]; rfl) he hs hn
  rw [hrun, ← bitsOf_eq_getLsbD]
  exact ⟨rfl, rfl, rfl⟩

/-- Settles O19: the bytes put and the cache hold the bits written, and the flush puts the cache with its unplaced bits
zero. -/
theorem flushedStreamIsTheBitsPaddedWithZeros : Obligations.FlushedStreamIsTheBitsPaddedWithZeros :=
  fun _ _ _ _ _ hs hw hf hr => flushed_stream hs hw hf hr

/-- Settles O20: the flushed bytes hold the bits and the padding, reading returns the bits of the bytes, and then the cache
is exhausted and the source at its end. -/
theorem bitsSurviveTheRoundTrip : Obligations.BitsSurviveTheRoundTrip := by
  intro s t u r vs n rest k hs hw hf hr hbr hsrc
  obtain ⟨hlen, hbits, -⟩ := flushed_stream hs hw hf hr
  rw [← hlen] at hbits ⊢
  obtain ⟨r', hrun, hre, hpos⟩ := readMany_exhausted (by rw [hbr]; rfl) (by rw [hbr]) hsrc Nat.le.refl
  have hall : (8 * (newSinkBytes s u).length + 7) / 8 = (newSinkBytes s u).length := by omega
  rw [hall] at hrun hpos
  rw [readMany_add, hrun, readMany_atEnd hre (by show r'.pos.val = 8; omega) (by rw [afterReads, List.drop_length]; rfl),
    List.take_of_length_le (by rw [bitsOf_length]), hbits, List.map_append, List.map_replicate]

/-- Settles O37, by the runs of bit actions a command is made of. -/
theorem transactionsOfACommand : Obligations.TransactionsOfACommand := by
  intro i s t h
  obtain ⟨added, ht, hby, hlast⟩ := exec_records h
  exact ⟨added, ht, fun a ha => hby _ ha, fun b a ha => hby _ ha, fun a ha => hby _ ha, hlast⟩

/-- Settles O54: an entry's four bytes give it back, and the header is the entries' bytes in order. -/
theorem headerEntriesReadBack : Obligations.HeaderEntriesReadBack := by
  intro f payload
  refine ⟨length_headerOf f, entriesIn_flatMap f.toList, ?_, fun s => ⟨?_, ?_⟩⟩
  · rw [payloadOf, containerFile, ← length_headerOf f, List.drop_left]
  · exact getElem?_headerOf f s (j := 0) (by decide)
  · exact getElem?_headerOf f s (j := 3) (by decide)

end Sys2Proof.Machine
end

section
/-! SUPPORT. The command word in both directions (30_encoding.md): a command is decoded from its word, and a word that
decodes is its command's word; what an illegal word does on the channel; loading the frequency table; reading a text of
several lines. -/

namespace Sys2Proof

/-! ### Decoding and encoding undo each other -/

/-- The fields statement of every command. -/
theorem encodedFields : ∀ i : Instr, Laws.EncodedFields.Statement i
  | .brReadbit => Laws.EncodedFields.brReadbit
  | .brReset => Laws.EncodedFields.brReset
  | .bwWritebit data => Laws.EncodedFields.bwWritebit data
  | .bwFlush => Laws.EncodedFields.bwFlush
  | .bwReset => Laws.EncodedFields.bwReset
  | .freqWr sym data => Laws.EncodedFields.freqWr sym data
  | .freqRd sym => Laws.EncodedFields.freqRd sym
  | .treeBuild => Laws.EncodedFields.treeBuild
  | .treeClear => Laws.EncodedFields.treeClear
  | .encSym sym => Laws.EncodedFields.encSym sym
  | .decSym => Laws.EncodedFields.decSym
  | .stRd => Laws.EncodedFields.stRd
  | .stClr => Laws.EncodedFields.stClr

/-- A command's word selects the command's row, and the row makes the command from the word's operand fields. -/
theorem decode_encode (i : Instr) : decode (encode i) = .ok i := by
  obtain ⟨hfields, r, hr, -, hopc, hwf, hcmd⟩ := encodedFields i
  refine (decode_eq_ok _ i).2 ⟨r, hr, (selects_iff _ r).2 ?_, ?_⟩ <;> rw [hfields]
  · exact ⟨hopc, hwf⟩
  · exact hcmd.symm

/-- The fields a row's command is encoded with: the row's opcode, the operands of its format, and zero elsewhere. -/
theorem encodeFields_commandOf {r : Row} (hr : r ∈ opcodeMap) (sym : Byte) (data : Word) :
    encodeFields (commandOf r.op sym data) =
      ⟨r.opc, 0, if r.format.hasSym then sym else 0, 0, if r.format.hasData then data else 0⟩ := by
  fin_cases hr <;> rfl

/-- Well-formed fields are their opcode, the operands of the format, and zero elsewhere. -/
theorem eq_of_wellFormed {f : Fields} {fmt : Format} (h : f.wellFormed fmt = true) :
    f = ⟨f.opc, 0, if fmt.hasSym then f.sym else 0, 0, if fmt.hasData then f.data else 0⟩ := by
  simp only [Fields.wellFormed, Fields.rsv1Zero, Fields.rsv2Zero, Fields.symAllowed, Fields.dataAllowed, Bool.and_eq_true,
    Bool.or_eq_true, beq_iff_eq] at h
  obtain ⟨⟨⟨hrsv1, hrsv2⟩, hsym⟩, hdata⟩ := h
  obtain ⟨opc, rsv1, sym, rsv2, data⟩ := f
  have hs : sym = if fmt.hasSym then sym else 0 := by rcases hsym with h | rfl <;> simp [*]
  have hd : data = if fmt.hasData then data else 0 := by rcases hdata with h | rfl <;> simp [*]
  rw [Fields.mk.injEq]
  exact ⟨rfl, hrsv1, hs, hrsv2, hd⟩

/-- A word that decodes is the word of its command. -/
theorem encode_of_decode {w : CmdWord} {i : Instr} (h : decode w = .ok i) : encode i = w := by
  obtain ⟨r, hr, hs, rfl⟩ := (decode_eq_ok w i).1 h
  obtain ⟨hopc, hwf⟩ := (selects_iff w r).1 hs
  rw [encode, encodeFields_commandOf hr, hopc, ← eq_of_wellFormed hwf, wordOf_fieldsOf]

/-- No two rows of the opcode map have one opcode, so no word selects two. -/
theorem row_unique {w : CmdWord} {r1 r2 : Row} (h1 : r1 ∈ opcodeMap) (h2 : r2 ∈ opcodeMap) (hs1 : selects w r1 = true)
    (hs2 : selects w r2 = true) : r1 = r2 := by
  have hopc : r1.opc = r2.opc := ((selects_iff w r1).1 hs1).1.trans ((selects_iff w r2).1 hs2).1.symm
  have hrow := rowOf_of_mem h1
  rw [hopc, rowOf_of_mem h2] at hrow
  exact (Option.some.inj hrow).symm

/-- A word whose fields fit no row decodes to no command (30_encoding.md R85). -/
theorem decode_ne_ok_of_illegal {w : CmdWord}
    (h : ∀ r ∈ opcodeMap, r.opc = (fieldsOf w).opc → (fieldsOf w).wellFormed r.format = false) (i : Instr) :
    decode w ≠ .ok i := by
  intro hd
  obtain ⟨r, hr, hs, -⟩ := (decode_eq_ok w i).1 hd
  obtain ⟨hopc, hwf⟩ := (selects_iff w r).1 hs
  rw [h r hr hopc] at hwf
  cases hwf

end Sys2Proof

namespace Sys2Proof.Machine

/-! ### A command word on the channel -/

/-- An illegal word sets STICKY[8] and is answered with ILLEGAL_CMD and 0 (30_encoding.md R85). -/
theorem illegalCommand_eq (s : State) : illegalCommand s =
    { s with sticky := s.sticky ||| 0x80, responses := s.responses ++ [⟨.illegalCmd, 0⟩] } := rfl

theorem runWord_of_decode {w : CmdWord} {i : Instr} (h : decode w = .ok i) (s : State) : runWord w s = exec i s := by
  rw [runWord, h]

theorem runWord_of_illegal {w : CmdWord} (h : ∀ i, decode w ≠ .ok i) (s : State) :
    runWord w s = .next (illegalCommand s) := by
  rw [runWord]
  cases hd : decode w with
  | error _ => rfl
  | ok i => exact absurd hd (h i)

/-- A block that does not wait takes the command word that stands first on the channel and runs it. -/
theorem step_command {s : State} {w : CmdWord} {rest : List HostEvent} (hw : s.waiting = none)
    (hh : s.host = .command w :: rest) : step s = runWord w { s with host := rest } := by
  have hpop : popHost s = { s with host := rest } := by rw [popHost, hh]; rfl
  have hact : nextActivity s = .takes w (popHost s) := by rw [nextActivity, hh, hw]; rfl
  rw [step, hact, hpop]

/-! ### Loading the frequency table -/

theorem stickyAfter_ok (m : BitVec 8) : stickyAfter .ok m = m := BitVec.or_zero

/-- FREQ_WR of symbol number `k` sets entry `k`, answers OK, and changes nothing else (41_tree_build.md R134). -/
theorem exec_freqWr_ofNat {k : Nat} (hk : k < 256) (data : Word) (s : State) :
    exec (.freqWr (BitVec.ofNat 8 k) data) s =
      .next { s with freq := s.freq.set k data hk, responses := s.responses ++ [⟨.ok, 0⟩] } := by
  have hix : (symIx (BitVec.ofNat 8 k)).val = k := (BitVec.toNat_ofNat k 8).trans (Nat.mod_eq_of_lt hk)
  simp only [exec, execFreqWr, complete, setFreq, stickyAfter_ok, hix]

/-- Loading the entries from number `k` on completes a table whose entries below `k` are loaded. -/
theorem execAll_freqWr_drop (f : FreqTable) : ∀ (ws : List Word) (k : Nat) (s : State), k ≤ 256 → f.toList.drop k = ws →
    (∀ i (h : i < 256), i < k → s.freq[i] = f[i]) →
    execAll ((ws.zipIdx k).map fun e => .freqWr (BitVec.ofNat 8 e.2) e.1) s =
      .next { s with freq := f, responses := s.responses ++ List.replicate ws.length ⟨.ok, 0⟩ }
  | [], k, s, hk, hws, hlow => by
    have hfreq : s.freq = f := by
      have : 256 ≤ k := by simpa using hws
      exact Vector.ext fun i hi => hlow i hi (by omega)
    simp [execAll, ← hfreq]
  | w :: ws, k, s, hk, hws, hlow => by
    have hlt : k < 256 := by
      have hlen := congrArg List.length hws
      rw [List.length_drop, Vector.length_toList, List.length_cons] at hlen
      omega
    obtain ⟨rfl, hrest⟩ : f[k] = w ∧ f.toList.drop (k + 1) = ws := by
      rw [List.drop_eq_getElem_cons (by simpa using hlt)] at hws
      simpa using hws
    rw [List.zipIdx_cons, List.map_cons, execAll, exec_freqWr_ofNat hlt]
    have hlow' : ∀ i (h : i < 256), i < k + 1 → (s.freq.set k f[k] hlt)[i] = f[i] := fun i hi hik => by
      rw [Vector.getElem_set]
      split
      case isTrue h => subst h; rfl
      case isFalse h => exact hlow i hi (by omega)
    exact (execAll_freqWr_drop f ws (k + 1) _ hlt hrest hlow').trans (by simp [List.replicate_succ])

/-- FREQ_LOAD sets the whole table and changes nothing else (30_encoding.md R90). -/
theorem execAll_freqLoad (f : FreqTable) (s : State) : execAll (freqLoad f) s =
    .next { s with freq := f, responses := s.responses ++ List.replicate 256 ⟨.ok, 0⟩ } := by
  have h := execAll_freqWr_drop f f.toList 0 s (by decide) rfl fun i _ hi => absurd hi (Nat.not_lt_zero i)
  rwa [Vector.length_toList] at h

/-! ### Texts of several lines -/

theorem linesOf_single : ∀ {a : List Char}, (∀ c ∈ a, c.toNat ≠ 10) → linesOf a = [a]
  | [], _ => rfl
  | c :: a, h => by
    obtain ⟨hc, ha⟩ := List.forall_mem_cons.1 h
    rw [linesOf, if_neg hc, linesOf_single ha]

/-- A line end cuts the text before it off as its first line. -/
theorem linesOf_append : ∀ {a : List Char}, (∀ c ∈ a, c.toNat ≠ 10) → ∀ b, linesOf (a ++ '\n' :: b) = a :: linesOf b
  | [], _, b => by rw [List.nil_append, linesOf, if_pos (by decide)]
  | c :: a, h, b => by
    obtain ⟨hc, ha⟩ := List.forall_mem_cons.1 h
    rw [List.cons_append, linesOf, if_neg hc, linesOf_append ha]

/-- A text whose first line has the reading `is` and whose rest has the reading `js` has both, in order. -/
theorem assemble_append {a b : List Char} {is js : List Instr} (ha : ∀ c ∈ a, c.toNat ≠ 10)
    (his : assemble a = some is) (hjs : assemble b = some js) : assemble (a ++ '\n' :: b) = some (is ++ js) := by
  rw [assemble, linesOf_single ha] at his
  rw [assemble] at hjs
  obtain ⟨jss, hjss, rfl⟩ := Option.map_eq_some_iff.1 hjs
  rw [assemble, linesOf_append ha, List.mapM_cons, hjss]
  cases hl : (lexLine (a.length + 1) a).bind lineCommands with
  | none => simp [hl] at his
  | some x => simpa [hl] using his

/-! ### The obligations -/

/-- Settles O1: a command's word selects its row, and the row makes the command from the word's fields. -/
theorem decodeOfEncodeGivesTheCommand : Obligations.DecodeOfEncodeGivesTheCommand := decode_encode

/-- Settles O2: the must-be-zero fields of a word that decodes are zero, so its fields are those of its command. -/
theorem encodeOfDecodedGivesTheWord : Obligations.EncodeOfDecodedGivesTheWord := fun _ _ h => encode_of_decode h

/-- Settles O4: a word selects only the row of its own opcode. -/
theorem noWordMatchesTwoRows : Obligations.NoWordMatchesTwoRows :=
  ⟨⟨rfl, rfl, rfl, rfl⟩, fun _ _ => rfl, fun _ _ => beq_iff_eq, fun _ _ _ => row_unique⟩

/-- Settles O5: such a word decodes to no command, and no row has the opcode 0. -/
theorem illegalWordSetsOnlySticky8 : Obligations.IllegalWordSetsOnlySticky8 := by
  refine ⟨fun s w rest hw hh hill => ?_, by decide⟩
  rw [step_command hw hh, runWord_of_illegal (decode_ne_ok_of_illegal hill), illegalCommand_eq]

/-- Settles O53: the entries are set one by one, and FREQ_ZERO loads the zero table. -/
theorem freqLoadSetsTheWholeTable : Obligations.FreqLoadSetsTheWholeTable :=
  fun s f => ⟨execAll_freqLoad f s, _, execAll_freqLoad _ s, fun _ => Vector.getElem_replicate _⟩

/-- Settles O3: each word is the word of its command. -/
theorem specWordsDecodeToTheirCommands : Obligations.SpecWordsDecodeToTheirCommands :=
  ⟨decode_encode (.freqWr 0x41 10), decode_encode (.encSym 0x41), decode_encode (.bwWritebit 1), decode_encode .decSym,
    decode_encode (.freqRd 0x41), decode_encode .brReadbit, decode_encode .stClr⟩

/-- Settles O6: the block takes the word from the channel, and the word runs as its command. -/
theorem stepRunsTheDecodedCommand : Obligations.StepRunsTheDecodedCommand := by
  intro s w rest i hw hh hd
  rw [step_command hw hh, runWord_of_decode hd]

/-- Settles O55: each line is read by evaluation, and the text of two lines by the readings of its lines. -/
theorem assemblerReadsTheExamples : Obligations.AssemblerReadsTheExamples := by
  have hbits : assemble "BW_PUTBITS \"10\"".toList = some [.bwWritebit 1, .bwWritebit 0] := by decide +kernel
  have hsyms : assemble "DEC_N 2".toList = some [.decSym, .decSym] := by decide +kernel
  have hlines := assemble_append (by simp) hbits hsyms
  refine ⟨?_, ?_, ?_, ?_, ?_, hbits, hsyms, hlines, ?_⟩ <;> decide +kernel

end Sys2Proof.Machine
end

section
/-! SUPPORT. The bit reader and the bit writer, command by command (40_bit_io.md): the whole next state of each command in
each of its cases, the latched reader, the writer's lazy emission, and runs of BR_READBIT and BW_WRITEBIT. -/

namespace Sys2Proof.Machine

/-! ### Bits as the spec writes them -/

/-- The lowest bit of a word, extended with zeros, is the word masked with 1 (40_bit_io.md R101, R110). -/
theorem setWidth_ofBool_getLsbD_zero {n m : Nat} (hn : 1 ≤ n) (x : BitVec n) :
    (BitVec.ofBool (x.getLsbD 0)).setWidth m = (x &&& 1).setWidth m := by
  rw [BitVec.ofNat_eq_ofNat, BitVec.and_one_eq_setWidth_ofBool_getLsbD, BitVec.setWidth_setWidth (by omega)]

theorem bitResult_bitAt (b : Byte) (i : Nat) : bitResult (bitAt b i) = ((b >>> (7 - i)) &&& 1).setWidth 32 :=
  setWidth_ofBool_getLsbD_zero (by decide) _

theorem bitMask_dataBit (data : Word) (i : Nat) :
    bitMask (dataBit data) i = (data &&& 1).setWidth 8 <<< (7 - i) := by
  rw [bitMask, dataBit, setWidth_ofBool_getLsbD_zero (by decide)]

theorem posNext_of_lt {p : Pos} (h : p.val < 8) : posNext p = ⟨p.val + 1, by omega⟩ :=
  Fin.ext (Nat.min_eq_left h)

/-! ### Responses

A run of commands that all answer OK adds its responses to those before it and nothing else. -/

/-- The state with these responses given after those before it. -/
def respond (rs : List Response) (s : State) : State := { s with responses := s.responses ++ rs }

theorem respond_nil (s : State) : respond [] s = s := by
  rw [respond, List.append_nil]

theorem respond_respond (rs rs' : List Response) (s : State) : respond rs' (respond rs s) = respond (rs ++ rs') s := by
  simp [respond]

/-- A command that answers OK leaves the sticky bits as they are (60_exceptions.md R224). -/
theorem complete_ok (res : Word) (s : State) : complete .ok res s = respond [⟨.ok, res⟩] s := by
  rw [complete, stickyAfter_ok, respond]

/-! ### The bit actions, each case by what the stream answers -/

section
variable {s t u : State}

theorem popSrc_eq {a : Option SrcAnswer} {rest : List (Option SrcAnswer)} (hs : s.src = a :: rest) :
    popSrc s = { s with src := rest } := by
  rw [popSrc, hs, List.tail_cons]

theorem popSnk_eq {a : Option SnkAnswer} {rest : List (Option SnkAnswer)} (hs : s.snk = a :: rest) :
    popSnk s = { s with snk := rest } := by
  rw [popSnk, hs, List.tail_cons]

theorem readBitCore_data {b : Byte} {rest : List (Option SrcAnswer)} (he : s.br.eos = false) (hp : s.br.pos.val = 8)
    (hs : s.src = some (.data b) :: rest) :
    readBitCore s = takeBit (setBr (refilled b s.br) (record (.srcRead (.data b)) (popSrc s))) := by
  rw [readBitCore, he, if_neg (by decide), if_pos (by omega), srcRead_answered s hs]
  rfl

theorem writeBitCore_put_ok {v : Bool} {rest : List (Option SnkAnswer)} (hp : s.bw.pos.val = 8)
    (hs : s.snk = some .ok :: rest) :
    writeBitCore v s = (.ok, placeBit v (setBw Writer.empty (record (.snkPut s.bw.byte .ok) (popSnk s)))) := by
  rw [writeBitCore, if_pos (by omega), snkPut_answered s _ hs]

theorem writeBitCore_put_ioErr {v : Bool} {rest : List (Option SnkAnswer)} (hp : s.bw.pos.val = 8)
    (hs : s.snk = some .ioErr :: rest) :
    writeBitCore v s = (.sinkIo, record (.snkPut s.bw.byte .ioErr) (popSnk s)) := by
  rw [writeBitCore, if_pos (by omega), snkPut_answered s _ hs]

/-- A bit read that returns a bit does not depend on the responses given before. -/
theorem readBitCore_respond {v : Bool} (rs : List Response) (h : readBitCore s = (.bit v, t)) :
    readBitCore (respond rs s) = (.bit v, respond rs t) := by
  rcases readBitCore_cases s with ⟨-, hr⟩ | ⟨he, hp, hr⟩ | ⟨he, hp, ⟨b, rest, hs, hr⟩ | ⟨rest, -, hr⟩ | ⟨rest, -, hr⟩ |
    ⟨rest, -, hr⟩ | ⟨-, hr⟩⟩ <;> cases hr.symm.trans h
  · exact readBitCore_cached (respond rs s) he hp
  · exact readBitCore_data (s := respond rs s) he hp hs

/-- A bit write that is accepted does not depend on the responses given before. -/
theorem writeBitCore_respond {v : Bool} (rs : List Response) (h : writeBitCore v s = (.ok, t)) :
    writeBitCore v (respond rs s) = (.ok, respond rs t) := by
  rcases writeBitCore_cases s v with ⟨hp, hw⟩ | ⟨hp, ⟨rest, hs, hw⟩ | ⟨rest, -, hw⟩ | ⟨rest, -, hw⟩ | ⟨-, hw⟩⟩ <;>
    cases hw.symm.trans h
  · exact writeBitCore_room (respond rs s) v hp
  · exact writeBitCore_put_ok (s := respond rs s) hp hs

/-! ### BR_READBIT and BW_WRITEBIT by what their bit action returns -/

theorem exec_brReadbit_bit {v : Bool} (h : readBitCore s = (.bit v, t)) :
    exec .brReadbit s = .next (respond [⟨.ok, bitResult v⟩] t) := by
  rw [exec, execBrReadbit, h, ← complete_ok]

theorem exec_brReadbit_eos (h : readBitCore s = (.eos, t)) : exec .brReadbit s = .next (raise .eos 0 t) := by
  rw [exec, execBrReadbit, h]

theorem exec_brReadbit_srcIo (h : readBitCore s = (.srcIo, t)) : exec .brReadbit s = .next (raise .srcIo 0 t) := by
  rw [exec, execBrReadbit, h]

theorem exec_bwWritebit_ok {data : Word} (h : writeBitCore (dataBit data) s = (.ok, t)) :
    exec (.bwWritebit data) s = .next (respond [⟨.ok, 0⟩] t) := by
  rw [exec, execBwWritebit, h, ← complete_ok]

theorem exec_bwWritebit_sinkIo {data : Word} (h : writeBitCore (dataBit data) s = (.sinkIo, t)) :
    exec (.bwWritebit data) s = .next (raise .sinkIo 0 t) := by
  rw [exec, execBwWritebit, h]

/-! ### BW_FLUSH by what the sink answers -/

/-- The sync that follows an accepted put, and the state after both. -/
theorem snkSync_after_put {a : SnkAnswer} {rest : List (Option SnkAnswer)} (hs : s.snk = some .ok :: some a :: rest) :
    snkSync (setBw Writer.empty (record (.snkPut s.bw.byte .ok) (popSnk s))) = (some a, { s with
      bw := Writer.empty
      snk := rest
      trace := s.trace ++ [.snkPut s.bw.byte .ok, .snkSync a] }) := by
  rw [popSnk_eq hs, snkSync_answered _ rfl]
  simp [setBw, record, popSnk]

theorem exec_bwFlush_empty (hp : s.bw.pos.val = 0) : exec .bwFlush s = .next (respond [⟨.ok, 0⟩] s) := by
  rw [exec, execBwFlush, if_pos hp, complete_ok]

theorem exec_bwFlush_put_ioErr (hp : s.bw.pos.val ≠ 0) (h : snkPut s.bw.byte s = (some .ioErr, t)) :
    exec .bwFlush s = .next (raise .sinkIo 0 t) := by
  rw [exec, execBwFlush, if_neg hp, h]

theorem exec_bwFlush_sync_ioErr (hp : s.bw.pos.val ≠ 0) (h : snkPut s.bw.byte s = (some .ok, t))
    (hy : snkSync (setBw Writer.empty t) = (some .ioErr, u)) : exec .bwFlush s = .next (raise .sinkIo 1 u) := by
  simp only [exec, execBwFlush, if_neg hp, h, hy]

theorem exec_bwFlush_sync_ok (hp : s.bw.pos.val ≠ 0) (h : snkPut s.bw.byte s = (some .ok, t))
    (hy : snkSync (setBw Writer.empty t) = (some .ok, u)) : exec .bwFlush s = .next (respond [⟨.ok, 1⟩] u) := by
  simp only [exec, execBwFlush, if_neg hp, h, hy, complete_ok]

/-! ### Runs of bit commands -/

/-- The first of a run of bit reads that all return a bit, and the run that remains. -/
theorem readMany_cons {v : Bool} {bits : List Bool} (h : readMany (v :: bits).length s = ((v :: bits).map .bit, t)) :
    ∃ u, readBitCore s = (.bit v, u) ∧ readMany bits.length u = (bits.map .bit, t) := by
  rw [List.length_cons, readMany, List.map_cons, Prod.mk.injEq, List.cons.injEq] at h
  obtain ⟨⟨hv, hbits⟩, ht⟩ := h
  exact ⟨(readBitCore s).2, Prod.ext hv rfl, Prod.ext hbits ht⟩

/-- The first of a run of bit writes that are all accepted, and the run that remains. -/
theorem writeMany_cons {v : Bool} {bits : List Bool} (h : writeMany (v :: bits) s = (.ok, t)) :
    ∃ u, writeBitCore v s = (.ok, u) ∧ writeMany bits u = (.ok, t) := by
  rw [writeMany] at h
  rcases hw : writeBitCore v s with ⟨_ | _ | _, u⟩ <;> rw [hw] at h
  · exact ⟨u, rfl, h⟩
  · cases h
  · cases h

end

theorem execAll_cons {i : Instr} {is : List Instr} {s u : State} (h : exec i s = .next u) :
    execAll (i :: is) s = execAll is u := by
  rw [execAll, h]

theorem bitResult_eq_ite (v : Bool) : bitResult v = if v then 1 else 0 := by cases v <;> rfl

theorem bwPutbits_cons (v : Bool) (bits : List Bool) :
    bwPutbits (v :: bits) = .bwWritebit (if v then 1 else 0) :: bwPutbits bits := rfl

theorem dataBit_ite (v : Bool) : dataBit (if v then 1 else 0) = v := by cases v <;> rfl

/-- A run of BR_READBITs performs as many bit reads, whatever responses were given before (40_bit_io.md R102). -/
theorem execAll_brReadbit : ∀ {bits : List Bool} {s t : State} (rs : List Response),
    readMany bits.length s = (bits.map .bit, t) →
    execAll (List.replicate bits.length .brReadbit) (respond rs s) =
      .next (respond (rs ++ bits.map fun v => ⟨.ok, if v then 1 else 0⟩) t)
  | [], s, t, rs, h => by cases h; rw [List.map_nil, List.append_nil]; rfl
  | v :: bits, s, t, rs, h => by
    obtain ⟨u, hv, hbits⟩ := readMany_cons h
    rw [List.length_cons, List.replicate_succ, execAll_cons (exec_brReadbit_bit (readBitCore_respond rs hv)),
      respond_respond, execAll_brReadbit _ hbits, bitResult_eq_ite, List.append_assoc]
    rfl

/-- BW_PUTBITS performs as many bit writes, whatever responses were given before (40_bit_io.md R111; 30_encoding.md R90). -/
theorem execAll_bwPutbits : ∀ {bits : List Bool} {s t : State} (rs : List Response), writeMany bits s = (.ok, t) →
    execAll (bwPutbits bits) (respond rs s) = .next (respond (rs ++ List.replicate bits.length ⟨.ok, 0⟩) t)
  | [], s, t, rs, h => by cases h; rw [List.length_nil, List.replicate_zero, List.append_nil]; rfl
  | v :: bits, s, t, rs, h => by
    obtain ⟨u, hv, hbits⟩ := writeMany_cons h
    rw [← dataBit_ite v] at hv
    rw [bwPutbits_cons, execAll_cons (exec_bwWritebit_ok (writeBitCore_respond rs hv)), respond_respond,
      execAll_bwPutbits _ hbits, List.append_assoc]
    rfl

/-! ### Commands and the source -/

section
variable {s t : State}

theorem snkPut_src {b : Byte} {a : Option SnkAnswer} (h : snkPut b s = (a, t)) : t.src = s.src := by
  rcases snkPut_cases s b with ⟨_, _, -, hp⟩ | ⟨_, -, hp⟩ | ⟨-, hp⟩ <;> cases hp.symm.trans h <;> rfl

theorem snkSync_src {a : Option SnkAnswer} (h : snkSync s = (a, t)) : t.src = s.src := by
  rcases snkSync_cases s with ⟨_, _, -, hp⟩ | ⟨_, -, hp⟩ | ⟨-, hp⟩ <;> cases hp.symm.trans h <;> rfl

theorem writeBitCore_src {v : Bool} {r : WriteResult} (h : writeBitCore v s = (r, t)) : t.src = s.src := by
  obtain ⟨_, _, _, _, rfl, -⟩ := writeBitCore_all h
  rfl

theorem execBwWritebit_src {data : Word} (h : execBwWritebit data s = .next t) : t.src = s.src := by
  rw [execBwWritebit] at h
  rcases hw : writeBitCore (dataBit data) s with ⟨r, u⟩
  have hu : u.src = s.src := writeBitCore_src hw
  rw [hw] at h
  cases r <;> cases h <;> exact hu

theorem execBwFlush_src (h : execBwFlush s = .next t) : t.src = s.src := by
  rcases execBwFlush_cases s with ⟨-, hf⟩ | ⟨-, u, ⟨hp, hf⟩ | ⟨hp, hf⟩ | ⟨hp, v, hy⟩⟩
  · cases hf.symm.trans h; rfl
  · cases hf.symm.trans h; exact snkPut_src hp
  · cases hf.symm.trans h; exact (snkPut_src hp : u.src = s.src)
  · have hu : u.src = s.src := snkPut_src hp
    have hv : v.src = s.src := by
      rcases hy with ⟨hy, -⟩ | ⟨hy, -⟩ | ⟨hy, -⟩ <;> exact (snkSync_src hy).trans hu
    rcases hy with ⟨-, hf⟩ | ⟨-, hf⟩ | ⟨-, hf⟩ <;> cases hf.symm.trans h <;> exact hv

theorem execEncSym_src {sym : Byte} (h : execEncSym sym s = .next t) : t.src = s.src := by
  rw [execEncSym] at h
  cases hl : leafAt sym s with simp only [hl] at h
  | none => cases h; rfl
  | some n =>
    cases hc : codeOf s.tree.nodes n with rw [hc] at h
    | error e => cases h
    | ok c =>
      obtain ⟨c1, c2, u, -, hm, hend⟩ := writeCode_shape h
      obtain ⟨w, bs, rfl⟩ := writeMany_frame hm
      rcases hend with ⟨-, rfl⟩ | ⟨v, c3, x, -, hx, rfl⟩ | ⟨v, c3, -, hx⟩
      · rfl
      · exact (writeBitCore_src hx : x.src = (afterPuts s w bs).src)
      · exact writeBitCore_src (s := afterPuts s w bs) hx

theorem execTreeBuild_src (h : execTreeBuild s = .next t) : t.src = s.src := by
  rw [execTreeBuild] at h
  split at h
  case isTrue => cases h; rfl
  case isFalse => cases hf : firstNegative s.freq <;> rw [hf] at h <;> cases h <;> rfl

/-- Only BR_READBIT and DEC_SYM ask the source (20_memory.md R61). -/
theorem exec_src {i : Instr} (hr : i ≠ .brReadbit) (hd : i ≠ .decSym) (h : exec i s = .next t) : t.src = s.src := by
  cases i with
  | brReadbit => exact absurd rfl hr
  | decSym => exact absurd rfl hd
  | bwWritebit data => exact execBwWritebit_src h
  | bwFlush => exact execBwFlush_src h
  | encSym sym => exact execEncSym_src h
  | treeBuild => exact execTreeBuild_src h
  | brReset | bwReset | freqWr | freqRd | treeClear | stRd | stClr => cases h; rfl

/-! ### The latched reader -/

/-- A bit read that returns EOS leaves the latch set (40_bit_io.md R101). -/
theorem readBitCore_eos_latched (h : readBitCore s = (.eos, t)) : t.br.eos = true := by
  rcases readBitCore_cases s with ⟨he, hr⟩ | ⟨-, -, hr⟩ | ⟨-, -, ⟨b, rest, -, hr⟩ | ⟨rest, -, hr⟩ | ⟨rest, -, hr⟩ |
    ⟨rest, -, hr⟩ | ⟨-, hr⟩⟩ <;> cases hr.symm.trans h
  · exact he
  · rfl

/-- With the latch set, a walk down reads no bit: it is at a leaf, or it ends with EOS. -/
theorem walkDown_latched (he : s.br.eos = true) {fuel k : Nat} {n : NodeIx} (h : walkDown fuel n k s = .next t) :
    ∃ cc res, t = complete cc res s := by
  obtain ⟨c, u, hm, hend⟩ := walkDown_shape h
  cases c with
  | cons v c =>
    obtain ⟨_, hv, -⟩ := readMany_cons hm
    cases hv.symm.trans (readBitCore_latched s he)
  | nil =>
    cases hm
    rw [readBitCore_latched s he] at hend
    rcases hend with ⟨sym, rfl⟩ | ⟨v, hv, rfl⟩ | ⟨v, hv, -⟩ | hv
    · exact ⟨_, _, rfl⟩
    · cases hv; exact ⟨_, _, rfl⟩
    · cases hv
    · cases hv

/-- With the latch set, DEC_SYM only gives a response. -/
theorem execDecSym_latched (he : s.br.eos = true) (h : execDecSym s = .next t) : ∃ cc res, t = complete cc res s := by
  rw [execDecSym] at h
  cases hr : s.tree.root with rw [hr] at h
  | none => cases h; exact ⟨_, _, rfl⟩
  | some r => exact walkDown_latched he h

end

/-! ### The obligations -/

/-- Settles O12: a read that returns EOS leaves the latch set; with it set, BR_READBIT and DEC_SYM only give a response, and
no other command asks the source. -/
theorem endOfStreamIsIdempotent : Obligations.EndOfStreamIsIdempotent := by
  refine ⟨fun s n answers h => ?_, fun i s t he hi h => ?_⟩
  · have hl : (readBitCore s).2.br.eos = true := readBitCore_eos_latched (Prod.ext h rfl)
    exact ⟨hl, readMany_latched (s := { (readBitCore s).2 with src := answers }) hl n⟩
  · by_cases hr : i = .brReadbit
    · subst hr
      cases (exec_brReadbit_eos (readBitCore_latched s he)).symm.trans h
      exact ⟨rfl, rfl⟩
    by_cases hd : i = .decSym
    · subst hd
      obtain ⟨cc, res, rfl⟩ := execDecSym_latched he h
      exact ⟨rfl, rfl⟩
    obtain ⟨hbr, -⟩ := commandsWriteOnlyTheirUnit i s t h
    exact ⟨hbr hr hi hd, exec_src hr hd h⟩

/-- Settles O18: the bytes put and the cache hold as many bits as were written, and the cache at least one of them. -/
theorem writerEmitsLazily : Obligations.WriterEmitsLazily := by
  intro s t vs hs hvs h
  obtain ⟨w, bs, rfl, hlen, hpos, hbits, -⟩ := writeMany_ok (hs ▸ writerOk_empty : WriterOk s.bw) h
  have hempty : s.bw = Writer.empty := hs
  rw [hempty, cachedBits_empty, List.nil_append] at hbits
  have h0 : s.bw.pos.val = 0 := by rw [hempty]; rfl
  have h1 : 1 ≤ w.pos.val := hpos (.inl hvs)
  have h8 := pos_le w.pos
  rw [newSinkBytes_afterPuts]
  show _ ∧ w.pos.val = _ ∧ 1 ≤ w.pos.val ∧ bitsOf bs ++ cachedBits w = vs
  exact ⟨by omega, by omega, h1, hbits⟩

/-- Settles O21: each command performs its bit action, which does not depend on the responses given before it. -/
theorem bitCommandsRunTheBitActions : Obligations.BitCommandsRunTheBitActions := by
  refine ⟨fun s t bits h => ?_, fun s t bits h => ?_⟩
  · have hrun := execAll_brReadbit [] h
    rwa [respond_nil] at hrun
  · have hrun := execAll_bwPutbits [] h
    rwa [respond_nil] at hrun

/-- Settles O10, by the cases of the bit read. -/
theorem brReadbitEffect : Obligations.BrReadbitEffect := by
  refine fun s => ⟨fun he => ?_, fun hp he => ?_, fun b rest he hp hs => ?_, fun rest he hp hs => ?_,
    fun rest he hp hs => ?_⟩
  · exact exec_brReadbit_eos (readBitCore_latched s he)
  · rw [exec_brReadbit_bit (readBitCore_cached s he hp), bitResult_bitAt, posNext_of_lt hp]
    rfl
  · rw [exec_brReadbit_bit (readBitCore_data he (congrArg Fin.val hp) hs), bitResult_bitAt, popSrc_eq hs, ← he]
    rfl
  · rw [exec_brReadbit_eos ((readBitCore_exhausted he (congrArg Fin.val hp) hs).1 rfl), popSrc_eq hs]
    rfl
  · rw [exec_brReadbit_srcIo ((readBitCore_exhausted he (congrArg Fin.val hp) hs).2 rfl), popSrc_eq hs]
    rfl

/-- Settles O14: the empty reader is the one BR_RESET writes. -/
theorem brResetEffect : Obligations.BrResetEffect :=
  fun s => congrArg Host.Outcome.next (complete_ok 0 (setBr Reader.empty s))

/-- Settles O15, by the cases of the bit write. -/
theorem bwWritebitEffect : Obligations.BwWritebitEffect := by
  refine fun s data => ⟨fun hp => ?_, fun rest hp hs => ?_, fun rest hp hs => ?_⟩
  · rw [exec_bwWritebit_ok (writeBitCore_room s _ hp), placeBit, bitMask_dataBit, posNext_of_lt hp]
    rfl
  · have hempty : Writer.empty.byte ||| bitMask (dataBit data) 0 = (data &&& 1).setWidth 8 <<< 7 := by
      rw [bitMask_dataBit]
      exact BitVec.zero_or
    rw [exec_bwWritebit_ok (writeBitCore_put_ok (congrArg Fin.val hp) hs), popSnk_eq hs, ← hempty]
    rfl
  · rw [exec_bwWritebit_sinkIo (writeBitCore_put_ioErr (congrArg Fin.val hp) hs), popSnk_eq hs]
    rfl

/-- Settles O16: the put takes the sink's next answer, and the sync, where the put was accepted, the one after it. -/
theorem bwFlushEffect : Obligations.BwFlushEffect := by
  refine fun s => ⟨fun hp => ?_, fun rest hp hs => ?_, fun rest hp hs => ?_, fun rest hp hs => ?_⟩
  · exact exec_bwFlush_empty (congrArg Fin.val hp)
  · rw [exec_bwFlush_put_ioErr (Fin.val_ne_of_ne hp) (snkPut_answered s _ hs), popSnk_eq hs]
    rfl
  · rw [exec_bwFlush_sync_ioErr (Fin.val_ne_of_ne hp) (snkPut_answered s _ hs) (snkSync_after_put hs)]
    rfl
  · rw [exec_bwFlush_sync_ok (Fin.val_ne_of_ne hp) (snkPut_answered s _ hs) (snkSync_after_put hs)]
    rfl

/-- Settles O17: the empty writer is the one BW_RESET writes. -/
theorem bwResetEffect : Obligations.BwResetEffect :=
  fun s => congrArg Host.Outcome.next (complete_ok 0 (setBw Writer.empty s))

end Sys2Proof.Machine
end

section
/-! SUPPORT. The frequency table and the tree builder, command by command (41_tree_build.md): the extraction order, one merge,
the refusals and the completion of TREE_BUILD, and which tree it makes; then which codes that tree gives. -/

namespace Sys2Proof.Machine

/-! ### The extraction order and one merge -/

/-- An element that does not come before another weighs as much or more, and at equal weight has no greater symbol. -/
theorem order_of_not_comesBefore {x m : QueueNode} (h : comesBefore x m = false) :
    m.weight ≤ x.weight ∧ (x.weight = m.weight → x.symbol ≤ m.symbol) := by
  rw [Bool.eq_false_iff, Ne, comesBefore_iff, not_or] at h
  obtain ⟨hw, hs⟩ := h
  refine ⟨BitVec.le_def.2 (Nat.le_of_not_lt hw), fun he => BitVec.le_def.2 (Nat.le_of_not_lt fun hlt => hs ?_)⟩
  exact ⟨congrArg BitVec.toNat he, hlt⟩

/-- Where two elements are extracted one after the other, the loop merges them and goes on (41_tree_build.md R140). -/
theorem mergeLoop_merge {e x a b e1 : QueueNode} {q q1 q2 : List QueueNode} (h1 : extractFirst e (x :: q) = (a, e1 :: q1))
    (h2 : extractFirst e1 q1 = (b, q2)) (fuel k : Nat) (nodes : Arena) :
    mergeLoop (fuel + 1) k nodes (e :: x :: q) =
      mergeLoop fuel (k + 1) (mergeNodes k a b nodes) (mergedEntry k a b :: q2) := by
  simp only [mergeLoop, h1, h2]

/-! ### The frequency commands -/

theorem freqAt_setFreq_same (sym : Byte) (data : Word) (s : State) : freqAt sym (setFreq sym data s) = data :=
  Vector.getElem_set_self _

theorem freqAt_setFreq_ne {sym sym' : Byte} (h : sym' ≠ sym) (data : Word) (s : State) :
    freqAt sym' (setFreq sym data s) = freqAt sym' s :=
  Vector.getElem_set_ne (symIx sym).isLt (symIx sym').isLt fun he => h (symIx_inj he.symm)

/-! ### The refusals of TREE_BUILD -/

/-- The lowest index with bit 31 set, by the entries of the symbols (41_tree_build.md R141). -/
theorem firstNegative_eq_some {s : State} {sym : Byte} (h : (freqAt sym s).getLsbD 31 = true)
    (hlow : ∀ sym' : Byte, sym' < sym → (freqAt sym' s).getLsbD 31 = false) :
    firstNegative s.freq = some sym.toNat := by
  rw [firstNegative, List.findIdx?_eq_some_iff_getElem]
  refine ⟨by simpa using sym.isLt, h, fun j hj => ?_⟩
  have hjs : (symOfNat j).toNat = j := (BitVec.toNat_ofNat j 8).trans (Nat.mod_eq_of_lt (Nat.lt_trans hj sym.isLt))
  have := hlow (symOfNat j) (by rw [BitVec.lt_def, hjs]; exact hj)
  simpa [freqAt, symIx, hjs, isNegative] using this

/-! ### The tree TREE_BUILD makes -/

/-- TREE_BUILD of an unbuilt tree with no entry refused answers the leaf count and writes the tree only. -/
theorem exec_treeBuild {s : State} (hi : BlockInv s) (hb : s.tree.built = false)
    (hn : ∀ sym, (freqAt sym s).getLsbD 31 = false) :
    exec .treeBuild s = .next (respond [⟨.ok, natResult (leafCount s.freq)⟩]
      (setTree (builtTree s.freq Tree.empty.nodes) s)) := by
  rw [exec, (execTreeBuild_ok hi hb hn).1, complete_ok]

/-- The tree after such a TREE_BUILD depends on the table only (41_tree_build.md R151). -/
theorem tree_after_treeBuild {s t : State} (hi : BlockInv s) (hb : s.tree.built = false)
    (hn : ∀ sym, (freqAt sym s).getLsbD 31 = false) (h : exec .treeBuild s = .next t) :
    t.tree = builtTree s.freq Tree.empty.nodes := by
  cases (exec_treeBuild hi hb hn).symm.trans h
  rfl

/-- TREE_CLEAR answers OK and empties the tree (41_tree_build.md R150). -/
theorem exec_treeClear (s : State) : exec .treeClear s = .next (respond [⟨.ok, 0⟩] (setTree Tree.empty s)) := by
  rw [exec, execTreeClear, complete_ok]

section
variable {t : Tree}

/-- In a tree with one leaf or none no node has a parent: no merge was made. -/
theorem BuiltOk.parent_eq_none (h : BuiltOk t) (hL : leavesOf t ≤ 1) {n : NodeIx} {nd : Node}
    (hn : nodeAt t.nodes n = some nd) : nd.parent = none := by
  cases hp : nd.parent with
  | none => rfl
  | some p =>
    obtain ⟨h256, -, np, hnp, -⟩ := h.up n nd p hn hp
    have := (h.inner_used p h256).1 (by rw [hnp]; rfl)
    omega

/-- The last entry a build uses has no parent, for its parent would be a later one: it is the root. -/
theorem BuiltOk.root_of_merges (h : BuiltOk t) (hL : 2 ≤ leavesOf t) :
    ∃ r, t.root = some r ∧ r.val = 256 + (leavesOf t - 2) := by
  obtain ⟨r, hr⟩ : ∃ r : NodeIx, r.val = 256 + (leavesOf t - 2) :=
    ⟨⟨256 + (leavesOf t - 2), by have := leavesOf_le t; omega⟩, rfl⟩
  obtain ⟨nd, hnd⟩ := Option.isSome_iff_exists.1 ((h.inner_used r (by omega)).2 (by omega))
  refine ⟨r, (h.top r nd hnd).1 ?_, hr⟩
  cases hp : nd.parent with
  | none => rfl
  | some p =>
    obtain ⟨h256, hrp, np, hnp, -⟩ := h.up r nd p hnd hp
    have := (h.inner_used p h256).1 (by rw [hnp]; rfl)
    omega

/-- A tree that holds a node has a leaf: an internal node has a child made before it. -/
theorem BuiltOk.leaf_exists (h : BuiltOk t) {n : NodeIx} {nd : Node} (hn : nodeAt t.nodes n = some nd) :
    ∃ sym m, t.leaf[(symIx sym).val]'(symIx sym).isLt = some m := by
  rcases Nat.lt_or_ge n.val 256 with hlt | hge
  · obtain ⟨sym, hl, -⟩ := h.leaf_of_lt hn hlt
    exact ⟨sym, n, hl⟩
  · obtain ⟨a, b, na, nb, -, -, -, halt, -, hna, -⟩ := h.inner n nd hge hn
    exact h.leaf_exists hna
termination_by n.val

/-- ROOT is absent exactly if no symbol has a leaf (41_tree_build.md R145). -/
theorem BuiltOk.root_eq_none_iff (h : BuiltOk t) :
    t.root = none ↔ ∀ sym, t.leaf[(symIx sym).val]'(symIx sym).isLt = none := by
  constructor
  · intro hr sym
    cases hl : t.leaf[(symIx sym).val]'(symIx sym).isLt with
    | none => rfl
    | some n =>
      obtain ⟨-, nd, hn, -⟩ := h.leaf_node hl
      obtain ⟨r, c, hr', -⟩ := h.reached hn
      rw [hr] at hr'
      cases hr'
  · intro hall
    cases hr : t.root with
    | none => rfl
    | some r =>
      obtain ⟨nd, hnd⟩ := Option.isSome_iff_exists.1 (h.root_present r hr)
      obtain ⟨sym, n, hl⟩ := h.leaf_exists hnd
      rw [hall sym] at hl
      cases hl

/-- Where the root is a leaf there is one leaf at most: with two or more, every leaf has a parent. -/
theorem BuiltOk.leavesOf_of_leaf_root (h : BuiltOk t) {r : NodeIx} (hr : t.root = some r) (hl : IsLeafAt t.nodes r) :
    leavesOf t ≤ 1 := by
  obtain ⟨nd, hnd, h0, h1⟩ := hl
  by_contra hL
  obtain ⟨p, hp⟩ := h.leaf_has_parent (by omega) hnd h0 h1
  rw [(h.top r nd hnd).2 hr] at hp
  cases hp

/-- The code of a leaf that has a parent is the path from the root to it (42_encode.md R171). -/
theorem BuiltOk.codeOf_path (h : BuiltOk t) {n : NodeIx} {nd : Node} {c : List Bool} (hn : nodeAt t.nodes n = some nd)
    (hp : nd.parent ≠ none) (hc : Machine.codeOf t.nodes n = .ok c) :
    ∃ r, t.root = some r ∧ descend t.nodes r c = some n := by
  rcases h.codeOf hn with ⟨hnone, -⟩ | ⟨-, r, c', hr, hc', hd, -⟩
  · exact absurd hnone hp
  · cases hc.symm.trans hc'
    exact ⟨r, hr, hd⟩

/-- A leaf that is not the only node has a parent. -/
theorem BuiltOk.leaf_parent_of_ne (h : BuiltOk t) {n m : NodeIx} {nd md : Node} (hn : nodeAt t.nodes n = some nd)
    (hl : IsLeafAt t.nodes n) (hm : nodeAt t.nodes m = some md) (hne : m ≠ n) : nd.parent ≠ none :=
  fun hp => hne (h.only_root ((h.top n nd hn).1 hp) hl hm)

/-- From the root of a tree with two leaves or more no path has as many links as there are leaves (41_tree_build.md R154). -/
theorem BuiltOk.root_path_length (h : BuiltOk t) (hL : 2 ≤ leavesOf t) {r n : NodeIx} {c : List Bool}
    (hr : t.root = some r) (hd : descend t.nodes r c = some n) : c.length ≤ leavesOf t - 1 := by
  obtain ⟨r', hr', hval⟩ := h.root_of_merges hL
  cases hr.symm.trans hr'
  have := h.path_length hd
  omega

end

/-! ### The built tree in terms of the frequency table -/

section
variable {freq : FreqTable}

/-- L leaves, one for each nonzero entry. -/
theorem leavesOf_builtTree (hf : firstNegative freq = none) :
    leavesOf (builtTree freq Tree.empty.nodes) = freq.toList.countP (fun w => w != 0) :=
  (leavesOf_leafTable (leafQueue_ok hf) rfl).trans (length_leafQueue freq)

/-- The queue element of a symbol with a nonzero entry. -/
theorem mem_leafQueue_of_ne {sym : Byte} (hne : freq[(symIx sym).val]'(symIx sym).isLt ≠ 0) :
    ⟨leafIx sym, leafWeight (freq[(symIx sym).val]'(symIx sym).isLt), sym⟩ ∈ leafQueue freq :=
  (mem_leafQueue freq _).2 ⟨rfl, rfl, hne⟩

/-- The leaf of a symbol with a nonzero entry: the entry is its weight, and merges change no more than its parent. -/
theorem builtTree_leafNode (hf : firstNegative freq = none) {sym : Byte}
    (hne : freq[(symIx sym).val]'(symIx sym).isLt ≠ 0) :
    ∃ parent, nodeAt (builtTree freq Tree.empty.nodes).nodes (leafIx sym) =
      some ⟨(freq[(symIx sym).val]'(symIx sym).isLt).setWidth 40, sym, none, none, parent⟩ := by
  obtain ⟨hloop, -⟩ := mergedLeaves_ok (leafQueue_ok hf)
  obtain ⟨nd, hnd⟩ := Option.isSome_iff_exists.1 (hloop.leaves _ (mem_leafQueue_of_ne hne))
  obtain ⟨e, he, hix, hw, hs, h0, h1⟩ := hloop.leaf _ nd (leafIx_lt sym) hnd
  obtain ⟨heix, hew, -⟩ := (mem_leafQueue freq e).1 he
  obtain rfl : e.symbol = sym := leafIx_inj (heix.symm.trans hix)
  obtain ⟨weight, symbol, child0, child1, parent⟩ := nd
  cases hs
  cases h0
  cases h1
  cases hw.trans hew
  exact ⟨parent, hnd⟩

/-- A leaf's entry of the arena holds a value exactly if the symbol's entry of the table is nonzero. -/
theorem builtTree_leaf_present (hf : firstNegative freq = none) (sym : Byte) :
    (nodeAt (builtTree freq Tree.empty.nodes).nodes (leafIx sym)).isSome = true ↔
      freq[(symIx sym).val]'(symIx sym).isLt ≠ 0 := by
  refine ⟨fun hs h0 => ?_, fun hne => ?_⟩
  · have hl := builtTree_leaf freq sym
    rw [if_pos h0] at hl
    rw [(builtOk_builtTree hf).leaf_none sym hl] at hs
    cases hs
  · obtain ⟨parent, hn⟩ := builtTree_leafNode hf hne
    rw [hn]
    rfl

/-- ROOT is absent exactly if every entry is zero (41_tree_build.md R145). -/
theorem builtTree_root_eq_none_iff (hf : firstNegative freq = none) :
    (builtTree freq Tree.empty.nodes).root = none ↔ ∀ sym, freq[(symIx sym).val]'(symIx sym).isLt = 0 := by
  rw [(builtOk_builtTree hf).root_eq_none_iff]
  simp [builtTree_leaf]

/-- With one leaf, that leaf is the root and has no parent (41_tree_build.md R146). -/
theorem builtTree_root_single (hf : firstNegative freq = none) (hL : freq.toList.countP (fun w => w != 0) ≤ 1)
    {sym : Byte} (hne : freq[(symIx sym).val]'(symIx sym).isLt ≠ 0) :
    (builtTree freq Tree.empty.nodes).root = some (leafIx sym) ∧
      nodeAt (builtTree freq Tree.empty.nodes).nodes (leafIx sym) =
        some ⟨(freq[(symIx sym).val]'(symIx sym).isLt).setWidth 40, sym, none, none, none⟩ := by
  have hok := builtOk_builtTree hf
  obtain ⟨parent, hn⟩ := builtTree_leafNode hf hne
  have hp : parent = none := hok.parent_eq_none (by rwa [leavesOf_builtTree hf]) hn
  subst hp
  exact ⟨(hok.top _ _ hn).1 rfl, hn⟩

/-- With no nonzero entry but that of one symbol there is one leaf at most. -/
theorem count_le_one_of_single {sym : Byte} (h : ∀ sym', sym' ≠ sym → freq[(symIx sym').val]'(symIx sym').isLt = 0) :
    freq.toList.countP (fun w => w != 0) ≤ 1 := by
  have hsub : (leafQueue freq).map QueueNode.symbol ⊆ [sym] := by
    intro x hx
    obtain ⟨e, he, rfl⟩ := List.mem_map.1 hx
    by_contra hne
    exact ((mem_leafQueue freq e).1 he).2.2 (h e.symbol (by simpa using hne))
  have := ((leafQueue_nodup freq).subperm hsub).length_le
  rwa [List.length_map, length_leafQueue] at this

/-- The leaf count is zero exactly if every entry is. -/
theorem count_eq_zero_iff :
    freq.toList.countP (fun w => w != 0) = 0 ↔ ∀ sym, freq[(symIx sym).val]'(symIx sym).isLt = 0 := by
  rw [← length_leafQueue, List.length_eq_zero_iff, List.eq_nil_iff_forall_not_mem]
  constructor
  · intro h sym
    by_contra hne
    exact h _ (mem_leafQueue_of_ne hne)
  · intro h e he
    exact ((mem_leafQueue freq e).1 he).2.2 (h e.symbol)

/-- The root is the one node the merge loop leaves in the queue, so the table's sum is its weight (41_tree_build.md R148). -/
theorem builtTree_root_weight (hf : firstNegative freq = none) {r : NodeIx} {nd : Node}
    (hr : (builtTree freq Tree.empty.nodes).root = some r)
    (hn : nodeAt (builtTree freq Tree.empty.nodes).nodes r = some nd) :
    nd.weight.toNat = (freq.toList.map BitVec.toNat).sum := by
  obtain ⟨hloop, hlen⟩ := mergedLeaves_ok (leafQueue_ok hf)
  obtain ⟨e, he, rfl⟩ := Option.map_eq_some_iff.1 hr
  have hq : (mergedLeaves (leafQueue freq) Tree.empty.nodes).2 = [e] := by
    obtain ⟨q, hq⟩ := List.head?_eq_some_iff.1 he
    rw [hq, List.length_cons] at hlen
    rw [hq, List.length_eq_zero_iff.1 (by omega : q.length = 0)]
  obtain ⟨nd', hn', hw, -⟩ := hloop.entry e (by rw [hq]; exact List.mem_singleton_self e)
  cases hn.symm.trans hn'
  have hsum := hloop.weights
  rw [hq, sum_leafQueue] at hsum
  rw [hw]
  simpa using hsum

/-- At most 256 weights, each below 2^31, sum to less than 2^39 (41_tree_build.md R147). -/
theorem sum_freq_lt (hf : firstNegative freq = none) : (freq.toList.map BitVec.toNat).sum < 2 ^ 39 := by
  have hl := leafQueue_ok hf
  have hle := List.sum_le_card_nsmul ((leafQueue freq).map fun e => e.weight.toNat) (2 ^ 31 - 1) fun x hx => by
    obtain ⟨e, he, rfl⟩ := List.mem_map.1 hx
    exact Nat.le_sub_one_of_lt (hl.weight e he).2
  rw [sum_leafQueue, List.length_map, smul_eq_mul] at hle
  have := leavesOk_length hl
  omega

end

/-! ### The obligations -/

/-- Settles O23: extraction permutes the queue, and no element comes before the extracted one. -/
theorem firstHasLeastWeightThenGreatestSymbol : Obligations.FirstHasLeastWeightThenGreatestSymbol := by
  intro e q
  have horder := fun x hx => order_of_not_comesBefore (extractFirst_minimal e q x hx)
  have hperm := extractFirst_perm e q
  exact ⟨hperm.mem_iff.1 (List.mem_cons_self ..), fun x hx => (horder x hx).1, fun x hx => (horder x hx).2, hperm⟩

/-- Settles O24: the loop merges the two extracted, and the merge writes the new node and its children's parent. -/
theorem mergeWiresTheFirstTwoExtracted : Obligations.MergeWiresTheFirstTwoExtracted := by
  intro fuel k nodes e x a b q q1 q2 e1 na nb hk h1 h2 hab halt hblt hna hnb
  have hm : (mergeIx k).val = 256 + k := mergeIx_val hk
  have ham : a.ix ≠ mergeIx k := fun he => by rw [he] at halt; omega
  have hbm : b.ix ≠ mergeIx k := fun he => by rw [he] at hblt; omega
  have hat := nodeAt_mergeNodes (nodes := nodes) ham hbm hab
  refine ⟨mergeIx k, mergeNodes k a b nodes, hm, ?_, ?_, ?_, fun j hjm hja hjb => ?_, mergeLoop_merge h1 h2 fuel k nodes⟩
  · rw [hat, if_pos rfl]
    rfl
  · rw [hat, if_neg ham, if_pos (.inl rfl), hna]
    rfl
  · rw [hat, if_neg hbm, if_pos (.inr rfl), hnb]
    rfl
  · rw [hat, if_neg hjm, if_neg (not_or.2 ⟨hja, hjb⟩)]

/-- Settles O25, by the branches of TREE_BUILD. -/
theorem treeBuildErrorsChangeOnlySticky : Obligations.TreeBuildErrorsChangeOnlySticky := by
  refine fun s => ⟨fun hb => ?_, fun sym hb hneg hlow => ?_⟩
  · rw [exec, execTreeBuild, if_pos hb]
    rfl
  · rw [exec, execTreeBuild, if_neg (by rw [hb]; decide), firstNegative_eq_some hneg hlow, ← BitVec.ofNat_toNat]
    rfl

/-- Settles O26: LEAF, ROOT and the leaf count of the built tree are read off the table. -/
theorem treeBuildCompletesWithTheLeafCount : Obligations.TreeBuildCompletesWithTheLeafCount := by
  intro s hi hb hn
  have hf := (firstNegative_eq_none s).2 hn
  have hok := builtOk_builtTree hf
  refine ⟨_, _, exec_treeBuild hi hb hn, rfl, length_leafQueue s.freq, leavesOk_length (leafQueue_ok hf), rfl,
    builtTree_leaf s.freq, builtTree_root_eq_none_iff hf, fun sym hne hone => ?_, fun r hr hl => ?_⟩
  · exact builtTree_root_single hf (count_le_one_of_single hone) hne
  · have hle := hok.leavesOf_of_leaf_root hr hl
    have hne : s.freq.toList.countP (fun w => w != 0) ≠ 0 := fun h0 => by
      have hnone := (builtTree_root_eq_none_iff hf).2 (count_eq_zero_iff.1 h0)
      cases hr.symm.trans hnone
    rw [leavesOf_builtTree hf] at hle
    rw [leafCount, length_leafQueue]
    omega

/-- Settles O27, by the leaves of the table and the entries the merges use. -/
theorem treeBuildUsesTheseEntries : Obligations.TreeBuildUsesTheseEntries := by
  intro s t hi hb hn h
  have hf := (firstNegative_eq_none s).2 hn
  rw [tree_after_treeBuild hi hb hn h, ← leavesOf_builtTree hf]
  exact ⟨builtTree_leaf_present hf, (builtOk_builtTree hf).inner_used⟩

/-- Settles O28: every merge keeps the sum of the queue's weights, and the table has 256 entries below 2^31. -/
theorem rootWeightIsTheSymbolCount : Obligations.RootWeightIsTheSymbolCount := by
  intro s t r nd hi hb hn h hr hnd
  have hf := (firstNegative_eq_none s).2 hn
  rw [tree_after_treeBuild hi hb hn h] at hr hnd
  rw [builtTree_root_weight hf hr hnd]
  exact ⟨rfl, sum_freq_lt hf⟩

/-- Settles O29: the tree depends on the table only, and a build and TREE_CLEAR keep the table and the invariant. -/
theorem treeBuildIsDeterministic : Obligations.TreeBuildIsDeterministic := by
  refine ⟨fun s1 s2 t1 t2 hi1 hi2 hb1 hb2 hfreq hn h1 h2 => ?_, fun s hi hb hn => ?_⟩
  · have hn2 : ∀ sym, (freqAt sym s2).getLsbD 31 = false := fun sym => by rw [freqAt, ← hfreq]; exact hn sym
    rw [tree_after_treeBuild hi1 hb1 hn h1, tree_after_treeBuild hi2 hb2 hn2 h2, hfreq]
  · have h1 := exec_treeBuild hi hb hn
    have h2 := exec_treeClear (respond [⟨.ok, natResult (leafCount s.freq)⟩] (setTree (builtTree s.freq Tree.empty.nodes) s))
    have h3 := exec_treeBuild ((exec_move h2).blockInv ((exec_move h1).blockInv hi)) rfl hn
    exact ⟨_, _, h1, (execAll_cons h1).trans ((execAll_cons h2).trans (execAll_cons h3)), rfl⟩

/-- Settles O40: with two symbols both codes are paths from the root, and no path goes on from a leaf. -/
theorem codesArePrefixFree : Obligations.CodesArePrefixFree := by
  rintro s sym1 sym2 n1 n2 c1 c2 hi hne hl1 hl2 hc1 hc2 ⟨d, rfl⟩
  have hok := hi.built_of_leaf hl1
  obtain ⟨hix1, nd1, hn1, -, h10, h11⟩ := hok.leaf_node hl1
  obtain ⟨hix2, nd2, hn2, -, h20, h21⟩ := hok.leaf_node hl2
  have hn12 : n1 ≠ n2 := fun he => hne (leafIx_inj (hix1.symm.trans (he.trans hix2)))
  have hleaf1 : IsLeafAt s.tree.nodes n1 := ⟨nd1, hn1, h10, h11⟩
  have hleaf2 : IsLeafAt s.tree.nodes n2 := ⟨nd2, hn2, h20, h21⟩
  obtain ⟨r, hr, hd1⟩ := hok.codeOf_path hn1 (hok.leaf_parent_of_ne hn1 hleaf1 hn2 hn12.symm) hc1
  obtain ⟨r', hr', hd2⟩ := hok.codeOf_path hn2 (hok.leaf_parent_of_ne hn2 hleaf2 hn1 hn12) hc2
  cases hr.symm.trans hr'
  have hd : descend s.tree.nodes n1 d = some n2 := by rwa [descend_append, hd1] at hd2
  cases descend_leaf hleaf1 hd
  cases (descend_nil hn1).symm.trans hd
  exact hn12 rfl

/-- Settles O41: a code is a path from the root, and the root is the entry of the last of the L - 1 merges. -/
theorem codeLengthBound : Obligations.CodeLengthBound := by
  intro s sym n c hi hL hl hc
  have hok := hi.built_of_leaf hl
  obtain ⟨-, nd, hn, -, h0, h1⟩ := hok.leaf_node hl
  obtain ⟨p, hp⟩ := hok.leaf_has_parent hL hn h0 h1
  obtain ⟨r, hr, hd⟩ := hok.codeOf_path hn (by simp [hp]) hc
  obtain ⟨hpos, hmax⟩ := hok.codeOf_length hn hc
  exact ⟨hpos, hok.root_path_length hL hr hd, hmax⟩

/-- Settles O56: the leaves are read off the table, each merge is a merge in order, and the root is the last entry used. -/
theorem treeBuildMergesTheQueueInOrder : Obligations.TreeBuildMergesTheQueueInOrder := by
  intro s hi hb hn
  have hf := (firstNegative_eq_none s).2 hn
  have hok := builtOk_builtTree hf
  have hL := leavesOf_builtTree hf
  refine ⟨_, _, exec_treeBuild hi hb hn, rfl, fun sym hne => builtTree_leafNode hf hne, fun sym h0 => ?_, fun k hk => ?_,
    fun p hp => ?_, fun h0 => ?_, fun sym h1 hne => ?_, fun h2 => ?_, hok.treeRules.root_has_no_parent⟩
  · exact Option.not_isSome_iff_eq_none.1 fun hs => (builtTree_leaf_present hf sym).1 hs h0
  · exact builtTree_inOrder hf (by rwa [length_leafQueue])
  · refine Option.not_isSome_iff_eq_none.1 fun hs => ?_
    have := (hok.inner_used p (by omega)).1 hs
    omega
  · exact (builtTree_root_eq_none_iff hf).2 (count_eq_zero_iff.1 h0)
  · exact (builtTree_root_single hf h1.le hne).1
  · rw [← hL] at h2 ⊢
    exact hok.root_of_merges h2

/-- Settles O22: the entry is set and read as the whole word. -/
theorem freqCommandsEffect : Obligations.FreqCommandsEffect := by
  intro s sym data
  refine ⟨⟨_, congrArg Host.Outcome.next (complete_ok 0 (setFreq sym data s)), rfl, freqAt_setFreq_same sym data s,
    fun sym' hne => freqAt_setFreq_ne hne data s⟩, ?_⟩
  exact congrArg Host.Outcome.next (complete_ok (freqAt sym s) s)

/-- Settles O30: the tree TREE_CLEAR writes is the empty one. -/
theorem treeClearEffect : Obligations.TreeClearEffect :=
  fun s => ⟨_, exec_treeClear s, rfl, rfl, rfl, fun _ => Vector.getElem_replicate _, nodeAt_empty⟩

end Sys2Proof.Machine
end

section
/-! SUPPORT. ENC_SYM case by case (42_encode.md): which code a present symbol has, what a bit sequence leaves in the writer
by the sink's answers to its puts, and the whole next state of the command. -/

namespace Sys2Proof.Machine

/-! ### The code of a present symbol -/

section
variable {t : Tree} {sym : Byte} {n : NodeIx}

/-- Every present symbol has a code (42_encode.md R171). -/
theorem BuiltOk.codeOf_exists (h : BuiltOk t) (hl : t.leaf[(symIx sym).val]'(symIx sym).isLt = some n) :
    ∃ c, Machine.codeOf t.nodes n = .ok c := by
  obtain ⟨-, nd, hn, -⟩ := h.leaf_node hl
  rcases h.codeOf hn with ⟨-, hc⟩ | ⟨-, -, c, -, hc, -⟩
  · exact ⟨_, hc⟩
  · exact ⟨c, hc⟩

/-- With two leaves or more the code of a leaf is the path from the root to it (42_encode.md R173). -/
theorem BuiltOk.descend_codeOf (h : BuiltOk t) (hL : 2 ≤ leavesOf t)
    (hl : t.leaf[(symIx sym).val]'(symIx sym).isLt = some n) {c : List Bool} (hc : Machine.codeOf t.nodes n = .ok c)
    {r : NodeIx} (hr : t.root = some r) : descend t.nodes r c = some n := by
  obtain ⟨-, nd, hn, -, h0, h1⟩ := h.leaf_node hl
  obtain ⟨p, hp⟩ := h.leaf_has_parent hL hn h0 h1
  obtain ⟨r', hr', hd⟩ := h.codeOf_path hn (by simp [hp]) hc
  cases hr.symm.trans hr'
  exact hd

/-- With one leaf the code is the one bit 0: the leaf has no parent (42_encode.md R174). -/
theorem BuiltOk.codeOf_single (h : BuiltOk t) (hL : leavesOf t ≤ 1)
    (hl : t.leaf[(symIx sym).val]'(symIx sym).isLt = some n) : Machine.codeOf t.nodes n = .ok [false] := by
  obtain ⟨-, nd, hn, -⟩ := h.leaf_node hl
  rcases h.codeOf hn with ⟨-, hc⟩ | ⟨hp, -⟩
  · exact hc
  · exact absurd (h.parent_eq_none hL hn) hp

end

/-- The code of a present symbol has between 1 and 255 bits (41_tree_build.md R154). -/
theorem BlockInv.code_length {s : State} {sym : Byte} {n : NodeIx} {c : List Bool} (hi : BlockInv s)
    (hl : leafAt sym s = some n) (hc : codeOf s.tree.nodes n = .ok c) : 1 ≤ c.length ∧ c.length ≤ 255 := by
  have hok := hi.built_of_leaf hl
  obtain ⟨-, nd, hn, -⟩ := hok.leaf_node hl
  exact hok.codeOf_length hn hc

/-- Before a build every symbol is absent (42_encode.md R176). -/
theorem BlockInv.leafAt_of_unbuilt {s : State} (hi : BlockInv s) (hb : s.tree.built = false) (sym : Byte) :
    leafAt sym s = none := by
  rw [leafAt, hi.tree.eq_empty hb]
  exact Vector.getElem_replicate _

/-! ### Bit sequences and the sink's answers -/

section
variable {s t u : State} {sym : Byte} {n : NodeIx} {code : List Bool}

/-- A bit sequence that ends in the byte after the `m`-th put is accepted with exactly `m` puts (42_encode.md R177). -/
theorem writeMany_okAnswers {m : Nat} {rest : List (Option SnkAnswer)} (hw : WriterOk s.bw)
    (hs : s.snk = okAnswers m ++ rest) (hlo : 8 * m < s.bw.pos.val + code.length)
    (hhi : s.bw.pos.val + code.length ≤ 8 * (m + 1)) :
    ∃ w bs, writeMany code s = (.ok, afterPuts s w bs) ∧ (afterPuts s w bs).snk = rest ∧ bs.length = m ∧
      w.pos.val = s.bw.pos.val + code.length - 8 * m ∧ bitsOf bs ++ cachedBits w = cachedBits s.bw ++ code := by
  obtain ⟨t, ht⟩ := writeMany_accepts hs hhi
  obtain ⟨w, bs, rfl, hlen, hpos, hbits, -⟩ := writeMany_ok hw ht
  have hne : code ≠ [] ∨ 1 ≤ s.bw.pos.val := by
    rw [← List.length_pos_iff]
    omega
  have h1 := hpos hne
  have h8 := pos_le w.pos
  have hm : bs.length = m := by omega
  refine ⟨w, bs, ht, ?_, hm, by omega, hbits⟩
  show s.snk.drop bs.length = rest
  rw [hs, List.drop_left' (by rw [okAnswers, List.length_replicate, hm])]

/-! ### ENC_SYM by the presence of the symbol and by what its bit writes return -/

theorem exec_encSym_absent (hl : leafAt sym s = none) :
    exec (.encSym sym) s = .next (raise .absentSym (symResult sym) s) := by
  simp only [exec, execEncSym, hl]

theorem exec_encSym_present (hl : leafAt sym s = some n) (hc : codeOf s.tree.nodes n = .ok code) :
    exec (.encSym sym) s = writeCode sym code 0 s := by
  simp only [exec, execEncSym, hl, hc]

/-- A code that is accepted whole completes with its length (42_encode.md R172). -/
theorem writeCode_ok (h : writeMany code s = (.ok, t)) :
    writeCode sym code 0 s = .next (respond [⟨.ok, countResult code.length sym⟩] t) := by
  have happ := writeCode_append (sym := sym) (d := []) (k := 0) h
  rw [List.append_nil, Nat.zero_add] at happ
  rw [happ, writeCode, complete_ok]

/-- A code whose bit number `k` meets a failing put reports `k` (42_encode.md R178). -/
theorem writeCode_sinkIo {k : Nat} (hk : k < code.length) (h : writeMany (code.take k) s = (.ok, t))
    (hv : writeBitCore code[k] t = (.sinkIo, u)) :
    writeCode sym code 0 s = .next (raise .sinkIo (countResult k sym) u) := by
  have happ := writeCode_append (sym := sym) (d := code.drop k) (k := 0) h
  rw [List.take_append_drop, List.length_take_of_le hk.le, Nat.zero_add, List.drop_eq_getElem_cons hk] at happ
  rw [happ, writeCode, hv]

end

/-! ### The obligations -/

/-- Settles O39: under the invariant a present symbol shows a build, and in a built tree codes are paths from the root. -/
theorem codeIsThePathFromTheRoot : Obligations.CodeIsThePathFromTheRoot := by
  intro s sym n r hi hl hr
  have hok := hi.built_of_leaf hl
  obtain ⟨c, hc⟩ := hok.codeOf_exists hl
  exact ⟨c, hc, fun hL => hok.descend_codeOf hL hl hc hr⟩

/-- Settles O42: the code is accepted whole, and the bits before and in it tell how many bytes were put. -/
theorem encSymWritesTheCode : Obligations.EncSymWritesTheCode := by
  intro s sym n c rest hi hl hc hs
  obtain ⟨hpos, hmax⟩ := hi.code_length hl hc
  obtain ⟨w, bs, hw, hsnk, hlen, hwpos, hbits⟩ := writeMany_okAnswers hi.writer hs (code := c) (by omega) (by omega)
  refine ⟨_, bs, (exec_encSym_present hl hc).trans (writeCode_ok hw), ?_, hlen, hwpos, hbits⟩
  rw [← hsnk, ← countResult_eq c.length sym hmax]
  rfl

/-- Settles O43, by the absent symbol, the unbuilt tree and the leaf without a parent. -/
theorem encSymOfAbsentSymbolIsANoOp : Obligations.EncSymOfAbsentSymbolIsANoOp :=
  ⟨fun _ _ hl => exec_encSym_absent hl, fun _ sym hi hb => hi.leafAt_of_unbuilt hb sym,
    fun _ _ _ hi hl hL => (hi.built_of_leaf hl).codeOf_single hL.le hl⟩

/-- Settles O44: the bits up to the (j+1)-th put fill the cache, and the next bit finds the put that fails. -/
theorem encSymSinkErrorKeepsTheAcceptedBits : Obligations.EncSymSinkErrorKeepsTheAcceptedBits := by
  intro s sym n code j rest hi hl hc hj hs
  have hp := pos_le s.bw.pos
  obtain ⟨k, hkp⟩ : ∃ k, k + s.bw.pos.val = 8 * (j + 1) := ⟨8 * (j + 1) - s.bw.pos.val, by omega⟩
  have hk : k < code.length := by omega
  have hmax := (hi.code_length hl hc).2
  have htake : (code.take k).length = k := List.length_take_of_le hk.le
  obtain ⟨w, bs, hw, hsnk, hlen, hwpos, hbits⟩ := writeMany_okAnswers hi.writer hs (code := code.take k) (by omega)
    (by omega)
  have hfull : w.pos.val = 8 := by omega
  have hio := writeBitCore_put_ioErr (v := code[k]) hfull hsnk
  have hexec := (exec_encSym_present hl hc).trans (writeCode_sinkIo (sym := sym) hk hw hio)
  refine ⟨_, bs, k, hexec, hkp, hk, hlen, Fin.ext hfull, ?_, hbits⟩
  rw [popSnk_eq hsnk, ← countResult_eq k sym (by omega)]
  rfl

end Sys2Proof.Machine
end

section
/-! SUPPORT. DEC_SYM case by case (43_decode.md): the walk from the root along the bits to come, what the command answers at
a leaf and where the bits run out, which path a bit sequence starts with, and the round trip of ENC_SYM and DEC_SYM. -/

namespace Sys2Proof.Machine

/-! ### Results -/

/-- The symbol of a result that carries a bit count and a symbol (43_decode.md R191). -/
theorem setWidth_countResult (k : Nat) (sym : Byte) : (countResult k sym).setWidth 8 = sym := by
  rw [countResult, BitVec.setWidth_append_eq_right]

/-- With no bit consumed the result is the symbol (43_decode.md R192). -/
theorem countResult_zero (sym : Byte) : countResult 0 sym = sym.setWidth 32 := by
  rw [countResult_eq 0 sym (by decide), Nat.mul_zero, Nat.zero_add, BitVec.ofNat_toNat]

/-! ### DEC_SYM by the bits to come -/

section
variable {s : State} {r n : NodeIx} {nd : Node}

theorem exec_decSym_noRoot (hr : s.tree.root = none) : exec .decSym s = .next (raise .emptyTree 0 s) := by
  rw [exec, execDecSym, hr]

theorem exec_decSym_root (hr : s.tree.root = some r) : exec .decSym s = walkDown Config.nodeMax r 0 s := by
  rw [exec, execDecSym, hr]

/-- From the root no path has more than 255 links (41_tree_build.md R154). -/
theorem BuiltOk.path_length_le {t : Tree} (h : BuiltOk t) {c : List Bool} (hd : descend t.nodes r c = some n) :
    c.length ≤ 255 := by
  have := h.path_length hd
  omega

/-- DEC_SYM stands, after the bits of a path from the root, at the path's end, with no byte read ahead of those bits
(43_decode.md R191; 20_memory.md R52). -/
theorem exec_decSym_path {c more : List Bool} {bs : List Byte} {rest : List (Option SrcAnswer)} (hb : BuiltOk s.tree)
    (hr : s.tree.root = some r) (hd : descend s.tree.nodes r c = some n) (he : s.br.eos = false)
    (hs : s.src = dataAnswers bs ++ rest) (hbits : pendingBits s.br ++ bitsOf bs = c ++ more) :
    ∃ br read left, exec .decSym s = walkDown (510 - c.length + 1) n c.length (afterReads s br read left rest) ∧
      br.eos = false ∧ bs = read ++ left ∧ pendingBits br ++ bitsOf left = more ∧
      8 * read.length + br.pos.val = c.length + s.br.pos.val ∧ (c ≠ [] ∨ 1 ≤ s.br.pos.val → 1 ≤ br.pos.val) := by
  obtain ⟨br, read, left, hw, hreader⟩ := walkDown_path (510 - c.length + 1) 0 hb hd he hs hbits
  have hfuel : 510 - c.length + 1 + c.length = Config.nodeMax := by
    have := hb.path_length_le hd
    show _ = 511
    omega
  rw [hfuel, Nat.zero_add] at hw
  exact ⟨br, read, left, (exec_decSym_root hr).trans hw, hreader⟩

/-- DEC_SYM whose coming bits begin with the path to a leaf returns the leaf's symbol and the path's length. -/
theorem exec_decSym_leaf {c more : List Bool} {bs : List Byte} {rest : List (Option SrcAnswer)} (hb : BuiltOk s.tree)
    (hr : s.tree.root = some r) (hd : descend s.tree.nodes r c = some n) (hn : nodeAt s.tree.nodes n = some nd)
    (h0 : nd.child0 = none) (he : s.br.eos = false) (hs : s.src = dataAnswers bs ++ rest)
    (hbits : pendingBits s.br ++ bitsOf bs = c ++ more) :
    ∃ br read left,
      exec .decSym s = .next (respond [⟨.ok, countResult c.length nd.symbol⟩] (afterReads s br read left rest)) ∧
      br.eos = false ∧ bs = read ++ left ∧ pendingBits br ++ bitsOf left = more ∧
      8 * read.length + br.pos.val = c.length + s.br.pos.val ∧ (c ≠ [] ∨ 1 ≤ s.br.pos.val → 1 ≤ br.pos.val) := by
  obtain ⟨br, read, left, hw, hreader⟩ := exec_decSym_path hb hr hd he hs hbits
  have hleaf := walkDown_leaf (s := afterReads s br read left rest) hn h0 (510 - c.length + 1) c.length
  exact ⟨br, read, left, by rw [hw, hleaf, complete_ok], hreader⟩

/-- DEC_SYM whose coming bits are a path to an internal node has consumed them all when it asks the source once more. -/
theorem exec_decSym_inner {c : List Bool} {bs : List Byte} {rest : List (Option SrcAnswer)} (hb : BuiltOk s.tree)
    (hr : s.tree.root = some r) (hd : descend s.tree.nodes r c = some n) (he : s.br.eos = false)
    (hs : s.src = dataAnswers bs ++ rest) (hbits : pendingBits s.br ++ bitsOf bs = c) :
    ∃ br, exec .decSym s = walkDown (510 - c.length + 1) n c.length (afterReads s br bs [] rest) ∧
      br.eos = false ∧ br.pos.val = 8 := by
  rw [← List.append_nil c] at hbits
  obtain ⟨br, read, left, hw, hre, rfl, hmore, -⟩ := exec_decSym_path hb hr hd he hs hbits
  have hlen := congrArg List.length hmore
  rw [List.length_append, pendingBits_length, bitsOf_length, List.length_nil] at hlen
  obtain rfl : left = [] := List.length_eq_zero_iff.1 (by omega)
  have hp := pos_le br.pos
  exact ⟨br, by rwa [List.append_nil], hre, by omega⟩

/-- What the source answers then decides: END ends DEC_SYM with EOS and the latch set, IOERR with SRC_IO (43_decode.md
R191, R194). -/
theorem exec_decSym_stops {c : List Bool} {bs : List Byte} {a : SrcAnswer} {rest : List (Option SrcAnswer)}
    (hb : BuiltOk s.tree) (hr : s.tree.root = some r) (hd : descend s.tree.nodes r c = some n)
    (hn : nodeAt s.tree.nodes n = some nd) (h0 : nd.child0 ≠ none) (he : s.br.eos = false)
    (hs : s.src = dataAnswers bs ++ some a :: rest) (hbits : pendingBits s.br ++ bitsOf bs = c) :
    ∃ br, br.eos = false ∧ br.pos.val = 8 ∧
      (a = .atEnd → exec .decSym s = .next (raise .eos (countResult c.length 0)
        (setBr (latched br) (record (.srcRead .atEnd) (afterReads s br bs [] rest))))) ∧
      (a = .ioErr → exec .decSym s = .next (raise .srcIo (countResult c.length 0)
        (record (.srcRead .ioErr) (afterReads s br bs [] rest)))) := by
  obtain ⟨c0, h0⟩ := Option.ne_none_iff_exists'.1 h0
  obtain ⟨br, hw, hre, hp⟩ := exec_decSym_inner hb hr hd he hs hbits
  have hn : nodeAt (afterReads s br bs [] (some a :: rest)).tree.nodes n = some nd := hn
  obtain ⟨hend, hio⟩ := readBitCore_exhausted (s := afterReads s br bs [] (some a :: rest)) hre hp rfl
  refine ⟨br, hre, hp, fun ha => ?_, fun ha => ?_⟩
  · obtain ⟨-, heos, -⟩ := walkDown_inner hn h0 (510 - c.length) c.length (hend ha)
    exact hw.trans (heos rfl)
  · obtain ⟨-, -, hsrcIo, -⟩ := walkDown_inner hn h0 (510 - c.length) c.length (hio ha)
    exact hw.trans (hsrcIo rfl)

/-- With the latch set DEC_SYM on an internal root ends with EOS before any bit (43_decode.md R194). -/
theorem exec_decSym_latched (he : s.br.eos = true) (hr : s.tree.root = some r) (hn : nodeAt s.tree.nodes r = some nd)
    (h0 : nd.child0 ≠ none) : exec .decSym s = .next (raise .eos (countResult 0 0) s) := by
  obtain ⟨c0, h0⟩ := Option.ne_none_iff_exists'.1 h0
  obtain ⟨-, heos, -⟩ := walkDown_inner hn h0 510 0 (readBitCore_latched s he)
  exact (exec_decSym_root hr).trans (heos rfl)

end

/-! ### The paths a bit sequence starts with -/

/-- From an entry that holds a node, bits enough for the internal entries up to it lead to a leaf (43_decode.md R197). -/
theorem BuiltOk.leaf_prefix_exists {t : Tree} (h : BuiltOk t) {n : NodeIx} {nd : Node} (hn : nodeAt t.nodes n = some nd)
    {bits : List Bool} (hlen : n.val ≤ bits.length + 255) :
    ∃ c, c <+: bits ∧ ∃ m, descend t.nodes n c = some m ∧ IsLeafAt t.nodes m := by
  induction bits generalizing n nd with
  | nil =>
    obtain ⟨-, -, -, -, h0, h1⟩ := h.leaf_of_lt hn (by rw [List.length_nil] at hlen; omega)
    exact ⟨[], List.nil_prefix, n, descend_nil hn, nd, hn, h0, h1⟩
  | cons v bits ih =>
    rw [List.length_cons] at hlen
    rcases Nat.lt_or_ge n.val 256 with hlt | hge
    · obtain ⟨-, -, -, -, h0, h1⟩ := h.leaf_of_lt hn hlt
      exact ⟨[], List.nil_prefix, n, descend_nil hn, nd, hn, h0, h1⟩
    · obtain ⟨a, -, -, -, ha, -⟩ := h.inner n nd hge hn
      obtain ⟨x, hx⟩ := h.child_exists hn (by simp [ha]) v
      obtain ⟨-, hlt, nx, hnx, -⟩ := h.child hn hx
      obtain ⟨c, hc, m, hm, hleaf⟩ := ih hnx (by omega)
      exact ⟨v :: c, (List.prefix_cons_inj v).2 hc, m, by rw [descend_cons hn, hx]; exact hm, hleaf⟩

/-- A path that goes on from one that ends at a leaf is that path. -/
theorem path_eq_of_leaf_prefix {nodes : Arena} {r n m : NodeIx} {c d : List Bool} (hcd : c <+: d)
    (hc : descend nodes r c = some n) (hleaf : IsLeafAt nodes n) (hd : descend nodes r d = some m) : d = c := by
  obtain ⟨e, rfl⟩ := hcd
  rw [descend_append, hc] at hd
  rw [descend_leaf hleaf hd, List.append_nil]

/-- Two paths to leaves along one bit sequence are the same path. -/
theorem leaf_prefix_unique {nodes : Arena} {r n m : NodeIx} {c d bits : List Bool} (hcb : c <+: bits) (hdb : d <+: bits)
    (hc : descend nodes r c = some n) (hn : IsLeafAt nodes n) (hd : descend nodes r d = some m) (hm : IsLeafAt nodes m) :
    d = c := by
  rcases List.prefix_or_prefix_of_prefix hcb hdb with h | h
  · exact path_eq_of_leaf_prefix h hc hn hd
  · exact (path_eq_of_leaf_prefix h hd hm hc).symm

/-! ### Encoding a byte sequence -/

/-- In this tree the symbol is present and has this code (42_encode.md R171). -/
def HasCode (t : Tree) (sym : Byte) (code : List Bool) : Prop :=
  ∃ n, t.leaf[(symIx sym).val]'(symIx sym).isLt = some n ∧ codeOf t.nodes n = .ok code

theorem BuiltOk.hasCode_length {t : Tree} (h : BuiltOk t) {sym : Byte} {code : List Bool} (hc : HasCode t sym code) :
    code.length ≤ 255 := by
  obtain ⟨n, hl, hcode⟩ := hc
  obtain ⟨-, nd, hn, -⟩ := h.leaf_node hl
  rcases h.codeOf hn with ⟨-, hsingle⟩ | ⟨-, r, c, -, hpath, hd, -⟩
  · cases hcode.symm.trans hsingle
    decide
  · cases hcode.symm.trans hpath
    exact h.path_length_le hd

/-- Present symbols have codes, one each. -/
theorem BuiltOk.codes_exist {t : Tree} (h : BuiltOk t) : ∀ {input : List Byte},
    (∀ b ∈ input, (t.leaf[(symIx b).val]'(symIx b).isLt).isSome = true) →
    ∃ codes, List.Forall₂ (HasCode t) input codes
  | [], _ => ⟨[], .nil⟩
  | b :: input, hp => by
    obtain ⟨hb, hp⟩ := List.forall_mem_cons.1 hp
    obtain ⟨n, hl⟩ := Option.isSome_iff_exists.1 hb
    obtain ⟨code, hc⟩ := h.codeOf_exists hl
    obtain ⟨codes, hcs⟩ := h.codes_exist hp
    exact ⟨code :: codes, .cons ⟨n, hl, hc⟩ hcs⟩

/-- Codes have 255 bits at most, so the codes of a sequence have 255 for each symbol at most. -/
theorem BuiltOk.codes_length {t : Tree} (h : BuiltOk t) {input : List Byte} {codes : List (List Bool)}
    (hc : List.Forall₂ (HasCode t) input codes) : codes.flatten.length ≤ 255 * input.length := by
  induction hc with
  | nil => exact Nat.le_refl _
  | cons hcode _ ih =>
    have := h.hasCode_length hcode
    rw [List.flatten_cons, List.length_append, List.length_cons]
    omega

section
variable {s t : State}

/-- A bit sequence that is accepted whole is so in two parts. -/
theorem writeMany_split : ∀ {vs ws : List Bool} {s : State}, writeMany (vs ++ ws) s = (.ok, t) →
    ∃ u, writeMany vs s = (.ok, u) ∧ writeMany ws u = (.ok, t)
  | [], _, s, h => ⟨s, rfl, h⟩
  | v :: vs, ws, s, h => by
    obtain ⟨x, hv, hrest⟩ := writeMany_cons (bits := vs ++ ws) h
    obtain ⟨u, hvs, hws⟩ := writeMany_split hrest
    exact ⟨u, by rw [writeMany, hv]; exact hvs, hws⟩

/-- Bit writes that are all accepted do not depend on the responses given before. -/
theorem writeMany_respond (rs : List Response) : ∀ {vs : List Bool} {s : State}, writeMany vs s = (.ok, t) →
    writeMany vs (respond rs s) = (.ok, respond rs t)
  | [], s, h => by cases h; rfl
  | v :: vs, s, h => by
    obtain ⟨u, hv, hvs⟩ := writeMany_cons h
    rw [writeMany, writeBitCore_respond rs hv]
    exact writeMany_respond rs hvs

/-- A run of ENC_SYMs writes the codes one after the other, and gives responses (42_encode.md R172; 30_encoding.md R90). -/
theorem execAll_encStr {input : List Byte} {codes : List (List Bool)} (hc : List.Forall₂ (HasCode s.tree) input codes)
    (h : writeMany codes.flatten s = (.ok, t)) : ∃ rs, execAll (encStr input) s = .next (respond rs t) := by
  induction input generalizing codes s t with
  | nil =>
    cases hc
    cases h
    exact ⟨[], by rw [respond_nil]; rfl⟩
  | cons sym input ih =>
    obtain ⟨code, codes, ⟨n, hl, hcode⟩, hcs, rfl⟩ := List.forall₂_cons_left_iff.1 hc
    obtain ⟨u, hu, ht⟩ := writeMany_split (ws := codes.flatten) h
    have hexec := (exec_encSym_present hl hcode).trans (writeCode_ok (sym := sym) hu)
    rw [← (writeMany_move hu).tree] at hcs
    obtain ⟨rs, hrun⟩ := ih (s := respond [⟨.ok, countResult code.length sym⟩] u) hcs (writeMany_respond _ ht)
    rw [respond_respond] at hrun
    exact ⟨_, (execAll_cons hexec).trans hrun⟩

/-- A flush whose put and sync the sink answers OK completes with OK (40_bit_io.md R113). -/
theorem exec_bwFlush_ok {rest : List (Option SnkAnswer)} (hs : s.snk = some .ok :: some .ok :: rest) :
    ∃ u n, exec .bwFlush s = .next u ∧ u.responses = s.responses ++ [⟨.ok, n⟩] := by
  by_cases hp : s.bw.pos.val = 0
  · exact ⟨_, _, exec_bwFlush_empty hp, rfl⟩
  · exact ⟨_, _, exec_bwFlush_sync_ok hp (snkPut_answered s _ hs) (snkSync_after_put hs), rfl⟩

/-- With a sink that answers OK often enough, ENC_SYM of every symbol of a sequence and BW_FLUSH put the codes one after
the other, padded with zeros (43_decode.md R195; 20_memory.md R54). -/
theorem execAll_encStr_flush {input : List Byte} {codes : List (List Bool)} {more : List (Option SnkAnswer)}
    (hb : BuiltOk s.tree) (hc : List.Forall₂ (HasCode s.tree) input codes) (hw : s.bw = Writer.empty)
    (hs : s.snk = okAnswers (32 * input.length + 2) ++ more) :
    ∃ u pad, execAll (encStr input ++ [.bwFlush]) s = .next u ∧ bitsOf (newSinkBytes s u) = codes.flatten ++ pad := by
  have hlen := hb.codes_length hc
  have hpos : s.bw.pos.val = 0 := by rw [hw]; rfl
  obtain ⟨t, ht⟩ := writeMany_accepts (vs := codes.flatten) hs (by omega)
  obtain ⟨rs, hrun⟩ := execAll_encStr hc ht
  obtain ⟨w, bs, rfl, hput, -⟩ := writeMany_ok (hw ▸ writerOk_empty) ht
  obtain ⟨m, hm⟩ : ∃ m, 32 * input.length + 2 = bs.length + (m + 2) := ⟨32 * input.length - bs.length, by omega⟩
  have hsnk : (respond rs (afterPuts s w bs)).snk = some .ok :: some .ok :: (okAnswers m ++ more) := by
    show s.snk.drop bs.length = _
    rw [hs, hm, okAnswers, List.replicate_add, List.append_assoc, List.drop_left' List.length_replicate]
    rfl
  obtain ⟨u, n, hflush, hresp⟩ := exec_bwFlush_ok hsnk
  obtain ⟨-, hbits, -⟩ := flushed_stream (s := respond rs s) hw (writeMany_respond rs ht) hflush hresp
  exact ⟨u, _, (execAll_append _ _ _ _ hrun).trans (execAll_cons hflush), hbits⟩

end

/-! ### Decoding a bit sequence -/

/-- In this tree the path from the root leads to the leaf of the symbol (43_decode.md R190). -/
def HasPath (t : Tree) (sym : Byte) (path : List Bool) : Prop :=
  ∃ r n, t.root = some r ∧ t.leaf[(symIx sym).val]'(symIx sym).isLt = some n ∧ descend t.nodes r path = some n

section
variable {t : Tree} {sym : Byte} {code : List Bool}

/-- With two leaves or more the path to a symbol is its code (42_encode.md R173). -/
theorem BuiltOk.hasPath_code (h : BuiltOk t) (hL : 2 ≤ leavesOf t) (hc : HasCode t sym code) : HasPath t sym code := by
  obtain ⟨n, hl, hcode⟩ := hc
  obtain ⟨-, nd, hn, -⟩ := h.leaf_node hl
  obtain ⟨r, -, hr, -⟩ := h.reached hn
  exact ⟨r, n, hr, hl, h.descend_codeOf hL hl hcode hr⟩

/-- With one leaf the path to its symbol is empty (43_decode.md R192). -/
theorem BuiltOk.hasPath_nil (h : BuiltOk t) (hL : leavesOf t ≤ 1) (hc : HasCode t sym code) : HasPath t sym [] := by
  obtain ⟨n, hl, -⟩ := hc
  obtain ⟨-, nd, hn, -⟩ := h.leaf_node hl
  exact ⟨n, n, (h.top n nd hn).1 (h.parent_eq_none hL hn), hl, descend_nil hn⟩

/-- Bits that begin with the codes of a sequence begin with its paths: the codes themselves, or nothing where the tree has
one leaf. -/
theorem BuiltOk.paths_of_codes (h : BuiltOk t) {input : List Byte} {codes : List (List Bool)}
    (hc : List.Forall₂ (HasCode t) input codes) (pad : List Bool) :
    ∃ paths more, List.Forall₂ (HasPath t) input paths ∧ codes.flatten ++ pad = paths.flatten ++ more := by
  rcases Nat.lt_or_ge 1 (leavesOf t) with hL | hL
  · exact ⟨codes, pad, hc.imp fun _ _ => h.hasPath_code hL, rfl⟩
  · refine ⟨codes.map fun _ => [], codes.flatten ++ pad, ?_, by simp⟩
    exact List.forall₂_map_right_iff.2 (hc.imp fun _ _ => h.hasPath_nil hL)

end

/-- A run of DEC_SYMs whose coming bits begin with the paths of a symbol sequence returns that sequence (43_decode.md
R195). -/
theorem execAll_decN {input : List Byte} {paths : List (List Bool)} {more : List Bool} {rest : List (Option SrcAnswer)}
    {s : State} {bs : List Byte} (hb : BuiltOk s.tree) (hp : List.Forall₂ (HasPath s.tree) input paths)
    (he : s.br.eos = false) (hs : s.src = dataAnswers bs ++ rest)
    (hbits : pendingBits s.br ++ bitsOf bs = paths.flatten ++ more) :
    ∃ t rs, execAll (decN input.length) s = .next t ∧ t.responses = s.responses ++ rs ∧
      rs.map (fun r => (r.cc, r.res.setWidth 8)) = input.map fun b => (.ok, b) := by
  induction input generalizing paths s bs with
  | nil => exact ⟨s, [], rfl, (List.append_nil _).symm, rfl⟩
  | cons sym input ih =>
    obtain ⟨path, paths, ⟨r, n, hr, hl, hd⟩, hps, rfl⟩ := List.forall₂_cons_left_iff.1 hp
    obtain ⟨-, nd, hn, rfl, h0, -⟩ := hb.leaf_node hl
    rw [List.flatten_cons, List.append_assoc] at hbits
    obtain ⟨br, read, left, hexec, hre, -, hmore, -⟩ := exec_decSym_leaf hb hr hd hn h0 he hs hbits
    obtain ⟨t, rs, hrun, hresp, hsyms⟩ :=
      ih (s := respond [⟨.ok, countResult path.length nd.symbol⟩] (afterReads s br read left rest)) hb hps hre rfl hmore
    refine ⟨t, ⟨.ok, countResult path.length nd.symbol⟩ :: rs, (execAll_cons hexec).trans hrun, ?_, ?_⟩
    · rw [hresp, respond, List.append_assoc]
      rfl
    · rw [List.map_cons, List.map_cons, hsyms, setWidth_countResult]

/-! ### The obligations -/

/-- Settles O49: the flushed bytes hold the codes and padding, and DEC_SYMs walk the codes' paths along them. -/
theorem decodingTheEncodedBytesGivesThemBack : Obligations.DecodingTheEncodedBytesGivesThemBack := by
  intro e d input more rest hie _ hbuilt htree hpresent hbw hsnk hbr
  have hok := hie.tree.builtOk hbuilt
  obtain ⟨codes, hcodes⟩ := hok.codes_exist hpresent
  obtain ⟨e', pad, hrun, hbits⟩ := execAll_encStr_flush hok hcodes hbw hsnk
  refine ⟨e', hrun, fun hsrc => ?_⟩
  obtain ⟨paths, left, hpaths, hflat⟩ := hok.paths_of_codes hcodes pad
  rw [← htree] at hok hpaths
  have hpending : pendingBits d.br = [] := pendingBits_exhausted (by rw [hbr]; rfl)
  obtain ⟨d', rs, hdec, hresp, hsyms⟩ := execAll_decN hok hpaths (by rw [hbr]) hsrc
    (by rw [hpending, List.nil_append, hbits, hflat])
  exact ⟨d', hdec, by rw [newResponses, hresp, List.drop_left, hsyms]⟩

/-- Settles O46: the code is the path to the symbol's leaf. -/
theorem decSymReturnsTheSymbolOfTheCode : Obligations.DecSymReturnsTheSymbolOfTheCode := by
  intro s sym n c more bs rest hi hL hl hc he hs hbits
  have hok := hi.built_of_leaf hl
  obtain ⟨hpos, hmax⟩ := hi.code_length hl hc
  obtain ⟨-, nd, hn, rfl, h0, -⟩ := hok.leaf_node hl
  obtain ⟨r, -, hr, -⟩ := hok.reached hn
  have hd := hok.descend_codeOf hL hl hc hr
  obtain ⟨br, read, left, hexec, hre, hbs, hmore, hcount, h1⟩ := exec_decSym_leaf hok hr hd hn h0 he hs hbits
  have h1 := h1 (.inl (List.length_pos_iff.1 hpos))
  have h8 := pos_le br.pos
  rw [countResult_eq _ _ hmax] at hexec
  refine ⟨_, read, left, hexec, rfl, hbs, by omega, ?_, h1, hre, hmore⟩
  show br.pos.val = _
  omega

/-- Settles O47: at the internal node the bits have led to, the source's answer to the refill decides. -/
theorem decSymStopsInsideACode : Obligations.DecSymStopsInsideACode := by
  refine ⟨fun s r p nd c bs rest hi hr he hbits hd hn h0 => ?_, fun _ _ _ he hr hn h0 => exec_decSym_latched he hr hn h0⟩
  have hok := hi.built_of_root hr
  have hres : countResult c.length 0 = BitVec.ofNat 32 (256 * c.length) := countResult_eq _ 0 (hok.path_length_le hd)
  refine ⟨fun hs => ?_, fun hs => ?_⟩
  · obtain ⟨br, -, hp, hend, -⟩ := exec_decSym_stops hok hr hd hn h0 he hs hbits
    exact ⟨_, hend rfl, rfl, Fin.ext hp, by rw [hres]; rfl⟩
  · obtain ⟨br, hre, hp, -, hio⟩ := exec_decSym_stops hok hr hd hn h0 he hs hbits
    exact ⟨_, hio rfl, hre, Fin.ext hp, by rw [hres]; rfl⟩

/-- Settles O48: the bits lead to a leaf before they run out, and no path goes on from a leaf. -/
theorem everyBitSequenceStartsWithOneCode : Obligations.EveryBitSequenceStartsWithOneCode := by
  intro s r bits hi hr hlen
  have hok := hi.built_of_root hr
  obtain ⟨nd, hn⟩ := Option.isSome_iff_exists.1 (hok.root_present r hr)
  obtain ⟨c, hcb, n, hc, hleaf⟩ := hok.leaf_prefix_exists hn (bits := bits) (by omega)
  exact ⟨c, ⟨hcb, n, hc, hleaf⟩, fun d ⟨hdb, m, hd, hm⟩ => leaf_prefix_unique hcb hdb hc hleaf hd hm⟩

/-- Settles O45: with no root DEC_SYM raises, and at a leaf it completes before any read. -/
theorem decSymReadsNoBitWithoutAnInnerRoot : Obligations.DecSymReadsNoBitWithoutAnInnerRoot := by
  refine fun s => ⟨fun hr => exec_decSym_noRoot hr, fun r nd hr hn h0 => ?_⟩
  rw [exec_decSym_root hr, walkDown_leaf hn h0, complete_ok, countResult_zero]
  rfl

end Sys2Proof.Machine
end

section
/-! SUPPORT. The status commands (44_status.md): the fields of STATUS, and the whole next state of ST_RD and ST_CLR. -/

namespace Sys2Proof.Machine

/-! ### The fields of STATUS (10_state.md R36) -/

section
variable (s : State)

/-- Bits 0 to 3: BUILT, ROOT_PRESENT, BR_EOS and a reserved zero. -/
theorem statusWord_flags : (statusWord s).getLsbD 0 = s.tree.built ∧ (statusWord s).getLsbD 1 = s.tree.root.isSome ∧
    (statusWord s).getLsbD 2 = s.br.eos ∧ (statusWord s).getLsbD 3 = false := by
  refine ⟨?_, ?_, ?_, ?_⟩ <;> (rw [getLsbD_statusWord]; simp)

/-- A field at bit 4 or above lies in STATUS without its flags. -/
theorem extractLsb'_statusWord_above_flags {start len : Nat} (h : 4 ≤ start) :
    (statusWord s).extractLsb' start len = ((0 : BitVec 7) ++ s.sticky ++ (0 : BitVec 5) ++ posField s.bw.pos ++
      posField s.br.pos).extractLsb' (start - 1 - 1 - 1 - 1) len := by
  rw [statusWord]
  iterate 4 rw [BitVec.extractLsb'_append_eq_of_le (by omega)]

theorem statusWord_brPos : (statusWord s).extractLsb' 4 4 = posField s.br.pos := by
  rw [extractLsb'_statusWord_above_flags s (by decide)]
  exact BitVec.extractLsb'_append_eq_right

/-- A field at bit 8 or above lies in STATUS without its flags and BR_POS. -/
theorem extractLsb'_statusWord_above_brPos {start len : Nat} (h : 8 ≤ start) :
    (statusWord s).extractLsb' start len =
      ((0 : BitVec 7) ++ s.sticky ++ (0 : BitVec 5) ++ posField s.bw.pos).extractLsb' (start - 1 - 1 - 1 - 1 - 4) len := by
  rw [extractLsb'_statusWord_above_flags s (by omega), BitVec.extractLsb'_append_eq_of_le (by omega)]

theorem statusWord_bwPos : (statusWord s).extractLsb' 8 4 = posField s.bw.pos := by
  rw [extractLsb'_statusWord_above_brPos s (by decide)]
  exact BitVec.extractLsb'_append_eq_right

theorem statusWord_bits12To16 : (statusWord s).extractLsb' 12 5 = 0 := by
  rw [extractLsb'_statusWord_above_brPos s (by decide), BitVec.extractLsb'_append_eq_of_le (by decide)]
  exact BitVec.extractLsb'_append_eq_right

theorem statusWord_sticky : (statusWord s).extractLsb' 17 8 = s.sticky := by
  rw [extractLsb'_statusWord_above_brPos s (by decide)]
  iterate 2 rw [BitVec.extractLsb'_append_eq_of_le (by decide)]
  exact BitVec.extractLsb'_append_eq_right

theorem statusWord_bits25To31 : (statusWord s).extractLsb' 25 7 = 0 := by
  rw [extractLsb'_statusWord_above_brPos s (by decide)]
  iterate 2 rw [BitVec.extractLsb'_append_eq_of_le (by decide)]
  exact BitVec.extractLsb'_append_eq_left

/-- `STICKY[c]` stands at bit 16 + c. -/
theorem statusWord_stickyBit {c : Nat} (h1 : 1 ≤ c) (h8 : c ≤ 8) : (statusWord s).getLsbD (16 + c) = stickyBit s c := by
  have hlt : c - 1 < 8 := by omega
  have hbit : 17 + (c - 1) = 16 + c := by omega
  rw [stickyBit, ← statusWord_sticky, BitVec.getLsbD_extractLsb', hbit, decide_eq_true hlt, Bool.true_and]

end

/-- A position fits its 4-bit field. -/
@[simp] theorem posField_toNat (p : Pos) : (posField p).toNat = p.val :=
  (BitVec.toNat_ofNat _ _).trans (Nat.mod_eq_of_lt (by have := pos_le p; omega))

/-! ### The commands -/

theorem exec_stRd (s : State) : exec .stRd s = .next (respond [⟨.ok, statusWord s⟩] s) := by
  rw [exec, execStRd, complete_ok]

theorem exec_stClr (s : State) : exec .stClr s = .next (respond [⟨.ok, 0⟩] (setSticky 0 s)) := by
  rw [exec, execStClr, complete_ok]

/-- Settles O51: the word is `statusWord s`, whose fields are those of R36. -/
theorem stRdReturnsStatus : Obligations.StRdReturnsStatus := by
  intro s
  obtain ⟨hbuilt, hroot, heos, hbit3⟩ := statusWord_flags s
  have hbr : ((statusWord s).extractLsb' 4 4).toNat = s.br.pos.val := by rw [statusWord_brPos, posField_toNat]
  have hbw : ((statusWord s).extractLsb' 8 4).toNat = s.bw.pos.val := by rw [statusWord_bwPos, posField_toNat]
  exact ⟨statusWord s, exec_stRd s, hbuilt, hroot, heos, hbit3, hbr, hbw, statusWord_bits12To16 s,
    fun _ => statusWord_stickyBit s, statusWord_bits25To31 s⟩

/-- Settles O52: OK sets no sticky bit after the clear. -/
theorem stClrEffect : Obligations.StClrEffect := exec_stClr

end Sys2Proof.Machine
end

section
/-! SUPPORT. Waiting, stopping and completing (60_exceptions.md): when a step keeps the state, that no command stops under
the invariant, what a command leaves when its transaction is never answered, and how every command ends: with one
response that has a cause, or waiting. -/

namespace Sys2Proof.Machine

/-! ### A block that waits or idles (60_exceptions.md R233, R238) -/

section
variable {s t u : State}

theorem nextActivity_of_waiting (hr : s.host.head? ≠ some .reset) (hw : s.waiting ≠ none) : nextActivity s = .waits := by
  obtain ⟨p, hp⟩ := Option.ne_none_iff_exists'.1 hw
  rw [nextActivity, hp]
  rcases hh : s.host.head? with _ | _ | _ | _
  case some.reset => exact absurd hh hr
  all_goals rfl

theorem nextActivity_of_noInput (hh : s.host = []) (hw : s.waiting = none) : nextActivity s = .idles := by
  rw [nextActivity, hh, hw]
  rfl

/-! ### No command stops under the invariant (60_exceptions.md R232; 10_state.md R42) -/

theorem execBrReadbit_next (s : State) : ∃ t, execBrReadbit s = .next t := by
  rw [execBrReadbit]
  rcases readBitCore s with ⟨_ | _ | _ | _, u⟩ <;> exact ⟨_, rfl⟩

theorem execBwWritebit_next (data : Word) (s : State) : ∃ t, execBwWritebit data s = .next t := by
  rw [execBwWritebit]
  rcases writeBitCore (dataBit data) s with ⟨_ | _ | _, u⟩ <;> exact ⟨_, rfl⟩

theorem execBwFlush_next (s : State) : ∃ t, execBwFlush s = .next t := by
  rcases execBwFlush_cases s with ⟨-, h⟩ | ⟨-, u, ⟨-, h⟩ | ⟨-, h⟩ | ⟨-, v, ⟨-, h⟩ | ⟨-, h⟩ | ⟨-, h⟩⟩⟩ <;> exact ⟨_, h⟩

theorem execTreeBuild_next (s : State) : ∃ t, execTreeBuild s = .next t := by
  rw [execTreeBuild]
  split
  · exact ⟨_, rfl⟩
  · cases firstNegative s.freq <;> exact ⟨_, rfl⟩

/-- A present symbol's walk up finds its code, and writing a code never stops. -/
theorem exec_encSym_next (hi : BlockInv s) (sym : Byte) : ∃ t, exec (.encSym sym) s = .next t := by
  cases hl : leafAt sym s with
  | none => exact ⟨_, exec_encSym_absent hl⟩
  | some n =>
    obtain ⟨c, hc⟩ := (hi.built_of_leaf hl).codeOf_exists hl
    rw [exec_encSym_present hl hc]
    exact writeCode_next sym c 0 s

/-- The walk down from the root of a built tree ends before its bound. -/
theorem exec_decSym_next (hi : BlockInv s) : ∃ t, exec .decSym s = .next t := by
  cases hr : s.tree.root with
  | none => exact ⟨_, exec_decSym_noRoot hr⟩
  | some r =>
    have hb := hi.built_of_root hr
    rw [exec_decSym_root hr]
    exact hb.walkDown_next Config.nodeMax r 0 s r.isLt (hb.root_present r hr)

theorem exec_next (hi : BlockInv s) (i : Instr) : ∃ t, exec i s = .next t := by
  cases i with
  | brReadbit => exact execBrReadbit_next s
  | bwWritebit data => exact execBwWritebit_next data s
  | bwFlush => exact execBwFlush_next s
  | treeBuild => exact execTreeBuild_next s
  | encSym sym => exact exec_encSym_next hi sym
  | decSym => exact exec_decSym_next hi
  | brReset | bwReset | freqWr | freqRd | treeClear | stRd | stClr => exact ⟨_, rfl⟩

theorem runWord_next (hi : BlockInv s) (w : CmdWord) : ∃ t, runWord w s = .next t := by
  rw [runWord]
  cases decode w with
  | error _ => exact ⟨_, rfl⟩
  | ok i => exact exec_next hi i

/-! ### Transactions that are never answered (60_exceptions.md R233) -/

theorem exec_brReadbit_waits (h : readBitCore s = (.waits, t)) : exec .brReadbit s = .next t := by
  rw [exec, execBrReadbit, h]

theorem exec_bwWritebit_waits {data : Word} (h : writeBitCore (dataBit data) s = (.waits, t)) :
    exec (.bwWritebit data) s = .next t := by
  rw [exec, execBwWritebit, h]

theorem exec_bwFlush_put_waits (hp : s.bw.pos.val ≠ 0) (h : snkPut s.bw.byte s = (none, t)) :
    exec .bwFlush s = .next t := by
  rw [exec, execBwFlush, if_neg hp, h]

theorem exec_bwFlush_sync_waits (hp : s.bw.pos.val ≠ 0) (h : snkPut s.bw.byte s = (some .ok, t))
    (hy : snkSync (setBw Writer.empty t) = (none, u)) : exec .bwFlush s = .next u := by
  simp only [exec, execBwFlush, if_neg hp, h, hy]

/-- A code whose bit number `k` meets a put that is not answered waits there. -/
theorem writeCode_waits {sym : Byte} {code : List Bool} {k : Nat} (hk : k < code.length)
    (h : writeMany (code.take k) s = (.ok, t)) (hv : writeBitCore code[k] t = (.waits, u)) :
    writeCode sym code 0 s = .next u := by
  have happ := writeCode_append (sym := sym) (d := code.drop k) (k := 0) h
  rw [List.take_append_drop, List.drop_eq_getElem_cons hk] at happ
  rw [happ, writeCode, hv]

/-- The bits of a code that are accepted by a sink that takes `j` puts, where the code needs more: they fill the cache, so
that the next bit asks for put number `j + 1`. -/
theorem writeMany_fills {code : List Bool} {j : Nat} {answers : List (Option SnkAnswer)} (hw : WriterOk s.bw)
    (hj : j < (s.bw.pos.val + code.length + 7) / 8 - 1) (hs : s.snk = okAnswers j ++ answers) :
    ∃ (k : Nat) (w : Writer) (bs : List Byte), k + s.bw.pos.val = 8 * (j + 1) ∧ k < code.length ∧ bs.length = j ∧
      writeMany (code.take k) s = (.ok, afterPuts s w bs) ∧ (afterPuts s w bs).snk = answers ∧ w.pos.val = 8 ∧
      bitsOf bs ++ cachedBits w = cachedBits s.bw ++ code.take k := by
  have hp := pos_le s.bw.pos
  obtain ⟨k, hkp⟩ : ∃ k, k + s.bw.pos.val = 8 * (j + 1) := ⟨8 * (j + 1) - s.bw.pos.val, by omega⟩
  have hk : k < code.length := by omega
  have htake : (code.take k).length = k := List.length_take_of_le hk.le
  obtain ⟨w, bs, hm, hsnk, hlen, hwpos, hbits⟩ := writeMany_okAnswers hw hs (code := code.take k) (by omega) (by omega)
  exact ⟨k, w, bs, hkp, hk, hlen, hm, hsnk, by omega, hbits⟩

/-- DEC_SYM whose coming bits are a path to an internal node waits where the source does not answer after them. -/
theorem exec_decSym_waits {r p : NodeIx} {nd : Node} {c : List Bool} {bs : List Byte}
    {answers rest : List (Option SrcAnswer)} (hb : BuiltOk s.tree) (hr : s.tree.root = some r)
    (hd : descend s.tree.nodes r c = some p) (hn : nodeAt s.tree.nodes p = some nd) (h0 : nd.child0 ≠ none)
    (he : s.br.eos = false) (hs : s.src = dataAnswers bs ++ answers) (hbits : pendingBits s.br ++ bitsOf bs = c)
    (hu : Unanswered answers rest) :
    ∃ br, br.eos = false ∧ br.pos.val = 8 ∧ exec .decSym s = .next { s with
      br := br
      src := rest
      trace := s.trace ++ bs.map fun b => .srcRead (.data b)
      waiting := some .srcRead } := by
  obtain ⟨c0, h0⟩ := Option.ne_none_iff_exists'.1 h0
  obtain ⟨br, hw, hre, hp⟩ := exec_decSym_inner hb hr hd he hs hbits
  have hread := readBitCore_unanswered (s := afterReads s br bs [] answers) hre hp hu
  obtain ⟨-, -, -, hwait⟩ := walkDown_inner (s := afterReads s br bs [] answers) hn h0 (510 - c.length) c.length hread
  exact ⟨br, hre, hp, hw.trans (hwait rfl)⟩

end

/-! ### The sticky bit of a response (60_exceptions.md R224) -/

theorem ccCode_range {cc : CC} (h : cc ≠ .ok) : 1 ≤ (ccCode cc).toNat ∧ (ccCode cc).toNat ≤ 8 := by
  cases cc with
  | ok => exact absurd rfl h
  | _ => decide

theorem stickyMask_error {cc : CC} (h : cc ≠ .ok) : stickyMask cc = BitVec.twoPow 8 ((ccCode cc).toNat - 1) := by
  cases cc with
  | ok => exact absurd rfl h
  | _ => rfl

/-- The mask of a code has that code's bit and no other. -/
theorem getLsbD_stickyMask (cc : CC) {c : Nat} (h1 : 1 ≤ c) :
    (stickyMask cc).getLsbD (c - 1) = decide ((ccCode cc).toNat = c) := by
  by_cases h : cc = .ok
  · subst h
    show (0 : BitVec 8).getLsbD (c - 1) = decide (0 = c)
    rw [BitVec.ofNat_eq_ofNat, BitVec.getLsbD_zero, decide_eq_false (by omega)]
  · obtain ⟨hlo, hhi⟩ := ccCode_range h
    rw [stickyMask_error h, BitVec.getLsbD_twoPow, decide_eq_true (by omega : (ccCode cc).toNat - 1 < 8), Bool.true_and,
      decide_eq_decide]
    omega

/-- A response sets the bit of its code and leaves the others. -/
theorem stickyBit_complete (cc : CC) (res : Word) (s : State) {c : Nat} (h1 : 1 ≤ c) :
    stickyBit (complete cc res s) c = (stickyBit s c || decide ((ccCode cc).toNat = c)) := by
  rw [stickyBit, complete_sticky, stickyAfter, BitVec.getLsbD_or, getLsbD_stickyMask cc h1, stickyBit]

/-! ### How a command ends (60_exceptions.md R220, R221, R233) -/

/-- No response was given, no sticky bit set, and nothing was left outstanding that was not before. -/
structure Silent (s t : State) : Prop where
  responses : t.responses = s.responses
  sticky    : t.sticky = s.sticky
  waiting   : t.waiting = s.waiting

/-- No response was given, no sticky bit set, and a transaction is outstanding. -/
structure Hangs (s t : State) : Prop where
  responses : t.responses = s.responses
  sticky    : t.sticky = s.sticky
  waiting   : t.waiting ≠ none

/-- The commands that read bits. -/
def ReadsBits (i : Instr) : Prop := i = .brReadbit ∨ i = .decSym

/-- The commands that put bytes. -/
def PutsBytes (i : Instr) : Prop := i = .bwFlush ∨ (∃ data, i = .bwWritebit data) ∨ ∃ sym, i = .encSym sym

/-- The cause the spec lists for each completion code of command `i`, which began in `s` and ended in `t`
(60_exceptions.md R221, R222, R227). -/
def HasCause (i : Instr) (s t : State) (r : Response) : Prop :=
  match r.cc with
  | .ok => True
  | .eos => ReadsBits i ∧ t.br.eos = true
  | .emptyTree => i = .decSym ∧ s.tree.root = none ∧ r.res = 0
  | .absentSym => ∃ sym, i = .encSym sym ∧ leafAt sym s = none ∧ r.res = sym.setWidth 32
  | .srcIo => ReadsBits i ∧ t.trace.getLast? = some (.srcRead .ioErr)
  | .sinkIo => PutsBytes i ∧
      ((∃ b, t.trace.getLast? = some (.snkPut b .ioErr)) ∨ i = .bwFlush ∧ t.trace.getLast? = some (.snkSync .ioErr))
  | .rebuild => i = .treeBuild ∧ s.tree.built = true ∧ r.res = 0
  | .badFreq => i = .treeBuild ∧ s.tree.built = false ∧ ∃ sym, (freqAt sym s).getLsbD 31 = true
  | .illegalCmd => False

/-- A command other than ST_CLR ends with one response, last of all and for a cause, or it waits. -/
inductive ExecEnd (i : Instr) (s t : State) : Prop
  | completes (r : Response) (u : State) (ht : t = complete r.cc r.res u) (hu : Silent s u) (hc : HasCause i s t r)
  | waits (hw : Hangs s t)

section
variable {i : Instr} {s t u : State}

theorem Silent.refl (s : State) : Silent s s := ⟨rfl, rfl, rfl⟩

theorem Silent.trans (h : Silent s t) (h' : Silent t u) : Silent s u :=
  ⟨h'.responses.trans h.responses, h'.sticky.trans h.sticky, h'.waiting.trans h.waiting⟩

theorem Silent.trans_hangs (h : Silent s t) (h' : Hangs t u) : Hangs s u :=
  ⟨h'.responses.trans h.responses, h'.sticky.trans h.sticky, h'.waiting⟩

/-- A command that answers OK needs no cause. -/
theorem Silent.ok (h : Silent s u) (res : Word) : ExecEnd i s (complete .ok res u) :=
  .completes ⟨.ok, res⟩ u rfl h trivial

theorem readBitCore_silent {r : ReadResult} (h : readBitCore s = (r, t)) (hr : r ≠ .waits) : Silent s t := by
  obtain ⟨_, _, w, _, rfl, hw, -⟩ := readBitCore_all h
  exact ⟨rfl, rfl, hw hr⟩

theorem readBitCore_hangs (h : readBitCore s = (.waits, t)) : Hangs s t := by
  obtain ⟨_, _, w, _, rfl, -, hw, -⟩ := readBitCore_all h
  exact ⟨rfl, rfl, hw rfl⟩

theorem readBitCore_srcIo_trace (h : readBitCore s = (.srcIo, t)) : t.trace = s.trace ++ [.srcRead .ioErr] := by
  rcases readBitCore_cases s with ⟨-, hr⟩ | ⟨-, -, hr⟩ | ⟨-, -, ⟨b, rest, -, hr⟩ | ⟨rest, -, hr⟩ | ⟨rest, -, hr⟩ |
    ⟨rest, -, hr⟩ | ⟨-, hr⟩⟩ <;> cases hr.symm.trans h
  rfl

theorem writeBitCore_silent {v : Bool} {r : WriteResult} (h : writeBitCore v s = (r, t)) (hr : r ≠ .waits) :
    Silent s t := by
  obtain ⟨_, _, w, _, rfl, hw, -⟩ := writeBitCore_all h
  exact ⟨rfl, rfl, hw hr⟩

theorem writeBitCore_hangs {v : Bool} (h : writeBitCore v s = (.waits, t)) : Hangs s t := by
  obtain ⟨_, _, w, _, rfl, -, hw, -⟩ := writeBitCore_all h
  exact ⟨rfl, rfl, hw rfl⟩

theorem writeBitCore_sinkIo_trace {v : Bool} (h : writeBitCore v s = (.sinkIo, t)) :
    t.trace = s.trace ++ [.snkPut s.bw.byte .ioErr] := by
  rcases writeBitCore_cases s v with ⟨-, hr⟩ | ⟨-, ⟨rest, -, hr⟩ | ⟨rest, -, hr⟩ | ⟨rest, -, hr⟩ | ⟨-, hr⟩⟩ <;>
    cases hr.symm.trans h
  rfl

theorem readMany_silent {c : List Bool} (h : readMany c.length s = (c.map .bit, t)) : Silent s t := by
  obtain ⟨_, _, rfl, -⟩ := readMany_frame h
  exact ⟨rfl, rfl, rfl⟩

theorem writeMany_silent {vs : List Bool} (h : writeMany vs s = (.ok, t)) : Silent s t := by
  obtain ⟨_, _, rfl⟩ := writeMany_frame h
  exact ⟨rfl, rfl, rfl⟩

/-- A put that is answered is the last recorded transaction, and gives no response itself. -/
theorem snkPut_silent {b : Byte} {a : SnkAnswer} (h : snkPut b s = (some a, t)) :
    Silent s t ∧ t.trace = s.trace ++ [.snkPut b a] := by
  rcases snkPut_cases s b with ⟨_, _, -, hp⟩ | ⟨_, -, hp⟩ | ⟨-, hp⟩ <;> cases hp.symm.trans h
  exact ⟨⟨rfl, rfl, rfl⟩, rfl⟩

theorem snkPut_hangs {b : Byte} (h : snkPut b s = (none, t)) : Hangs s t := by
  rcases snkPut_cases s b with ⟨_, _, -, hp⟩ | ⟨_, -, hp⟩ | ⟨-, hp⟩ <;> cases hp.symm.trans h <;>
    exact ⟨rfl, rfl, Option.some_ne_none _⟩

/-- A sync that is answered is the last recorded transaction, and gives no response itself. -/
theorem snkSync_silent {a : SnkAnswer} (h : snkSync s = (some a, t)) :
    Silent s t ∧ t.trace = s.trace ++ [.snkSync a] := by
  rcases snkSync_cases s with ⟨_, _, -, hp⟩ | ⟨_, -, hp⟩ | ⟨-, hp⟩ <;> cases hp.symm.trans h
  exact ⟨⟨rfl, rfl, rfl⟩, rfl⟩

theorem snkSync_hangs (h : snkSync s = (none, t)) : Hangs s t := by
  rcases snkSync_cases s with ⟨_, _, -, hp⟩ | ⟨_, -, hp⟩ | ⟨-, hp⟩ <;> cases hp.symm.trans h <;>
    exact ⟨rfl, rfl, Option.some_ne_none _⟩

/-- A bit read that ends the command with EOS: the latch is set. -/
theorem Silent.eos (hs : Silent s t) (hi : ReadsBits i) (h : readBitCore t = (.eos, u)) (res : Word) :
    ExecEnd i s (raise .eos res u) :=
  .completes ⟨.eos, res⟩ u rfl (hs.trans (readBitCore_silent h nofun)) ⟨hi, (readBitCore_eos_latched h : u.br.eos = true)⟩

/-- A bit read that ends the command with SRC_IO: the read of the source is the last transaction. -/
theorem Silent.srcIo (hs : Silent s t) (hi : ReadsBits i) (h : readBitCore t = (.srcIo, u)) (res : Word) :
    ExecEnd i s (raise .srcIo res u) :=
  .completes ⟨.srcIo, res⟩ u rfl (hs.trans (readBitCore_silent h nofun))
    ⟨hi, by rw [raise_trace, readBitCore_srcIo_trace h, List.getLast?_concat]⟩

/-- A bit write that ends the command with SINK_IO: the put is the last transaction. -/
theorem Silent.sinkIo (hs : Silent s t) (hi : PutsBytes i) {v : Bool} (h : writeBitCore v t = (.sinkIo, u)) (res : Word) :
    ExecEnd i s (raise .sinkIo res u) :=
  .completes ⟨.sinkIo, res⟩ u rfl (hs.trans (writeBitCore_silent h nofun))
    ⟨hi, .inl ⟨_, by rw [raise_trace, writeBitCore_sinkIo_trace h, List.getLast?_concat]⟩⟩

theorem execBrReadbit_end (h : execBrReadbit s = .next t) : ExecEnd .brReadbit s t := by
  rw [execBrReadbit] at h
  have hs := Silent.refl s
  rcases hr : readBitCore s with ⟨_ | _ | _ | _, u⟩ <;> rw [hr] at h <;> cases h
  · exact (readBitCore_silent hr nofun).ok _
  · exact hs.eos (.inl rfl) hr _
  · exact hs.srcIo (.inl rfl) hr _
  · exact .waits (readBitCore_hangs hr)

theorem walkDown_end {fuel k : Nat} {n : NodeIx} (h : walkDown fuel n k s = .next t) : ExecEnd .decSym s t := by
  obtain ⟨c, u, hm, hend⟩ := walkDown_shape h
  have hu := readMany_silent hm
  rcases hend with ⟨sym, rfl⟩ | ⟨v, hv, rfl⟩ | ⟨v, hv, rfl⟩ | hv
  · exact hu.ok _
  · exact hu.eos (.inr rfl) hv _
  · exact hu.srcIo (.inr rfl) hv _
  · exact .waits (hu.trans_hangs (readBitCore_hangs hv))

theorem execDecSym_end (h : execDecSym s = .next t) : ExecEnd .decSym s t := by
  rw [execDecSym] at h
  cases hr : s.tree.root with rw [hr] at h
  | none => cases h; exact .completes ⟨.emptyTree, 0⟩ s rfl (.refl s) ⟨rfl, hr, rfl⟩
  | some r => exact walkDown_end h

theorem execBwWritebit_end {data : Word} (h : execBwWritebit data s = .next t) : ExecEnd (.bwWritebit data) s t := by
  rw [execBwWritebit] at h
  rcases hw : writeBitCore (dataBit data) s with ⟨_ | _ | _, u⟩ <;> rw [hw] at h <;> cases h
  · exact (writeBitCore_silent hw nofun).ok _
  · exact (Silent.refl s).sinkIo (.inr (.inl ⟨data, rfl⟩)) hw _
  · exact .waits (writeBitCore_hangs hw)

theorem writeCode_end {sym : Byte} {c : List Bool} {k : Nat} (h : writeCode sym c k s = .next t) :
    ExecEnd (.encSym sym) s t := by
  obtain ⟨c1, c2, u, -, hm, hend⟩ := writeCode_shape h
  have hu := writeMany_silent hm
  rcases hend with ⟨-, rfl⟩ | ⟨v, c3, w, -, hw, rfl⟩ | ⟨v, c3, -, hw⟩
  · exact hu.ok _
  · exact hu.sinkIo (.inr (.inr ⟨sym, rfl⟩)) hw _
  · exact .waits (hu.trans_hangs (writeBitCore_hangs hw))

theorem execEncSym_end {sym : Byte} (h : execEncSym sym s = .next t) : ExecEnd (.encSym sym) s t := by
  rw [execEncSym] at h
  cases hl : leafAt sym s with simp only [hl] at h
  | none => cases h; exact .completes ⟨.absentSym, symResult sym⟩ s rfl (.refl s) ⟨sym, rfl, hl, rfl⟩
  | some n =>
    cases hc : codeOf s.tree.nodes n with rw [hc] at h
    | error e => cases h
    | ok c => exact writeCode_end h

/-- BW_FLUSH ends with SINK_IO at its put or at its sync, whichever answered IOERR (40_bit_io.md R113). -/
theorem execBwFlush_end (h : execBwFlush s = .next t) : ExecEnd .bwFlush s t := by
  rcases execBwFlush_cases s with ⟨-, hf⟩ | ⟨-, x, ⟨hp, hf⟩ | ⟨hp, hf⟩ | ⟨hp, v, hy⟩⟩
  · cases hf.symm.trans h
    exact (Silent.refl s).ok _
  · cases hf.symm.trans h
    exact .waits (snkPut_hangs hp)
  · cases hf.symm.trans h
    obtain ⟨hx, htrace⟩ := snkPut_silent hp
    exact .completes ⟨.sinkIo, 0⟩ x rfl hx ⟨.inl rfl, .inl ⟨_, by rw [raise_trace, htrace, List.getLast?_concat]⟩⟩
  · have hx : Silent s (setBw Writer.empty x) := (snkPut_silent hp).1.trans ⟨rfl, rfl, rfl⟩
    rcases hy with ⟨hy, hf⟩ | ⟨hy, hf⟩ | ⟨hy, hf⟩ <;> cases hf.symm.trans h
    · exact .waits (hx.trans_hangs (snkSync_hangs hy))
    · obtain ⟨hv, htrace⟩ := snkSync_silent hy
      exact .completes ⟨.sinkIo, 1⟩ v rfl (hx.trans hv)
        ⟨.inl rfl, .inr ⟨rfl, by rw [raise_trace, htrace, List.getLast?_concat]⟩⟩
    · exact (hx.trans (snkSync_silent hy).1).ok _

/-- A refused table has an entry with bit 31 set (41_tree_build.md R141). -/
theorem negative_of_firstNegative {k : Nat} (h : firstNegative s.freq = some k) :
    ∃ sym, (freqAt sym s).getLsbD 31 = true := by
  by_contra hne
  have hall : ∀ sym, (freqAt sym s).getLsbD 31 = false := by simpa using hne
  cases h.symm.trans ((firstNegative_eq_none s).2 hall)

theorem execTreeBuild_end (h : execTreeBuild s = .next t) : ExecEnd .treeBuild s t := by
  rw [execTreeBuild] at h
  split at h
  case isTrue hb => cases h; exact .completes ⟨.rebuild, 0⟩ s rfl (.refl s) ⟨rfl, hb, rfl⟩
  case isFalse hb =>
    cases hf : firstNegative s.freq with rw [hf] at h
    | some k =>
      cases h
      exact .completes ⟨.badFreq, natResult k⟩ s rfl (.refl s)
        ⟨rfl, Bool.eq_false_of_not_eq_true hb, negative_of_firstNegative hf⟩
    | none =>
      cases h
      refine Silent.ok ?_ _
      exact ⟨rfl, rfl, rfl⟩

/-- How every command but ST_CLR ends. -/
theorem exec_end (hi : i ≠ .stClr) (h : exec i s = .next t) : ExecEnd i s t := by
  cases i with
  | stClr => exact absurd rfl hi
  | brReadbit => exact execBrReadbit_end h
  | decSym => exact execDecSym_end h
  | bwWritebit data => exact execBwWritebit_end h
  | bwFlush => exact execBwFlush_end h
  | encSym sym => exact execEncSym_end h
  | treeBuild => exact execTreeBuild_end h
  | brReset | bwReset | freqWr | freqRd | treeClear | stRd =>
    cases h
    refine Silent.ok ?_ _
    exact ⟨rfl, rfl, rfl⟩

/-- The response a command is seen to give has its cause. -/
theorem ExecEnd.hasCause {r : Response} (h : ExecEnd i s t) (hr : t.responses = s.responses ++ [r]) :
    HasCause i s t r := by
  cases h with
  | waits hw => simp [hw.responses] at hr
  | completes r' u ht hu hc =>
    rw [ht, complete_responses, hu.responses] at hr
    obtain rfl : r' = r := by simpa using hr
    exact hc

theorem exec_hasCause {r : Response} (h : exec i s = .next t) (hr : t.responses = s.responses ++ [r]) :
    HasCause i s t r := by
  by_cases hi : i = .stClr
  · subst hi
    cases (exec_stClr s).symm.trans h
    obtain rfl : ⟨.ok, 0⟩ = r := by simpa [respond] using hr
    trivial
  · exact (exec_end hi h).hasCause hr

end

/-! ### The obligations -/

/-- Settles O34: whatever the block does next is a next state, because every command word gives one under the invariant. -/
theorem noStepStopsUnderTheInvariant : Obligations.NoStepStopsUnderTheInvariant := by
  intro s hi
  have hpop : BlockInv (popHost s) := ⟨hi.reader, hi.writer, hi.tree⟩
  rw [step]
  cases ha : nextActivity s with
  | resets u => exact ⟨_, rfl⟩
  | waits => exact ⟨_, rfl⟩
  | idles => exact ⟨_, rfl⟩
  | takes w u =>
    obtain ⟨-, -, rfl⟩ := nextActivity_takes ha
    exact runWord_next hpop w
  | takesThenResets w u =>
    obtain ⟨-, -, rfl⟩ := nextActivity_takesThenResets ha
    obtain ⟨t, ht⟩ := runWord_next hpop w
    exact ⟨abandoned (popHost s) t, by simp only [ht]⟩

/-- Settles O11, by what each command had done when its transaction finds no answer. -/
theorem unansweredTransactionLeavesTheBlockWaiting : Obligations.UnansweredTransactionLeavesTheBlockWaiting := by
  refine ⟨fun s rest he hp hu => ?_, fun s rest data hp hu => ?_, fun s rest hp hu => ?_,
    fun s answers rest hp hs hu => ?_, fun s sym n code j answers rest hi hl hc hj hs hu => ?_,
    fun s r p nd c bs answers rest hi hr he hbits hd hn h0 hs hu => ?_⟩
  · exact exec_brReadbit_waits (readBitCore_unanswered he (congrArg Fin.val hp) hu)
  · exact exec_bwWritebit_waits (writeBitCore_unanswered (congrArg Fin.val hp) hu)
  · exact exec_bwFlush_put_waits (Fin.val_ne_of_ne hp) (snkPut_unanswered hu)
  · have hput := snkPut_answered s s.bw.byte hs
    rw [popSnk_eq hs] at hput
    exact exec_bwFlush_sync_waits (Fin.val_ne_of_ne hp) hput (snkSync_unanswered hu)
  · obtain ⟨k, w, bs, hkp, hk, hlen, hm, hsnk, hfull, hbits⟩ := writeMany_fills hi.writer hj hs
    have hput := writeBitCore_unanswered (s := afterPuts s w bs) (v := code[k]) hfull (hsnk ▸ hu)
    have hexec := (exec_encSym_present hl hc).trans (writeCode_waits (sym := sym) hk hm hput)
    exact ⟨_, bs, k, hexec, hkp, hk, hlen, Fin.ext hfull, rfl, hbits⟩
  · obtain ⟨br, hre, hpos, hexec⟩ := exec_decSym_waits (hi.built_of_root hr) hr hd hn h0 he hs hbits hu
    exact ⟨_, hexec, hre, Fin.ext hpos, rfl⟩

/-- Settles O36, by how a command ends; ST_CLR clears the bits before its response, which sets none. -/
theorem oneResponseAndItsStickyBit : Obligations.OneResponseAndItsStickyBit := by
  refine ⟨fun i s t h => ?_, fun s c h1 _ => ?_⟩
  · by_cases hi : i = .stClr
    · subst hi
      cases (exec_stClr s).symm.trans h
      exact .inl ⟨⟨.ok, 0⟩, rfl, rfl, absurd rfl, fun _ => rfl⟩
    · cases exec_end hi h with
      | waits hw => exact .inr ⟨hw.responses, hw.waiting, hw.sticky⟩
      | completes r u ht hu =>
        refine .inl ⟨r, ?_, ?_, fun _ c h1 _ => ?_, fun h => absurd h hi⟩ <;> subst ht
        · rw [complete_responses, hu.responses]
        · rw [complete_waiting, hu.waiting]
        · rw [stickyBit_complete _ _ _ h1, stickyBit, hu.sticky, stickyBit]
  · have hbit := stickyBit_complete .illegalCmd 0 s h1
    rwa [decide_eq_decide.2 eq_comm] at hbit

/-- Settles O38: the cause of the response is read off by its code. -/
theorem completionCodesHaveTheirCauses : Obligations.CompletionCodesHaveTheirCauses := by
  intro i s t r h hr
  have hcause := exec_hasCause h hr
  rw [HasCause] at hcause
  refine ⟨fun hcc => ?_, fun hcc => ?_, fun hcc => ?_, fun hcc => ?_, fun hcc => ?_, fun hcc => ?_, fun hcc => ?_,
    fun hcc => ?_⟩ <;> rw [hcc] at hcause <;> exact hcause

/-- Settles O9: with no reset asserted, a block that waits goes on waiting, and one without an input idles. -/
theorem waitingAndIdleBlocksKeepTheirState : Obligations.WaitingAndIdleBlocksKeepTheirState := by
  intro s hr h
  rw [step]
  by_cases hw : s.waiting = none
  · rw [nextActivity_of_noInput (h.resolve_left (absurd hw)) hw]
  · rw [nextActivity_of_waiting hr hw]

end Sys2Proof.Machine
end

section
/-! SUPPORT. Reset and the host's two command sequences (70_reset_and_hazards.md): where a reset lands and what it leaves,
what the status of a run says about its responses, and the compression and decompression sequences from reset to their last
response. -/

namespace Sys2Proof.Machine

/-! ### A reset on the channel (70_reset_and_hazards.md R250, R251) -/

section
variable {s t u : State} {w : CmdWord} {rest : List HostEvent}

theorem popHost_eq {e : HostEvent} (hh : s.host = e :: rest) : popHost s = { s with host := rest } := by
  rw [popHost, hh]
  rfl

/-- A reset that stands first on the channel is taken whether or not the block waits. -/
theorem step_reset (hh : s.host = .reset :: rest) : step s = .next (resetBlock { s with host := rest }) := by
  have hact : nextActivity s = .resets (popHost s) := by rw [nextActivity, hh]; rfl
  rw [step, hact, popHost_eq hh]

/-- A command word that a reset cuts off runs, and is then abandoned. -/
theorem step_commandThenReset (hw : s.waiting = none) (hh : s.host = .commandThenReset w :: rest)
    (hrun : runWord w { s with host := rest } = .next u) : step s = .next (abandoned { s with host := rest } u) := by
  have hact : nextActivity s = .takesThenResets w (popHost s) := by rw [nextActivity, hh, hw]; rfl
  rw [step, hact, popHost_eq hh]
  simp only [hrun]

/-- An abandoned command leaves the reset values, and of its effects only those on the streams. -/
theorem abandoned_holdsResetValues (s u : State) : HoldsResetValues (abandoned s u) := resetBlock_holdsResetValues _

/-- No command takes an input of the host. -/
theorem exec_host {i : Instr} (h : exec i s = .next t) : t.host = s.host := by
  obtain ⟨-, -, -, -, hhost⟩ := commandsWriteOnlyTheirUnit i s t h
  exact hhost

end

/-! ### What the responses of a run say about its status (60_exceptions.md R224, R233) -/

/-- The sticky bits and the outstanding transaction are as before. -/
structure StatusKept (s t : State) : Prop where
  sticky  : t.sticky = s.sticky
  waiting : t.waiting = s.waiting

section
variable {s t : State}

/-- A command other than ST_CLR gives one response, and keeps the status where that is OK, or it gives none. -/
theorem exec_response {i : Instr} (hi : i ≠ .stClr) (h : exec i s = .next t) :
    (∃ r, t.responses = s.responses ++ [r] ∧ (r.cc = .ok → StatusKept s t)) ∨ t.responses = s.responses := by
  cases exec_end hi h with
  | waits hw => exact .inr hw.responses
  | completes r u ht hu =>
    refine .inl ⟨r, ?_, fun hok => ⟨?_, ?_⟩⟩ <;> subst ht
    · rw [complete_responses, hu.responses]
    · rw [complete_sticky, hok, stickyAfter_ok, hu.sticky]
    · rw [complete_waiting, hu.waiting]

/-- A run without ST_CLR gives one response a command at most; where it gives that many, all OK, it keeps the status. -/
theorem execAll_responses : ∀ {is : List Instr} {s : State}, .stClr ∉ is → execAll is s = .next t →
    ∃ rs, t.responses = s.responses ++ rs ∧ rs.length ≤ is.length ∧
      (rs.length = is.length → (∀ r ∈ rs, r.cc = .ok) → StatusKept s t)
  | [], s, _, h => by
    cases h
    exact ⟨[], (List.append_nil _).symm, Nat.le_refl _, fun _ _ => ⟨rfl, rfl⟩⟩
  | i :: is, s, hno, h => by
    obtain ⟨hi, his⟩ := List.ne_and_not_mem_of_not_mem_cons hno
    cases hexec : exec i s with rw [execAll, hexec] at h
    | fault f => cases h
    | refused r => cases h
    | next u =>
      obtain ⟨rs, hrs, hle, hkept⟩ := execAll_responses his h
      rcases exec_response hi.symm hexec with ⟨r, hr, hfirst⟩ | hnone
      · refine ⟨r :: rs, by rw [hrs, hr, List.append_assoc]; rfl, Nat.succ_le_succ hle, fun hlen hok => ?_⟩
        obtain ⟨hokr, hokrs⟩ := List.forall_mem_cons.1 hok
        have hu := hfirst hokr
        have ht := hkept (Nat.succ.inj hlen) hokrs
        exact ⟨ht.sticky.trans hu.sticky, ht.waiting.trans hu.waiting⟩
      · refine ⟨rs, by rw [hrs, hnone], Nat.le_succ_of_le hle, fun hlen => ?_⟩
        rw [List.length_cons] at hlen
        omega

/-- A run of DEC_SYMs whose responses are the OKs of as many symbols keeps the status. -/
theorem execAll_decN_statusKept {input : List Byte} (h : execAll (decN input.length) s = .next t)
    (hsyms : (newResponses s t).map (fun r => (r.cc, r.res.setWidth 8)) = input.map fun b => (.ok, b)) :
    StatusKept s t := by
  have hno : .stClr ∉ decN input.length := fun hm => by cases List.eq_of_mem_replicate hm
  obtain ⟨rs, hrs, -, hkept⟩ := execAll_responses hno h
  rw [newResponses, hrs, List.drop_left] at hsyms
  refine hkept ?_ fun r hr => ?_
  · simpa [decN] using congrArg List.length hsyms
  · have hm : (r.cc, r.res.setWidth 8) ∈ input.map fun b => (CC.ok, b) := hsyms ▸ List.mem_map_of_mem hr
    obtain ⟨b, -, hb⟩ := List.mem_map.1 hm
    exact (congrArg Prod.fst hb).symm

/-- Puts that are answered OK use up as many of the sink's coming OKs. -/
theorem afterPuts_snk_okAnswers {m : Nat} {bs : List Byte} {more : List (Option SnkAnswer)} (w : Writer)
    (hs : s.snk = okAnswers (bs.length + m) ++ more) : (afterPuts s w bs).snk = okAnswers m ++ more := by
  show s.snk.drop bs.length = _
  rw [hs, okAnswers, List.replicate_add, List.append_assoc, List.drop_left' List.length_replicate, okAnswers]

/-- A run of ENC_SYMs of present symbols and a BW_FLUSH keeps the status where the sink answers OK often enough. -/
theorem execAll_encStr_flush_statusKept {input : List Byte} {more : List (Option SnkAnswer)} (hb : BuiltOk s.tree)
    (hp : ∀ b ∈ input, (leafAt b s).isSome = true) (hw : s.bw = Writer.empty)
    (hs : s.snk = okAnswers (32 * input.length + 2) ++ more)
    (h : execAll (encStr input ++ [.bwFlush]) s = .next t) : StatusKept s t := by
  obtain ⟨codes, hcodes⟩ := hb.codes_exist hp
  have hlen := hb.codes_length hcodes
  have hpos : s.bw.pos.val = 0 := by rw [hw]; rfl
  obtain ⟨v, hv⟩ := writeMany_accepts (vs := codes.flatten) hs (by omega)
  obtain ⟨rs, henc⟩ := execAll_encStr hcodes hv
  obtain ⟨bw, bs, rfl, hput, -⟩ := writeMany_ok (hw ▸ writerOk_empty) hv
  obtain ⟨m, hm⟩ : ∃ m, 32 * input.length + 2 = bs.length + (m + 2) := ⟨32 * input.length - bs.length, by omega⟩
  have hsnk : (afterPuts s bw bs).snk = okAnswers (m + 2) ++ more := afterPuts_snk_okAnswers bw (hm ▸ hs)
  obtain ⟨u, n, hflush, hresp⟩ := exec_bwFlush_ok (s := respond rs (afterPuts s bw bs)) hsnk
  cases ((execAll_append _ _ _ _ henc).trans (execAll_cons hflush)).symm.trans h
  rcases exec_response (i := .bwFlush) nofun hflush with ⟨r, hr, hkept⟩ | hnone
  · obtain rfl : ⟨.ok, n⟩ = r := by simpa using hresp.symm.trans hr
    exact ⟨(hkept rfl).sticky, (hkept rfl).waiting⟩
  · simp [hresp] at hnone

end

/-! ### The host's counting (70_reset_and_hazards.md R254) -/

theorem countTable_getElem (input : List Byte) (sym : Byte) :
    (countTable input)[(symIx sym).val]'(symIx sym).isLt = BitVec.ofNat 32 (input.count sym) := by
  rw [countTable, Vector.getElem_ofFn, symIx, BitVec.ofNat_toNat, BitVec.setWidth_eq]

/-- TREE_BUILD accepts the counts of an input shorter than 2^31 bytes (41_tree_build.md R141). -/
theorem firstNegative_countTable {input : List Byte} (hl : input.length < 2 ^ 31) :
    firstNegative (countTable input) = none := by
  refine (firstNegative_eq_none { State.reset with freq := countTable input }).2 fun sym => ?_
  rw [freqAt, countTable_getElem, BitVec.getLsbD, toNat_count sym input hl]
  exact Nat.testBit_lt_two_pow (Nat.lt_of_le_of_lt List.count_le_length hl)

/-! ### A command sequence from reset (70_reset_and_hazards.md R254, R255) -/

section
variable {f : FreqTable}

/-- The block after the reset first on the channel and the loading of table `f`: 256 responses, all OK, and of the state
elements only FREQ not at its reset value. -/
def loadedFromReset (f : FreqTable) (s : State) : State :=
  { resetBlock (popHost s) with freq := f, responses := s.responses ++ List.replicate 256 ⟨.ok, 0⟩ }

/-- The same block after a TREE_BUILD that is not refused. -/
def prepared (f : FreqTable) (s : State) : State :=
  respond [⟨.ok, natResult (leafCount f)⟩] (setTree (builtTree f Tree.empty.nodes) (loadedFromReset f s))

theorem loadedFromReset_blockInv (f : FreqTable) (s : State) : BlockInv (loadedFromReset f s) :=
  ⟨readerOk_empty, writerOk_empty, treeOk_empty⟩

theorem prepared_blockInv (hf : firstNegative f = none) (s : State) : BlockInv (prepared f s) :=
  ⟨readerOk_empty, writerOk_empty, treeOk_builtTree treeOk_empty rfl hf⟩

theorem newSinkBytes_prepared (f : FreqTable) (s t : State) : newSinkBytes (prepared f s) t = newSinkBytes s t := rfl

theorem length_responses_prepared (f : FreqTable) (s : State) :
    (prepared f s).responses.length = s.responses.length + 257 := by
  rw [prepared, respond, setTree_responses, loadedFromReset, List.length_append, List.length_append, List.length_replicate]
  rfl

theorem newResponses_prepared (f : FreqTable) (s t : State) :
    newResponses (prepared f s) t = (newResponses s t).drop 257 := by
  rw [newResponses, newResponses, List.drop_drop, length_responses_prepared]

/-- Every byte of the input has a leaf in the tree built from its counts. -/
theorem leafAt_prepared_countTable {input : List Byte} (hl : input.length < 2 ^ 31) {sym : Byte} (hm : sym ∈ input)
    (s : State) : (leafAt sym (prepared (countTable input) s)).isSome = true := by
  have hleaf : leafAt sym (prepared (countTable input) s) = _ := builtTree_leaf (countTable input) sym
  have hne : (countTable input)[(symIx sym).val]'(symIx sym).isLt ≠ 0 := fun h0 => by
    have hcount := toNat_count sym input hl
    rw [← countTable_getElem, h0] at hcount
    exact absurd hcount (List.count_pos_iff.2 hm).ne
  rw [hleaf, if_neg hne]
  rfl

/-- Loading a table that TREE_BUILD accepts, and building, from the reset block. -/
theorem execAll_prepare (hf : firstNegative f = none) (s : State) :
    execAll (freqLoad f ++ [.treeBuild]) (resetBlock (popHost s)) = .next (prepared f s) := by
  have hload : execAll (freqLoad f) (resetBlock (popHost s)) = .next (loadedFromReset f s) := execAll_freqLoad f _
  have hn := (firstNegative_eq_none (loadedFromReset f s)).1 hf
  have hbuild := exec_treeBuild (loadedFromReset_blockInv f s) rfl hn
  exact (execAll_append _ _ _ _ hload).trans (execAll_cons hbuild)

/-- A sequence of reset, loading, building and more commands runs on the channel as those commands run on the prepared
block, where none of them is left waiting. -/
theorem run_sequence {is : List Instr} {s t : State} (hf : firstNegative f = none)
    (hh : s.host = .reset :: issue (freqLoad f ++ [.treeBuild] ++ is)) (he : execAll is (prepared f s) = .next t)
    (hw : t.waiting = none) : Host.Core.run core s.host.length s = .next (setHost [] t) := by
  have hstep : core.step s = .next (resetBlock (popHost s)) := popHost_eq hh ▸ step_reset hh
  have hhost : (resetBlock (popHost s)).host = issue (freqLoad f ++ [.treeBuild] ++ is) ++ [] := by
    rw [resetBlock_host, popHost_eq hh, List.append_nil]
  have hrun := (execAll_append _ is _ _ (execAll_prepare hf s)).trans he
  rw [hh, List.length_cons, issue, List.length_map]
  refine (core_run_succ core _ s).trans ?_
  rw [hstep]
  exact run_issue decode_encode _ _ t [] hhost hrun hw

end

/-! ### The obligations -/

/-- Settles O50: both sequences prepare a block with one table, O49 gives the symbols back between the prepared blocks, and
neither run changes the sticky bits, which the reset has cleared. -/
theorem decompressionGivesTheInputBack : Obligations.DecompressionGivesTheInputBack := by
  intro s d input more rest hlen hhost hsnk
  have hf := firstNegative_countTable hlen
  have hinv := prepared_blockInv hf
  have hpresent : ∀ b ∈ input, (leafAt b (prepared (countTable input) s)).isSome = true :=
    fun b hb => leafAt_prepared_countTable hlen hb s
  obtain ⟨e, henc, hdec⟩ := decodingTheEncodedBytesGivesThemBack (prepared (countTable input) s)
    (prepared (countTable input) d) input more rest (hinv s) (hinv d) rfl rfl hpresent rfl hsnk rfl
  have he := execAll_encStr_flush_statusKept ((hinv s).tree.builtOk rfl) hpresent rfl hsnk henc
  refine ⟨setHost [] e, ?_, beq_iff_eq.2 he.sticky, fun hdhost hdsrc => ?_⟩
  · rw [← hhost]
    exact run_sequence hf (by rw [hhost, compression, List.append_assoc]) henc he.waiting
  · obtain ⟨f, hrun, hsyms⟩ := hdec hdsrc
    have hkept := execAll_decN_statusKept hrun hsyms
    refine ⟨setHost [] f, ?_, beq_iff_eq.2 hkept.sticky, ?_⟩
    · rw [← hdhost]
      exact run_sequence hf (by rw [hdhost, decompression, symbolCount_countTable input hlen]) hrun hkept.waiting
    · rw [newResponses_prepared] at hsyms
      exact hsyms

/-- Settles O8: a step that takes a reset ends in the reset block; one that a reset cuts off ends there too, with the streams
as the command left them. -/
theorem resetInputResetsTheBlock : Obligations.ResetInputResetsTheBlock := by
  refine ⟨fun s rest hh => ?_, fun s u w i rest hw hh hdec hexec => ?_, fun s w rest hw hh hillegal => ?_⟩
  · refine ⟨_, step_reset hh, resetBlock_holdsResetValues _, rfl, rfl, rfl, rfl, rfl, ?_⟩
    rintro rfl
    exact waitingAndIdleBlocksKeepTheirState _ nofun (.inr rfl)
  · have hrun := (runWord_of_decode hdec _).trans hexec
    exact ⟨_, step_commandThenReset hw hh hrun, abandoned_holdsResetValues _ _, exec_host hexec, rfl, rfl, rfl, rfl⟩
  · have hrun := runWord_of_illegal hillegal { s with host := rest }
    exact ⟨_, step_commandThenReset hw hh hrun, abandoned_holdsResetValues _ _, rfl, rfl, rfl, rfl, rfl⟩

end Sys2Proof.Machine
end
